-- ==== Sys2Proof/Word.lean ====
section
/-! DEFINITION. The word types of the block: scalar and integer registers, command words, ROM ids. -/

namespace Sys2Proof

/-- What a scalar register holds: 128 bits, a pattern of width `W` in its low bits (R23). -/
abbrev Scalar := BitVec 128

/-- What an integer register holds, and every 32-bit control register (R24, R27, R28). -/
abbrev Word32 := BitVec 32

/-- A command word (R46). -/
abbrev Command := BitVec 32

/-- A table id or a coefficient-set id, the command's `sel` field (R51). -/
abbrev RomId := BitVec 8

/-- A register number, `f0..f7` or `n0..n7` (R23, R24, R50). -/
abbrev RegNum := Fin 8

end Sys2Proof
end

