-- ==== Sys2Proof/Syntax.lean ====
section
/-! DEFINITION. The 22 commands of R52 with the operands of R53. -/

namespace Sys2Proof

/-- The precision variant of a command: single, double, long double (R6, R48). -/
inductive Fmt where
  | S
  | D
  | L
deriving DecidableEq, Repr

/-- A destination specifier: a register, or `NULL`, "no location" (R49). -/
inductive Dst where
  | reg (r : RegNum)
  | null
deriving DecidableEq, Repr

/-- One constructor per row of the opcode table. Each takes the format and then the operands in the order of
R53's last column: `f` operands name scalar registers, `n` operands integer registers. -/
inductive Instr where
  | xsign (fmt : Fmt) (nd : Dst) (fs : RegNum)
  | xexp (fmt : Fmt) (nd : Dst) (fs : RegNum)
  | xman (fmt : Fmt) (fd : Dst) (fs : RegNum)
  | decomp (fmt : Fmt) (fd nd : Dst) (fs : RegNum)
  | isnan (fmt : Fmt) (nd : Dst) (fs : RegNum)
  | isinf (fmt : Fmt) (nd : Dst) (fs : RegNum)
  | isnaninf (fmt : Fmt) (nd : Dst) (fs : RegNum)
  | issubz (fmt : Fmt) (nd : Dst) (fs : RegNum)
  | tindex (fmt : Fmt) (nd : Dst) (fs : RegNum) (tbl : RomId)
  | tload (fmt : Fmt) (fd : Dst) (ns : RegNum) (tbl : RomId)
  | resdiv (fmt : Fmt) (fd : Dst) (fm nk : RegNum) (tbl : RomId)
  | ressub (fmt : Fmt) (fd : Dst) (fm nk : RegNum) (tbl : RomId)
  | resmul (fmt : Fmt) (fd : Dst) (fm nk : RegNum) (tbl : RomId)
  | horner (fmt : Fmt) (fd : Dst) (fz : RegNum) (cset : RomId)
  | hornersq (fmt : Fmt) (fd : Dst) (fa : RegNum) (cset : RomId)
  | rational (fmt : Fmt) (fd : Dst) (fz : RegNum) (cset : RomId)
  | recadd (fmt : Fmt) (fd : Dst) (ne fp ft : RegNum)
  | recmul (fmt : Fmt) (fd : Dst) (ne fp ft : RegNum)
  | newton3 (fmt : Fmt) (fd : Dst) (fy fx : RegNum)
  | sgncpy (fmt : Fmt) (fd : Dst) (fr fx : RegNum)
  | sgnclr (fmt : Fmt) (fd : Dst) (fs : RegNum)
  | recomp (fmt : Fmt) (fd : Dst) (fm ne : RegNum)
deriving DecidableEq, Repr

end Sys2Proof
end

