-- ==== Sys2Proof/Decode.lean ====
section
/-! DEFINITION. The command encoding of `30_encoding.md`: the fields of `CMD32`, the decoder (total, rejecting by
name), the encoder, and the opcode map. -/

namespace Sys2Proof

/-- The fields of `CMD32`, most significant first (R47). -/
structure Fields where
  op : BitVec 5
  fmt : BitVec 2
  da : BitVec 4
  db : BitVec 4
  sa : BitVec 3
  sb : BitVec 3
  sc : BitVec 3
  sel : BitVec 8
deriving DecidableEq, Repr

/-- The fields of a word (R47). -/
def Fields.ofWord (w : Command) : Fields where
  op := w.extractLsb' 27 5
  fmt := w.extractLsb' 25 2
  da := w.extractLsb' 21 4
  db := w.extractLsb' 17 4
  sa := w.extractLsb' 14 3
  sb := w.extractLsb' 11 3
  sc := w.extractLsb' 8 3
  sel := w.extractLsb' 0 8

/-- The word of some fields (R47). -/
def Fields.toWord (x : Fields) : Command :=
  x.op ++ x.fmt ++ x.da ++ x.db ++ x.sa ++ x.sb ++ x.sc ++ x.sel

/-- Why the bits of a word make it an illegal command whatever the configuration (R54 checks 1 to 4). Which reason
is named first is a DESIGN CHOICE (log 17), safe: it cannot be observed (R109). -/
inductive Reject where
  /-- `op` is 0x00 or 0x17 to 0x1F. -/
  | reservedOp
  /-- A field the operation does not use is not 0. -/
  | unusedField
  /-- `fmt` is 3. -/
  | reservedFmt
  /-- A used destination specifier is 8 to 14. -/
  | reservedDst
deriving DecidableEq, Repr

/-- The `fmt` field (R48). -/
def fmtOfBits (b : BitVec 2) : Option Fmt :=
  if b = 0 then some .S else if b = 1 then some .D else if b = 2 then some .L else none

/-- The `fmt` field (R48). -/
def fmtBits : Fmt → BitVec 2
  | .S => 0
  | .D => 1
  | .L => 2

/-- R49: 0 to 7 name a register, 15 is `NULL`, 8 to 14 are reserved. -/
def dstOfBits (b : BitVec 4) : Option Dst :=
  if h : b.toNat < 8 then some (.reg ⟨b.toNat, h⟩) else if b = 15 then some .null else none

/-- The bits of a destination specifier (R49). -/
def dstBits : Dst → BitVec 4
  | .reg r => BitVec.ofNat 4 r.val
  | .null => 15

/-- R50: all eight values are legal. -/
def regOfBits (b : BitVec 3) : RegNum := ⟨b.toNat, b.isLt⟩

/-- The bits of a source specifier (R50). -/
def regBits (r : RegNum) : BitVec 3 := BitVec.ofNat 3 r.val

/-- A command with one destination: the unused fields must be 0, the format and the destination legal (R54). -/
def Fields.oneDst (x : Fields) (unusedAreZero : Bool) (mk : Fmt → Dst → Instr) : Except Reject Instr :=
  if unusedAreZero then
    match fmtOfBits x.fmt, dstOfBits x.da with
    | some p, some d => .ok (mk p d)
    | none, _ => .error .reservedFmt
    | some _, none => .error .reservedDst
  else .error .unusedField

/-- `DECOMP`, the one command with two destinations (R47, R53). -/
def Fields.twoDst (x : Fields) (unusedAreZero : Bool) (mk : Fmt → Dst → Dst → Instr) : Except Reject Instr :=
  if unusedAreZero then
    match fmtOfBits x.fmt, dstOfBits x.da, dstOfBits x.db with
    | some p, some d, some e => .ok (mk p d e)
    | none, _, _ => .error .reservedFmt
    | some _, _, _ => .error .reservedDst
  else .error .unusedField

/-- `sa` alone is used besides `da` (R53). -/
def Fields.onlySa (x : Fields) : Bool := x.db == 0 && x.sb == 0 && x.sc == 0 && x.sel == 0

/-- `sa` and `sel` are used besides `da` (R53). -/
def Fields.onlySaSel (x : Fields) : Bool := x.db == 0 && x.sb == 0 && x.sc == 0

/-- `sa`, `sb` and `sel` are used besides `da` (R53). -/
def Fields.onlySaSbSel (x : Fields) : Bool := x.db == 0 && x.sc == 0

/-- `sa` and `sb` are used besides `da` (R53). -/
def Fields.onlySaSb (x : Fields) : Bool := x.db == 0 && x.sc == 0 && x.sel == 0

/-- `sa`, `sb` and `sc` are used besides `da` (R53). -/
def Fields.onlySaSbSc (x : Fields) : Bool := x.db == 0 && x.sel == 0

/-- `sa` is used besides `da` and `db` (R53). -/
def Fields.onlyDbSa (x : Fields) : Bool := x.sb == 0 && x.sc == 0 && x.sel == 0

/-- The command some fields stand for (R52, R53, R54 checks 1 to 4). -/
def Fields.toInstr (x : Fields) : Except Reject Instr :=
  let a := regOfBits x.sa
  let b := regOfBits x.sb
  let c := regOfBits x.sc
  match x.op.toNat with
  | 0x01 => x.oneDst x.onlySa fun p d => .xsign p d a
  | 0x02 => x.oneDst x.onlySa fun p d => .xexp p d a
  | 0x03 => x.oneDst x.onlySa fun p d => .xman p d a
  | 0x04 => x.twoDst x.onlyDbSa fun p d e => .decomp p d e a
  | 0x05 => x.oneDst x.onlySa fun p d => .isnan p d a
  | 0x06 => x.oneDst x.onlySa fun p d => .isinf p d a
  | 0x07 => x.oneDst x.onlySa fun p d => .isnaninf p d a
  | 0x08 => x.oneDst x.onlySa fun p d => .issubz p d a
  | 0x09 => x.oneDst x.onlySaSel fun p d => .tindex p d a x.sel
  | 0x0A => x.oneDst x.onlySaSel fun p d => .tload p d a x.sel
  | 0x0B => x.oneDst x.onlySaSbSel fun p d => .resdiv p d a b x.sel
  | 0x0C => x.oneDst x.onlySaSbSel fun p d => .ressub p d a b x.sel
  | 0x0D => x.oneDst x.onlySaSbSel fun p d => .resmul p d a b x.sel
  | 0x0E => x.oneDst x.onlySaSel fun p d => .horner p d a x.sel
  | 0x0F => x.oneDst x.onlySaSel fun p d => .hornersq p d a x.sel
  | 0x10 => x.oneDst x.onlySaSel fun p d => .rational p d a x.sel
  | 0x11 => x.oneDst x.onlySaSbSc fun p d => .recadd p d a b c
  | 0x12 => x.oneDst x.onlySaSbSc fun p d => .recmul p d a b c
  | 0x13 => x.oneDst x.onlySaSb fun p d => .newton3 p d a b
  | 0x14 => x.oneDst x.onlySaSb fun p d => .sgncpy p d a b
  | 0x15 => x.oneDst x.onlySa fun p d => .sgnclr p d a
  | 0x16 => x.oneDst x.onlySaSb fun p d => .recomp p d a b
  | _ => .error .reservedOp

/-- The command a word stands for, or why its bits make it illegal (R52, R54, R55). -/
def decode (w : Command) : Except Reject Instr := (Fields.ofWord w).toInstr

/-- The fields of a command; a field the operation does not use is 0 (R47, R52, R53). -/
def Instr.fields : Instr → Fields
  | .xsign p d a => ⟨0x01, fmtBits p, dstBits d, 0, regBits a, 0, 0, 0⟩
  | .xexp p d a => ⟨0x02, fmtBits p, dstBits d, 0, regBits a, 0, 0, 0⟩
  | .xman p d a => ⟨0x03, fmtBits p, dstBits d, 0, regBits a, 0, 0, 0⟩
  | .decomp p d e a => ⟨0x04, fmtBits p, dstBits d, dstBits e, regBits a, 0, 0, 0⟩
  | .isnan p d a => ⟨0x05, fmtBits p, dstBits d, 0, regBits a, 0, 0, 0⟩
  | .isinf p d a => ⟨0x06, fmtBits p, dstBits d, 0, regBits a, 0, 0, 0⟩
  | .isnaninf p d a => ⟨0x07, fmtBits p, dstBits d, 0, regBits a, 0, 0, 0⟩
  | .issubz p d a => ⟨0x08, fmtBits p, dstBits d, 0, regBits a, 0, 0, 0⟩
  | .tindex p d a t => ⟨0x09, fmtBits p, dstBits d, 0, regBits a, 0, 0, t⟩
  | .tload p d a t => ⟨0x0A, fmtBits p, dstBits d, 0, regBits a, 0, 0, t⟩
  | .resdiv p d a b t => ⟨0x0B, fmtBits p, dstBits d, 0, regBits a, regBits b, 0, t⟩
  | .ressub p d a b t => ⟨0x0C, fmtBits p, dstBits d, 0, regBits a, regBits b, 0, t⟩
  | .resmul p d a b t => ⟨0x0D, fmtBits p, dstBits d, 0, regBits a, regBits b, 0, t⟩
  | .horner p d a k => ⟨0x0E, fmtBits p, dstBits d, 0, regBits a, 0, 0, k⟩
  | .hornersq p d a k => ⟨0x0F, fmtBits p, dstBits d, 0, regBits a, 0, 0, k⟩
  | .rational p d a k => ⟨0x10, fmtBits p, dstBits d, 0, regBits a, 0, 0, k⟩
  | .recadd p d a b c => ⟨0x11, fmtBits p, dstBits d, 0, regBits a, regBits b, regBits c, 0⟩
  | .recmul p d a b c => ⟨0x12, fmtBits p, dstBits d, 0, regBits a, regBits b, regBits c, 0⟩
  | .newton3 p d a b => ⟨0x13, fmtBits p, dstBits d, 0, regBits a, regBits b, 0, 0⟩
  | .sgncpy p d a b => ⟨0x14, fmtBits p, dstBits d, 0, regBits a, regBits b, 0, 0⟩
  | .sgnclr p d a => ⟨0x15, fmtBits p, dstBits d, 0, regBits a, 0, 0, 0⟩
  | .recomp p d a b => ⟨0x16, fmtBits p, dstBits d, 0, regBits a, regBits b, 0, 0⟩

/-- The word of a command (R47, R52, R53). -/
def encode (i : Instr) : Command := i.fields.toWord

/-- The destination specifiers a command uses in the scalar file (R53). -/
def Instr.scalarDsts : Instr → List Dst
  | .xman _ d _ | .decomp _ d _ _ => [d]
  | .tload _ d _ _ | .resdiv _ d _ _ _ | .ressub _ d _ _ _ | .resmul _ d _ _ _ => [d]
  | .horner _ d _ _ | .hornersq _ d _ _ | .rational _ d _ _ => [d]
  | .recadd _ d _ _ _ | .recmul _ d _ _ _ | .newton3 _ d _ _ => [d]
  | .sgncpy _ d _ _ | .sgnclr _ d _ | .recomp _ d _ _ => [d]
  | .xsign _ _ _ | .xexp _ _ _ | .tindex _ _ _ _ => []
  | .isnan _ _ _ | .isinf _ _ _ | .isnaninf _ _ _ | .issubz _ _ _ => []

/-- The destination specifiers a command uses in the integer file (R53). -/
def Instr.integerDsts : Instr → List Dst
  | .xsign _ d _ | .xexp _ d _ | .decomp _ _ d _ | .tindex _ d _ _ => [d]
  | .isnan _ d _ | .isinf _ d _ | .isnaninf _ d _ | .issubz _ d _ => [d]
  | .xman _ _ _ | .tload _ _ _ _ | .resdiv _ _ _ _ _ | .ressub _ _ _ _ _ | .resmul _ _ _ _ _ => []
  | .horner _ _ _ _ | .hornersq _ _ _ _ | .rational _ _ _ _ => []
  | .recadd _ _ _ _ _ | .recmul _ _ _ _ _ | .newton3 _ _ _ _ => []
  | .sgncpy _ _ _ _ | .sgnclr _ _ _ | .recomp _ _ _ _ => []

/-- The scalar registers a command reads (R53). -/
def Instr.scalarSrcs : Instr → List RegNum
  | .xsign _ _ a | .xexp _ _ a | .xman _ _ a | .decomp _ _ _ a => [a]
  | .isnan _ _ a | .isinf _ _ a | .isnaninf _ _ a | .issubz _ _ a => [a]
  | .tindex _ _ a _ => [a]
  | .tload _ _ _ _ => []
  | .resdiv _ _ a _ _ | .ressub _ _ a _ _ | .resmul _ _ a _ _ => [a]
  | .horner _ _ a _ | .hornersq _ _ a _ | .rational _ _ a _ => [a]
  | .recadd _ _ _ b c | .recmul _ _ _ b c => [b, c]
  | .newton3 _ _ a b | .sgncpy _ _ a b => [a, b]
  | .sgnclr _ _ a | .recomp _ _ a _ => [a]

/-- The integer registers a command reads (R53). -/
def Instr.integerSrcs : Instr → List RegNum
  | .tload _ _ a _ => [a]
  | .resdiv _ _ _ b _ | .ressub _ _ _ b _ | .resmul _ _ _ b _ => [b]
  | .recadd _ _ a _ _ | .recmul _ _ a _ _ => [a]
  | .recomp _ _ _ b => [b]
  | .xsign _ _ _ | .xexp _ _ _ | .xman _ _ _ | .decomp _ _ _ _ => []
  | .isnan _ _ _ | .isinf _ _ _ | .isnaninf _ _ _ | .issubz _ _ _ => []
  | .tindex _ _ _ _ | .horner _ _ _ _ | .hornersq _ _ _ _ | .rational _ _ _ _ => []
  | .newton3 _ _ _ _ | .sgncpy _ _ _ _ | .sgnclr _ _ _ => []

/-- A row of the opcode map (R52). -/
structure OpRow where
  mnemonic : String
  mask : Command
  fixed : Command
deriving DecidableEq, Repr

/-- A word selects a row when its bits under the mask are the row's (R52). -/
def OpRow.selects (r : OpRow) (w : Command) : Bool := w &&& r.mask == r.fixed

/-- The opcode map as R52 prints it: mnemonic, mask, match. -/
def opcodeMap : List OpRow := [
  ⟨"XSIGN", 0xF81E3FFF, 0x08000000⟩,
  ⟨"XEXP", 0xF81E3FFF, 0x10000000⟩,
  ⟨"XMAN", 0xF81E3FFF, 0x18000000⟩,
  ⟨"DECOMP", 0xF8003FFF, 0x20000000⟩,
  ⟨"ISNAN", 0xF81E3FFF, 0x28000000⟩,
  ⟨"ISINF", 0xF81E3FFF, 0x30000000⟩,
  ⟨"ISNANINF", 0xF81E3FFF, 0x38000000⟩,
  ⟨"ISSUBZ", 0xF81E3FFF, 0x40000000⟩,
  ⟨"TINDEX", 0xF81E3F00, 0x48000000⟩,
  ⟨"TLOAD", 0xF81E3F00, 0x50000000⟩,
  ⟨"RESDIV", 0xF81E0700, 0x58000000⟩,
  ⟨"RESSUB", 0xF81E0700, 0x60000000⟩,
  ⟨"RESMUL", 0xF81E0700, 0x68000000⟩,
  ⟨"HORNER", 0xF81E3F00, 0x70000000⟩,
  ⟨"HORNERSQ", 0xF81E3F00, 0x78000000⟩,
  ⟨"RATIONAL", 0xF81E3F00, 0x80000000⟩,
  ⟨"RECADD", 0xF81E00FF, 0x88000000⟩,
  ⟨"RECMUL", 0xF81E00FF, 0x90000000⟩,
  ⟨"NEWTON3", 0xF81E07FF, 0x98000000⟩,
  ⟨"SGNCPY", 0xF81E07FF, 0xA0000000⟩,
  ⟨"SGNCLR", 0xF81E3FFF, 0xA8000000⟩,
  ⟨"RECOMP", 0xF81E07FF, 0xB0000000⟩]

/-- The mnemonic of a command (R52, R57). -/
def Instr.mnemonic : Instr → String
  | .xsign .. => "XSIGN"
  | .xexp .. => "XEXP"
  | .xman .. => "XMAN"
  | .decomp .. => "DECOMP"
  | .isnan .. => "ISNAN"
  | .isinf .. => "ISINF"
  | .isnaninf .. => "ISNANINF"
  | .issubz .. => "ISSUBZ"
  | .tindex .. => "TINDEX"
  | .tload .. => "TLOAD"
  | .resdiv .. => "RESDIV"
  | .ressub .. => "RESSUB"
  | .resmul .. => "RESMUL"
  | .horner .. => "HORNER"
  | .hornersq .. => "HORNERSQ"
  | .rational .. => "RATIONAL"
  | .recadd .. => "RECADD"
  | .recmul .. => "RECMUL"
  | .newton3 .. => "NEWTON3"
  | .sgncpy .. => "SGNCPY"
  | .sgnclr .. => "SGNCLR"
  | .recomp .. => "RECOMP"

/-- The instruction the decoder reads from an instruction whose bits are `w`. A command is one 32-bit word (R46), so
the bits above `nbits` are 0 and a number of more than 32 bits is no command. -/
def decodeTableWord (nbits w : Nat) : Option Instr :=
  if w % 2 ^ nbits < 2 ^ 32 then (decode (BitVec.ofNat 32 (w % 2 ^ nbits))).toOption else none

end Sys2Proof
end

