-- ==== Sys2Proof/Config.lean ====
section
/-! DEFINITION. The configuration record of section 3 of `00_scope.md`: what is fixed when the block is built,
and the free values, which nothing constrains. -/

namespace Sys2Proof

/-- `LD_LAYOUT`: the layout of the platform's long double (R7). -/
inductive LdLayout where
  | binary64
  | extended80
  | quad128
  | doubledouble
deriving DecidableEq, Repr, Inhabited

/-- The two decomposition paths of parameter `PATH` (R8). -/
inductive DecompPath where
  | fast
  | portable
deriving DecidableEq, Repr

/-- Values of `ARITH` (R13). The spec decides the first (D13); the others stand for any other arithmetic, so that a
claim can name the one property of the arithmetic that it needs. DESIGN CHOICE (log 20), safe: a number in place of
the functions, because a state is plain data. -/
inductive ArithUnit where
  | nearestEven
  | other (k : Nat)
deriving DecidableEq, Repr, Inhabited

/-- A rational strictly between 0 and 1, the one that splits the interval as `below + 1` to `above + 1`: what
`LOG_NEAR_LO` can be (D38). -/
structure OpenUnit where
  below : Nat
  above : Nat
deriving DecidableEq, Repr, Inhabited

/-- The number itself. -/
def OpenUnit.toRat (u : OpenUnit) : Rat := ((u.below + 1 : Nat) : Rat) / ((u.below + u.above + 2 : Nat) : Rat)

/-- The host-visible places of a platform's map, `HOST_MAP`, which no rule reads (R40, R117). -/
inductive HostPort where
  | scalar (i : RegNum)
  | integer (i : RegNum)
  | status
  | config
  | command
  | reset
deriving DecidableEq, Repr

/-- One value for each command format (R6, R48). -/
structure PerFmt (α : Type) where
  S : α
  D : α
  L : α
deriving DecidableEq, Repr, Inhabited

/-- A lookup table at one format: `L` index bits, `L ≤ 16`, and `2 ^ L` entries (R9). -/
structure Table where
  bits : Fin 17
  entries : Vector Scalar (2 ^ bits.val)
deriving DecidableEq, Repr

/-- All that the table ROM holds under one id: `L`, the same for every format (R9, D20), and the entries at each
format that has any. -/
structure TableRom where
  id : RomId
  bits : Fin 17
  entries : PerFmt (Option (Vector Scalar (2 ^ bits.val)))
deriving DecidableEq, Repr

/-- A coefficient sequence `c0, c1, ..., cn` with `n ≥ 0`: `c0` and the rest (R10). -/
structure Poly where
  c0 : Scalar
  higher : List Scalar
deriving DecidableEq, Repr

/-- An approximation polynomial (R10). -/
inductive CoeffSet where
  | poly (c : Poly)
  | rational (p q : Poly)
deriving DecidableEq, Repr

/-- All that the coefficient ROM holds under one id. The degree may differ between formats (R10). -/
structure CoeffRom where
  id : RomId
  sets : PerFmt (Option CoeffSet)
deriving DecidableEq, Repr

/-- The OPEN parameters of section 2 of `92_eei_decisions.md`. A pattern of width `W` stands in the low `W` bits of
its 128; the bits above are never read. `TABLES` and `COEFFS` are partial functions given as lists: the first entry
with an id counts, an id with none is undefined (log 11). -/
structure Config where
  /-- `LD_LAYOUT` (R7). -/
  ldLayout : LdLayout
  /-- `TABLES` (R9). -/
  tables : List TableRom
  /-- `COEFFS` (R10). -/
  coeffs : List CoeffRom
  /-- `K_LN2(fmt)` (R11). -/
  kLn2 : PerFmt Scalar
  /-- `K_CBRT2(fmt, 1)` (R11). -/
  kCbrt2One : PerFmt Scalar
  /-- `K_CBRT2(fmt, 2)` (R11). -/
  kCbrt2Two : PerFmt Scalar
  /-- `LOG_NEAR_LO`, of the host's sequence alone (R97, D38). DESIGN CHOICE (log 12): a rational, where the spec says a
  real. -/
  logNearLo : OpenUnit
  /-- `ARITH` (R13). -/
  arith : ArithUnit
  /-- `HOST_MAP` (R40): no rule reads it. DESIGN CHOICE (log 12): the form of its values, a number for each port. -/
  hostMap : List (HostPort × Nat)
  /-- `HOST_BYTE_ORDER` (R37): no rule reads it. DESIGN CHOICE (log 12): the form of its values, for each byte of the
  bus in the bus's own order the byte of the 128-bit vector that it carries; every order can be said so, and none is
  assumed (N20). -/
  hostByteOrder : List (Fin 16)
deriving DecidableEq, Repr, Inhabited

/-- The example value of `LOG_NEAR_LO`, 0.99 (R97, D38). -/
def Config.logNearLoExample : OpenUnit := ⟨98, 0⟩

/-- `PATH = fast`, decided (R8, D19). -/
def Config.path : DecompPath := .fast

/-- `PUN = 1`, decided (R8, D19). -/
def Config.pun : Bool := true

/-- `ERR_BUDGET`, in units in the last place: a property of the ROM contents that no rule reads (R14, D39). -/
def Config.errBudgetUlp : Nat := 1

/-- DESIGN CHOICE (log 4), safe. The configuration the block was built with: OPEN (D18, D37), so it has no body. Its
`arith` counts for nothing: that parameter is decided (`State.reset`). -/
opaque Config.built : Config

/-- DESIGN CHOICE (log 1), unsafe. What scalar register `i` holds after reset number `epoch`, until something
writes it: the spec gives no value (R25), so it has no body. -/
opaque Config.unwrittenScalar (epoch : Nat) (i : RegNum) : Scalar

/-- DESIGN CHOICE (log 1), unsafe. The same for integer register `i`. -/
opaque Config.unwrittenInteger (epoch : Nat) (i : RegNum) : Word32

/-- DESIGN CHOICE (log 3), safe. The `k`-th free scalar result, of a command that read an ill-formed pattern
(R19, U3). -/
opaque Config.freeScalar (k : Nat) : Scalar

/-- DESIGN CHOICE (log 3), safe. The `k`-th free integer result, of a command that read an ill-formed pattern
(R19, U3). -/
opaque Config.freeInteger (k : Nat) : Word32

end Sys2Proof
end

