-- ==== Sys2Proof/Machine/State.lean ====
section
/-! DEFINITION. The state of the block (`10_state.md`), the moves of its host (R117) and the state after reset
(R32). -/

namespace Sys2Proof.Machine

/-- The moves of the host (R117). -/
inductive HostMove where
  | writeF (i : RegNum) (v : Scalar)
  | writeN (i : RegNum) (v : Word32)
  | readF (i : RegNum)
  | readN (i : RegNum)
  | readStatus
  | readConfig
  | issue (w : Command)
  | reset
deriving DecidableEq, Repr

/-- What a read move returned to the host (R117). -/
inductive Answer where
  | scalar (i : RegNum) (v : Scalar)
  | integer (i : RegNum) (v : Word32)
  | status (v : Word32)
  | config (v : Word32)
deriving DecidableEq, Repr

/-- Everything the spec gives the block, and what the model adds to run it. -/
structure State where
  /-- `f0` to `f7` (R23). -/
  f : Vector Scalar 8
  /-- `n0` to `n7` (R24). -/
  n : Vector Word32 8
  /-- Which scalar registers something has written since reset (R25, U1). -/
  fWritten : Vector Bool 8
  /-- Which integer registers something has written since reset (R25, U1). -/
  nWritten : Vector Bool 8
  /-- `STATUS` (R27). -/
  status : Word32
  /-- The parameters the block was built with, the ROMs among them (R7 to R11, R30): not state of the spec, no step
  changes them. -/
  cfg : Config
  /-- The model's own: the host's moves still to come (R117, R119; log 6). -/
  host : List HostMove
  /-- The model's own: what the host's reads returned, newest first (R117; log 7). -/
  answers : List Answer
  /-- The model's own: some move of the run read an unwritten register (R119, U1; log 2). -/
  unwrittenRead : Bool
  /-- The model's own: resets so far (log 8). -/
  epoch : Nat
  /-- The model's own: free values used so far (log 16). -/
  freeCount : Nat
deriving DecidableEq, Repr

/-- Why the machine could stop: it never does. No operand, no result and no word stops the block (R106, R107, U2),
and what the spec leaves unspecified (R25, R19) goes on with a free value (logs 1 and 3). -/
inductive Fault where
deriving DecidableEq, Repr

/-- Why a command could have no meaning. -/
inductive Refusal where
  /-- An instruction without a meaning, named by its mnemonic. `exec` would raise it; no arm does. Safe. -/
  | notModelled (mnemonic : String)
deriving DecidableEq, Repr

/-- The outcome of a step of this machine. -/
abbrev Result := Host.Outcome State Fault Refusal

/-- R32: every register unwritten, `STATUS` 0. The registers hold values the spec does not give (log 1), the
configuration is the one the block was built with (log 4) with the arithmetic the spec decides (R13), and no host move
is pending (log 6). -/
def State.reset : State where
  f := Vector.ofFn (Config.unwrittenScalar 0)
  n := Vector.ofFn (Config.unwrittenInteger 0)
  fWritten := Vector.replicate 8 false
  nWritten := Vector.replicate 8 false
  status := 0
  cfg := { Config.built with arith := .nearestEven }
  host := []
  answers := []
  unwrittenRead := false
  epoch := 0
  freeCount := 0

end Sys2Proof.Machine
end

