-- ==== Sys2Proof/Machine/Flags.lean ====
section
/-! DEFINITION. The block's one flag, `STATUS.ILL` (R27), and the hardwired register `CONFIG` (R28). There are no
other flags: no condition codes and no floating-point exception flags. -/

namespace Sys2Proof.Machine

/-- `STATUS` with `ILL` set (R27, R107). -/
def setIll (v : Word32) : Word32 := v ||| 1

/-- `STATUS.ILL` (R27). -/
def State.ill (s : State) : Bool := s.status.getLsbD 0

/-- The `LDL` field of `CONFIG` (R28). -/
def ldlBits : LdLayout → BitVec 3
  | .binary64 => 0
  | .extended80 => 1
  | .quad128 => 2
  | .doubledouble => 3

/-- The `PATH` field of `CONFIG` (R28). -/
def pathBit : DecompPath → BitVec 1
  | .fast => 0
  | .portable => 1

/-- `CONFIG`: `LDL` in bits 2:0, `PUN` in bit 3, `PATH` in bit 4, zeros above (R28). -/
def configWord (c : Config) : Word32 :=
  (0 : BitVec 27) ++ pathBit Config.path ++ BitVec.ofBool Config.pun ++ ldlBits c.ldLayout

end Sys2Proof.Machine
end

