-- ==== Sys2Proof/Machine/Format.lean ====
section
/-! DEFINITION. The floating-point formats and what their patterns mean: R12, R15, R18, R19, R20 and the special
patterns of R21. A pattern of width `W` stands in the low `W` bits of a scalar. -/

namespace Sys2Proof.Machine

/-- The format records of R12. -/
inductive Format where
  | single
  | double
  | extended80
  | quad128
deriving DecidableEq, Repr

/-- Exponent-field width (R12). -/
def Format.E : Format → Nat
  | .single => 8
  | .double => 11
  | .extended80 => 15
  | .quad128 => 15

/-- Number of fraction bits (R12). -/
def Format.Fb : Format → Nat
  | .single => 23
  | .double => 52
  | .extended80 => 63
  | .quad128 => 112

/-- 1 if the format stores an explicit integer bit (R12). -/
def Format.J : Format → Nat
  | .extended80 => 1
  | .single | .double | .quad128 => 0

/-- Total width (R12). -/
def Format.W (F : Format) : Nat := 1 + F.E + F.J + F.Fb

/-- Exponent bias (R12). -/
def Format.bias (F : Format) : Nat := 2 ^ (F.E - 1) - 1

/-- The all-ones exponent field (R12). -/
def Format.emax (F : Format) : Nat := 2 ^ F.E - 1

/-- The format record of a command's `fmt` under a layout; none for L with `doubledouble` (R7, R12). -/
def formatOf (l : LdLayout) : Fmt → Option Format
  | .S => some .single
  | .D => some .double
  | .L =>
    match l with
    | .binary64 => some .double
    | .extended80 => some .extended80
    | .quad128 => some .quad128
    | .doubledouble => none

/-- The low `W` bits, zero-extended: what a command reads of a register and what it writes to one (R16, R23). -/
def Format.low (F : Format) (v : Scalar) : Scalar := (v.setWidth F.W).setWidth 128

/-- `sgn(b) = b[W-1]` (R18). -/
def Format.sgn (F : Format) (b : Scalar) : Bool := b.getLsbD (F.W - 1)

/-- `bexp(b) = uint(b[W-2 : W-1-E])` (R18). -/
def Format.bexp (F : Format) (b : Scalar) : Nat := (b.extractLsb' (F.W - 1 - F.E) F.E).toNat

/-- `frac(b) = uint(b[Fb-1:0])` (R18). -/
def Format.frac (F : Format) (b : Scalar) : Nat := (b.extractLsb' 0 F.Fb).toNat

/-- `jbit(b) = b[Fb]`, of use when `J = 1` (R18). -/
def Format.jbit (F : Format) (b : Scalar) : Bool := b.getLsbD F.Fb

/-- `man(b) = uint(b[Fb+J-1 : 0])` (R18). -/
def Format.man (F : Format) (b : Scalar) : Nat := (b.extractLsb' 0 (F.Fb + F.J)).toNat

/-- `pack(s, be, m) = {s, be as E bits, m as Fb+J bits}` (R18). -/
def Format.pack (F : Format) (s : Bool) (be m : Nat) : Scalar :=
  (BitVec.ofBool s ++ BitVec.ofNat F.E be ++ BitVec.ofNat (F.Fb + F.J) m).setWidth 128

/-- `{s, b[W-2:0]}`: the pattern with its sign bit replaced (R90, R91). -/
def Format.withSign (F : Format) (s : Bool) (b : Scalar) : Scalar :=
  (BitVec.ofBool s ++ b.setWidth (F.W - 1)).setWidth 128

/-- `neg(b)`: the pattern with its sign bit inverted (R22). -/
def Format.neg (F : Format) (b : Scalar) : Scalar := F.withSign (!F.sgn b) b

/-- The classes of patterns (R19). -/
inductive FloatClass where
  | zero
  | subnormal
  | normal
  | infinite
  | nan
deriving DecidableEq, Repr

/-- The class of a pattern (R19). -/
def Format.classOf (F : Format) (b : Scalar) : FloatClass :=
  if F.bexp b = F.emax then
    if F.frac b = 0 then .infinite else .nan
  else if F.bexp b = 0 then
    if F.man b = 0 then .zero else .subnormal
  else .normal

/-- A NaN is quiet when the top bit of its fraction is 1 (R19). No command tells a quiet NaN from another (R106). -/
def Format.isQuiet (F : Format) (b : Scalar) : Bool := F.classOf b == .nan && b.getLsbD (F.Fb - 1)

/-- With an explicit integer bit a pattern is well formed only when that bit is 1 exactly when the exponent field is
not 0; every pattern of the other formats is well formed (R19). -/
def Format.wellFormed (F : Format) (b : Scalar) : Bool :=
  F.J == 0 || (F.jbit b == (F.bexp b != 0))

/-- The integer significand (R19). -/
def Format.sig (F : Format) (b : Scalar) : Nat :=
  if F.J = 1 then F.man b
  else if F.bexp b = 0 then F.frac b
  else 2 ^ F.Fb + F.frac b

/-- The exponent of the significand's unit: `1 - BIAS - Fb` or `bexp(b) - BIAS - Fb` (R20). -/
def Format.unitExp (F : Format) (b : Scalar) : Int :=
  (if F.bexp b = 0 then 1 else (F.bexp b : Int)) - F.bias - F.Fb

/-- What `val` gives (R20). -/
inductive Value where
  | finite (q : Rat)
  | infinite (negative : Bool)
  | nan
deriving DecidableEq, Repr

/-- `val(b)` of a finite pattern, exactly (R20). -/
def Format.finiteVal (F : Format) (b : Scalar) : Rat :=
  (if F.sgn b then -1 else 1) * (F.sig b : Rat) * (2 : Rat) ^ F.unitExp b

/-- `val(b)` (R20). -/
def Format.val (F : Format) (b : Scalar) : Value :=
  match F.classOf b with
  | .nan => .nan
  | .infinite => .infinite (F.sgn b)
  | .zero | .subnormal | .normal => .finite (F.finiteVal b)

/-- The mantissa field of a significand with its leading one at bit `Fb` and fraction `fr`: with an explicit integer
bit the leading one is stored (R12, R21). -/
def Format.leadingOne (F : Format) (fr : Nat) : Nat := F.J * 2 ^ F.Fb + fr

/-- The canonical quiet NaN, `QNAN` (R21, D14). -/
def Format.qnan (F : Format) : Scalar := F.pack false F.emax (F.leadingOne (2 ^ (F.Fb - 1)))

/-- The infinity of a sign (R19, R21). -/
def Format.inf (F : Format) (s : Bool) : Scalar := F.pack s F.emax (F.leadingOne 0)

/-- The zero of a sign (R19). -/
def Format.zero (F : Format) (s : Bool) : Scalar := F.pack s 0 0

/-- The exact pattern of 1.0 (`44_recombine.md`). -/
def Format.one (F : Format) : Scalar := F.pack false F.bias (F.leadingOne 0)

/-- The exact pattern of 2.0 (`44_recombine.md`). -/
def Format.two (F : Format) : Scalar := F.pack false (F.bias + 1) (F.leadingOne 0)

/-- The exact pattern of 3.0 (`44_recombine.md`). -/
def Format.three (F : Format) : Scalar := F.pack false (F.bias + 1) (F.leadingOne (2 ^ (F.Fb - 1)))

end Sys2Proof.Machine
end

