-- ==== Sys2Proof/Machine/Operands.lean ====
section
/-! DEFINITION. Operands: registers read at a format (R16, R23), the three read-only spaces (R33 to R35), and the
masked index with its break-point (R76). -/

namespace Sys2Proof

open Machine

/-- `idx(v) = uint(v[L-1:0])`: the low `L` bits, so within the table whatever the register holds (R76). -/
def Table.idx (t : Table) (v : Word32) : Fin (2 ^ t.bits.val) :=
  ⟨v.toNat % 2 ^ t.bits.val, Nat.mod_lt _ (Nat.two_pow_pos _)⟩

/-- `TableRead(tbl, k)`: the `W`-bit entry (R34). -/
def Table.read (t : Table) (F : Format) (k : Fin (2 ^ t.bits.val)) : Scalar := F.low t.entries[k.val]

/-- The coefficients `c0, ..., cn`, constant term first (R10). -/
def Poly.toList (p : Poly) : List Scalar := p.c0 :: p.higher

/-- A polynomial's coefficients at a format: `W`-bit patterns (R10, R35). -/
def Poly.atFormat (p : Poly) (F : Format) : Poly := ⟨F.low p.c0, p.higher.map F.low⟩

namespace Machine

/-- `f[i]` (R16). -/
def State.fReg (s : State) (i : RegNum) : Scalar := s.f[i.val]

/-- `n[i]` (R16). -/
def State.nReg (s : State) (i : RegNum) : Word32 := s.n[i.val]

/-- `fr(i) = f[i][W-1:0]` (R16). -/
def State.fr (s : State) (F : Format) (i : RegNum) : Scalar := F.low (s.fReg i)

/-- The member of a per-format parameter a command of format `p` uses; DEDUCED (log 5), unsafe: with `binary64`, L
behaves "in every rule exactly as" D (R7). -/
def memberAt {α : Type} (l : LdLayout) (p : Fmt) (x : PerFmt α) : α :=
  match p with
  | .S => x.S
  | .D => x.D
  | .L => if l = .binary64 then x.D else x.L

/-- `TABLES(tbl, fmt)`, where it is defined (R9, R34). -/
def tableAt (c : Config) (p : Fmt) (tbl : RomId) : Option Table :=
  match c.tables.find? (·.id == tbl) with
  | none => none
  | some rom => (memberAt c.ldLayout p rom.entries).map fun v => ⟨rom.bits, v⟩

/-- `CoeffRead(cset)`: the whole set, where it is defined (R10, R35). -/
def coeffsAt (c : Config) (p : Fmt) (cset : RomId) : Option CoeffSet :=
  match c.coeffs.find? (·.id == cset) with
  | none => none
  | some rom => memberAt c.ldLayout p rom.sets

/-- The break-point pattern `tk(k)` of a table with `L` index bits, whose value is `1 + k/2^L` (R76). -/
def Format.breakPoint (F : Format) (L k : Nat) : Scalar :=
  F.pack false F.bias (F.leadingOne (k <<< (F.Fb - L)))

/-- `K_LN2(fmt)` (R11). -/
def kLn2 (c : Config) (F : Format) (p : Fmt) : Scalar := F.low (memberAt c.ldLayout p c.kLn2)

/-- `K_CBRT2(fmt, r)` for `r` in 0, 1, 2; for `r = 0` exactly 1.0 (R11). -/
def kCbrt2 (c : Config) (F : Format) (p : Fmt) (r : Int) : Scalar :=
  if r = 0 then F.one
  else if r = 1 then F.low (memberAt c.ldLayout p c.kCbrt2One)
  else F.low (memberAt c.ldLayout p c.kCbrt2Two)

end Machine

end Sys2Proof
end

