-- ==== Sys2Proof/Machine/Ops.lean ====
section
/-! DEFINITION. The named operations on the state: register writes (R16), the illegal command (R107), reset (R115),
the legality checks (R54) and the execution template (R56). -/

namespace Sys2Proof.Machine

/-- `f[i] <- v` (R16, R117). -/
def State.writeF (s : State) (i : RegNum) (v : Scalar) : State :=
  { s with f := s.f.set i.val v, fWritten := s.fWritten.set i.val true }

/-- `n[i] <- v` (R16, R117). -/
def State.writeN (s : State) (i : RegNum) (v : Word32) : State :=
  { s with n := s.n.set i.val v, nWritten := s.nWritten.set i.val true }

/-- All of some registers have been written since reset (R25). -/
def State.allWritten (s : State) (fs ns : List RegNum) : Bool :=
  fs.all (fun i => s.fWritten[i.val]) && ns.all (fun i => s.nWritten[i.val])

/-- Reading registers leaves them as they are; that one was unwritten is recorded, since the run has then gone wrong
(R25, R119; log 2). -/
def State.noteReads (s : State) (fs ns : List RegNum) : State :=
  { s with unwrittenRead := s.unwrittenRead || !s.allWritten fs ns }

/-- `raise Illegal`: sets `STATUS.ILL`, changes nothing else, transfers control nowhere (R107). There is no return
from it (R111). -/
def State.raiseIllegal (s : State) : State := { s with status := setIll s.status }

/-- One more free value has been used (log 16). -/
def State.useFree (s : State) : State := { s with freeCount := s.freeCount + 1 }

/-- Reset, as the host's move: the block is as R32 says, and ROMs and parameters are as they were (R36, R115). The
host's own moves and answers are not the block's, and a reset is one move of a run: a read of an unwritten register
before it stays on the run's record (R119; log 8). -/
def State.resetBlock (s : State) : State :=
  { s with
    f := Vector.ofFn (Config.unwrittenScalar (s.epoch + 1))
    n := Vector.ofFn (Config.unwrittenInteger (s.epoch + 1))
    fWritten := Vector.replicate 8 false
    nWritten := Vector.replicate 8 false
    status := 0
    epoch := s.epoch + 1 }

/-- R54 check 3, then the command at its format record. -/
def State.withFormat (s : State) (p : Fmt) (k : Format → State) : State :=
  match formatOf s.cfg.ldLayout p with
  | some F => k F
  | none => s.raiseIllegal

/-- R54 checks 3 and 5, then the command with its table. -/
def State.withTable (s : State) (p : Fmt) (tbl : RomId) (k : Format → Table → State) : State :=
  s.withFormat p fun F =>
    match tableAt s.cfg p tbl with
    | some t => k F t
    | none => s.raiseIllegal

/-- R54 checks 3 and 6, then the command with its polynomial. -/
def State.withPoly (s : State) (p : Fmt) (cset : RomId) (k : Format → Poly → State) : State :=
  s.withFormat p fun F =>
    match coeffsAt s.cfg p cset with
    | some (.poly c) => k F (c.atFormat F)
    | some (.rational _ _) | none => s.raiseIllegal

/-- R54 checks 3 and 6, then the command with its numerator and denominator. -/
def State.withRational (s : State) (p : Fmt) (cset : RomId) (k : Format → Poly → Poly → State) : State :=
  s.withFormat p fun F =>
    match coeffsAt s.cfg p cset with
    | some (.rational c d) => k F (c.atFormat F) (d.atFormat F)
    | some (.poly _) | none => s.raiseIllegal

/-- The floating-point patterns a command reads are all well formed: its scalar sources and the ROM patterns it
computes with (R19, U3). -/
def State.operandsOk (s : State) (F : Format) (fs : List RegNum) (rom : List Scalar) : Bool :=
  (fs.map (s.fr F) ++ rom).all F.wellFormed

/-- Write an integer result. DESIGN CHOICE (log 3), safe: after an ill-formed operand the result is a free value. -/
def State.putN (s : State) (ok : Bool) (r : RegNum) (v : Word32) : State :=
  if ok then s.writeN r v else (s.writeN r (Config.freeInteger s.freeCount)).useFree

/-- `fw(r, v)`: write a `W`-bit scalar result, zeros above (R16, R23). DESIGN CHOICE (log 3), safe: after an
ill-formed operand the result is a free value. -/
def State.putF (s : State) (F : Format) (ok : Bool) (r : RegNum) (v : Scalar) : State :=
  if ok then s.writeF r (F.low v) else (s.writeF r (F.low (Config.freeScalar s.freeCount))).useFree

/-- The execution template after legality, for an integer result: null check, read, write (R56). `fs` and `ns` are
the source registers, `rom` the ROM patterns the command computes with, `v` the result. -/
def State.finishN (s : State) (F : Format) (d : Dst) (fs ns : List RegNum) (rom : List Scalar) (v : Word32) : State :=
  match d with
  | .null => s
  | .reg r => (s.noteReads fs ns).putN (s.operandsOk F fs rom) r v

/-- The execution template after legality, for a scalar result (R56). -/
def State.finishF (s : State) (F : Format) (d : Dst) (fs ns : List RegNum) (rom : List Scalar) (v : Scalar) : State :=
  match d with
  | .null => s
  | .reg r => (s.noteReads fs ns).putF F (s.operandsOk F fs rom) r v

/-- The execution template after legality, for a scalar and an integer result, `DECOMP`'s (R56, R63): with either
destination `NULL` nothing changes. -/
def State.finishFN (s : State) (F : Format) (d e : Dst) (fs ns : List RegNum) (v : Scalar) (w : Word32) : State :=
  match d, e with
  | .reg r, .reg q => ((s.noteReads fs ns).putF F (s.operandsOk F fs []) r v).putN (s.operandsOk F fs []) q w
  | .null, _ => s
  | .reg _, .null => s

end Sys2Proof.Machine
end

