-- ==== Sys2Proof/Machine/Classify.lean ====
section
/-! DEFINITION. The classification predicates: ISNAN, ISINF, ISNANINF, ISSUBZ (`41_classify.md`). -/

namespace Sys2Proof.Machine

/-- R68. -/
def Format.isNan (F : Format) (x : Scalar) : Bool := F.bexp x == F.emax && F.frac x != 0

/-- R69. -/
def Format.isInf (F : Format) (x : Scalar) : Bool := F.bexp x == F.emax && F.frac x == 0

/-- R70. -/
def Format.isNanOrInf (F : Format) (x : Scalar) : Bool := F.bexp x == F.emax

/-- R71. -/
def Format.isSubnormalOrZero (F : Format) (x : Scalar) : Bool := F.bexp x == 0

/-- A predicate's result: 1 for true, 0 for false (`41_classify.md`, D12). -/
def truth (b : Bool) : Word32 := if b then 1 else 0

/-- `ISNAN.fmt nd, fs` (R68). -/
def execIsnan (p : Fmt) (nd : Dst) (fs : RegNum) (s : State) : Result :=
  .next (s.withFormat p fun F => s.finishN F nd [fs] [] [] (truth (F.isNan (s.fr F fs))))

/-- `ISINF.fmt nd, fs` (R69). -/
def execIsinf (p : Fmt) (nd : Dst) (fs : RegNum) (s : State) : Result :=
  .next (s.withFormat p fun F => s.finishN F nd [fs] [] [] (truth (F.isInf (s.fr F fs))))

/-- `ISNANINF.fmt nd, fs` (R70). -/
def execIsnaninf (p : Fmt) (nd : Dst) (fs : RegNum) (s : State) : Result :=
  .next (s.withFormat p fun F => s.finishN F nd [fs] [] [] (truth (F.isNanOrInf (s.fr F fs))))

/-- `ISSUBZ.fmt nd, fs` (R71). -/
def execIssubz (p : Fmt) (nd : Dst) (fs : RegNum) (s : State) : Result :=
  .next (s.withFormat p fun F => s.finishN F nd [fs] [] [] (truth (F.isSubnormalOrZero (s.fr F fs))))

end Sys2Proof.Machine
end

