-- ==== Sys2Proof/Machine/Decompose.lean ====
section
/-! DEFINITION. The bit-decomposer: XSIGN, XEXP, XMAN, DECOMP (`40_decompose.md`). -/

namespace Sys2Proof.Machine

/-- `XSIGN.fmt nd, fs`: the sign bit, 0 or 1 (R59). -/
def execXsign (p : Fmt) (nd : Dst) (fs : RegNum) (s : State) : Result :=
  .next (s.withFormat p fun F =>
    s.finishN F nd [fs] [] [] (BitVec.ofNat 32 (F.sgn (s.fr F fs)).toNat))

/-- `XEXP.fmt nd, fs`: the biased exponent field as stored (R60). -/
def execXexp (p : Fmt) (nd : Dst) (fs : RegNum) (s : State) : Result :=
  .next (s.withFormat p fun F =>
    s.finishN F nd [fs] [] [] (BitVec.ofNat 32 (F.bexp (s.fr F fs))))

/-- `XMAN.fmt fd, fs`: the stored mantissa field as an unsigned integer (R61). -/
def execXman (p : Fmt) (fd : Dst) (fs : RegNum) (s : State) : Result :=
  .next (s.withFormat p fun F =>
    s.finishF F fd [fs] [] [] (BitVec.ofNat 128 (F.man (s.fr F fs))))

/-- The mantissa and the exponent of `DECOMP`, by the four branches of R62. -/
def Format.decompose (F : Format) (x : Scalar) : Scalar × Int :=
  match F.classOf x with
  | .nan | .infinite | .zero => (x, 0)
  | .subnormal =>
    let sh := F.Fb - (F.man x).log2
    (F.pack false F.bias (F.man x <<< sh), 1 - F.bias - sh)
  | .normal => (F.pack false F.bias (F.man x), F.bexp x - F.bias)

/-- `DECOMP.fmt fd, nd, fs`: the mantissa/exponent pair (R62, R63). -/
def execDecomp (p : Fmt) (fd nd : Dst) (fs : RegNum) (s : State) : Result :=
  .next (s.withFormat p fun F =>
    let r := F.decompose (s.fr F fs)
    s.finishFN F fd nd [fs] [] r.1 (BitVec.ofInt 32 r.2))

end Sys2Proof.Machine
end

