-- ==== Sys2Proof/Machine/Arith.lean ====
section
/-! DEFINITION. The arithmetic of the datapath, parameter `ARITH` (R13): rounding (R21) and the six functions of
R22. Each forms one exact result and rounds it once, to nearest, ties to even. -/

namespace Sys2Proof

namespace Machine

/-- The integer nearest to `n / d`, the even one when `n / d` is halfway between two (R21); `0 < d`. -/
def nearestEven (n d : Nat) : Nat :=
  let k := n / d
  let r := n % d
  if 2 * r < d then k
  else if d < 2 * r then k + 1
  else if k % 2 = 0 then k else k + 1

/-- `floor(log2 (n / d))` for `0 < n` and `0 < d` (R21). -/
def floorLog2 (n d : Nat) : Int :=
  let g : Int := n.log2 - d.log2
  if d <<< g.toNat ≤ n <<< (-g).toNat then g else g - 1

/-- The pattern of sign `s` and value `k * 2^(e - Fb)`, where `k ≤ 2^(Fb+1)`, and `2^Fb ≤ k` unless `e = 1 - BIAS`:
zero, subnormal, normal, or the infinity when the value reaches `2^(BIAS+1)` (R21). -/
def Format.ofUnits (F : Format) (s : Bool) (k : Nat) (e : Int) : Scalar :=
  if k < 2 ^ F.Fb then F.pack s 0 k
  else
    let carried : Bool := k == 2 ^ (F.Fb + 1)
    let e' := if carried then e + 1 else e
    if (F.bias : Int) < e' then F.inf s
    else F.pack s (e' + F.bias).toNat (F.leadingOne (if carried then 0 else k - 2 ^ F.Fb))

/-- `rnd(r)` for `r` of sign `s` and magnitude `n / d * 2^x`, `0 < n`, `0 < d` (R21). -/
def Format.rnd (F : Format) (s : Bool) (n d : Nat) (x : Int) : Scalar :=
  let e := max (floorLog2 n d + x) (1 - F.bias)
  let t := x - (e - F.Fb)
  F.ofUnits s (nearestEven (n <<< t.toNat) (d <<< (-t).toNat)) e

/-- A magnitude with a sign, as an integer. -/
def signedInt (s : Bool) (m : Nat) : Int := if s then -(m : Int) else m

/-- The sum of two finite patterns: rounded, or the zero that R22 names when it is 0. -/
def Format.addFinite (F : Format) (a b : Scalar) : Scalar :=
  let ea := F.unitExp a
  let eb := F.unitExp b
  let e := min ea eb
  let r := signedInt (F.sgn a) (F.sig a <<< (ea - e).toNat) + signedInt (F.sgn b) (F.sig b <<< (eb - e).toNat)
  if r = 0 then F.zero (F.sgn a && F.sgn b) else F.rnd (decide (r < 0)) r.natAbs 1 e

/-- `fadd(a, b)` (R22). -/
def Format.fadd (F : Format) (a b : Scalar) : Scalar :=
  match F.classOf a, F.classOf b with
  | .nan, _ => F.qnan
  | _, .nan => F.qnan
  | .infinite, .infinite => if F.sgn a = F.sgn b then F.inf (F.sgn a) else F.qnan
  | .infinite, _ => F.inf (F.sgn a)
  | _, .infinite => F.inf (F.sgn b)
  | _, _ => F.addFinite a b

/-- `fsub(a, b) = fadd(a, neg(b))` (R22). -/
def Format.fsub (F : Format) (a b : Scalar) : Scalar := F.fadd a (F.neg b)

/-- `fmul(a, b)` (R22). -/
def Format.fmul (F : Format) (a b : Scalar) : Scalar :=
  let s := F.sgn a ^^ F.sgn b
  match F.classOf a, F.classOf b with
  | .nan, _ => F.qnan
  | _, .nan => F.qnan
  | .infinite, .zero => F.qnan
  | .zero, .infinite => F.qnan
  | .infinite, _ => F.inf s
  | _, .infinite => F.inf s
  | .zero, _ => F.zero s
  | _, .zero => F.zero s
  | _, _ => F.rnd s (F.sig a * F.sig b) 1 (F.unitExp a + F.unitExp b)

/-- `fdiv(a, b)` (R22). -/
def Format.fdiv (F : Format) (a b : Scalar) : Scalar :=
  let s := F.sgn a ^^ F.sgn b
  match F.classOf a, F.classOf b with
  | .nan, _ => F.qnan
  | _, .nan => F.qnan
  | .zero, .zero => F.qnan
  | .infinite, .infinite => F.qnan
  | .infinite, _ => F.inf s
  | _, .zero => F.inf s
  | .zero, _ => F.zero s
  | _, .infinite => F.zero s
  | _, _ => F.rnd s (F.sig a) (F.sig b) (F.unitExp a - F.unitExp b)

/-- `i2f(i)` (R22). -/
def Format.i2f (F : Format) (i : Word32) : Scalar :=
  if i.toInt = 0 then F.zero false else F.rnd (decide (i.toInt < 0)) i.toInt.natAbs 1 0

/-- The interval outside which `fscale` gives an infinity or a zero whatever its operand (R22). -/
def Format.clampScale (F : Format) (q : Int) : Int :=
  max (-(2 * F.bias + F.Fb + 1)) (min q (2 * F.bias + F.Fb))

/-- `fscale(a, q)`, with `q` clamped first, as R22 allows. -/
def Format.fscale (F : Format) (a : Scalar) (q : Int) : Scalar :=
  match F.classOf a with
  | .nan => F.qnan
  | .zero | .infinite => a
  | .subnormal | .normal => F.rnd (F.sgn a) (F.sig a) 1 (F.unitExp a + F.clampScale q)

/-- The parameter `ARITH`: the functions a command computes with (R13). A statement that needs one property of the
arithmetic can be made of any such record. -/
structure Arith where
  fadd : Scalar → Scalar → Scalar
  fsub : Scalar → Scalar → Scalar
  fmul : Scalar → Scalar → Scalar
  fdiv : Scalar → Scalar → Scalar
  i2f : Word32 → Scalar
  fscale : Scalar → Int → Scalar
deriving Inhabited

/-- `ARITH` at its decided value, at a format (R13, D13). -/
def Format.arith (F : Format) : Arith where
  fadd := F.fadd
  fsub := F.fsub
  fmul := F.fmul
  fdiv := F.fdiv
  i2f := F.i2f
  fscale := F.fscale

end Machine

open Machine

/-- DESIGN CHOICE (log 20), safe. The functions of an arithmetic other than the decided one, of which nothing is
known: no body. -/
opaque Config.otherArith (k : Nat) (F : Format) : Arith

/-- The arithmetic the configuration names, at a format (R13). -/
def Config.arithAt (c : Config) (F : Format) : Arith :=
  match c.arith with
  | .nearestEven => F.arith
  | .other k => Config.otherArith k F

end Sys2Proof
end

