-- ==== Sys2Proof/Machine/Evaluate.lean ====
section
/-! DEFINITION. The Horner evaluator: HORNER, HORNERSQ, RATIONAL (`43_evaluators.md`). -/

namespace Sys2Proof.Machine

/-- `c + z*(c' + z*(...))`, from the innermost bracket outward, two roundings a step (R81). -/
def Arith.hornerFrom (A : Arith) (z : Scalar) : Scalar → List Scalar → Scalar
  | c, [] => c
  | c, c' :: rest => A.fadd c (A.fmul z (A.hornerFrom z c' rest))

/-- `Horner(c, z)` (R81). -/
def Arith.horner (A : Arith) (c : Poly) (z : Scalar) : Scalar := A.hornerFrom z c.c0 c.higher

/-- `HORNER.fmt fd, fz, c<cset>`: a polynomial at `z` (R82). -/
def execHorner (p : Fmt) (fd : Dst) (fz : RegNum) (cset : RomId) (s : State) : Result :=
  .next (s.withPoly p cset fun F c =>
    s.finishF F fd [fz] [] c.toList ((s.cfg.arithAt F).horner c (s.fr F fz)))

/-- `HORNERSQ.fmt fd, fa, c<cset>`: a polynomial at the square of the argument (R83). -/
def execHornersq (p : Fmt) (fd : Dst) (fa : RegNum) (cset : RomId) (s : State) : Result :=
  .next (s.withPoly p cset fun F c =>
    let A := s.cfg.arithAt F
    let a := s.fr F fa
    s.finishF F fd [fa] [] c.toList (A.horner c (A.fmul a a)))

/-- `RATIONAL.fmt fd, fz, c<cset>`: numerator over denominator (R84). -/
def execRational (p : Fmt) (fd : Dst) (fz : RegNum) (cset : RomId) (s : State) : Result :=
  .next (s.withRational p cset fun F c d =>
    let A := s.cfg.arithAt F
    let z := s.fr F fz
    s.finishF F fd [fz] [] (c.toList ++ d.toList) (A.fdiv (A.horner c z) (A.horner d z)))

end Sys2Proof.Machine
end

