-- ==== Sys2Proof/Machine/Recombine.lean ====
section
/-! DEFINITION. The recombiner: RECADD, RECMUL, NEWTON3, SGNCPY, SGNCLR, RECOMP (`44_recombine.md`). -/

namespace Sys2Proof.Machine

/-- `exponent * ln2 + poly + table`, left to right (R87). -/
def Arith.recAdd (A : Arith) (ln2 : Scalar) (e : Word32) (p t : Scalar) : Scalar :=
  A.fadd (A.fadd (A.fmul (A.i2f e) ln2) p) t

/-- `RECADD.fmt fd, ne, fp, ft` (R87). -/
def execRecadd (p : Fmt) (fd : Dst) (ne fp ft : RegNum) (s : State) : Result :=
  .next (s.withFormat p fun F =>
    let ln2 := kLn2 s.cfg F p
    s.finishF F fd [fp, ft] [ne] [ln2] ((s.cfg.arithAt F).recAdd ln2 (s.nReg ne) (s.fr F fp) (s.fr F ft)))

/-- `q = floor(e / 3)` (R88). -/
def thirdQuot (e : Int) : Int := Int.fdiv e 3

/-- `r = e - 3*q`, in 0, 1, 2 also for negative `e` (R88). -/
def thirdRem (e : Int) : Int := e - 3 * thirdQuot e

/-- `2^(e/3) * table * poly`, with `cbrt2` the constant `2^(r/3)` (R88). -/
def Arith.recMul (A : Arith) (cbrt2 : Scalar) (e : Int) (p t : Scalar) : Scalar :=
  A.fscale (A.fmul (A.fmul cbrt2 t) p) (thirdQuot e)

/-- `RECMUL.fmt fd, ne, fp, ft` (R88). -/
def execRecmul (p : Fmt) (fd : Dst) (ne fp ft : RegNum) (s : State) : Result :=
  .next (s.withFormat p fun F =>
    let e := (s.nReg ne).toInt
    let k := kCbrt2 s.cfg F p (thirdRem e)
    s.finishF F fd [fp, ft] [ne] [k] ((s.cfg.arithAt F).recMul k e (s.fr F fp) (s.fr F ft)))

/-- `(2*y + x/y^2)/3`, four rounded operations (R89). -/
def Arith.newton3 (A : Arith) (two three y x : Scalar) : Scalar :=
  A.fdiv (A.fadd (A.fmul two y) (A.fdiv x (A.fmul y y))) three

/-- `NEWTON3.fmt fd, fy, fx` (R89). -/
def execNewton3 (p : Fmt) (fd : Dst) (fy fx : RegNum) (s : State) : Result :=
  .next (s.withFormat p fun F =>
    s.finishF F fd [fy, fx] [] [] ((s.cfg.arithAt F).newton3 F.two F.three (s.fr F fy) (s.fr F fx)))

/-- `SGNCPY.fmt fd, fr, fx`: the first with its sign bit replaced by the second's (R90). -/
def execSgncpy (p : Fmt) (fd : Dst) (fr fx : RegNum) (s : State) : Result :=
  .next (s.withFormat p fun F =>
    s.finishF F fd [fr, fx] [] [] (F.withSign (F.sgn (s.fr F fx)) (s.fr F fr)))

/-- `SGNCLR.fmt fd, fs`: the sign bit cleared (R91). -/
def execSgnclr (p : Fmt) (fd : Dst) (fs : RegNum) (s : State) : Result :=
  .next (s.withFormat p fun F => s.finishF F fd [fs] [] [] (F.withSign false (s.fr F fs)))

/-- `RECOMP.fmt fd, fm, ne`: `mantissa * 2^exponent` (R92). -/
def execRecomp (p : Fmt) (fd : Dst) (fm ne : RegNum) (s : State) : Result :=
  .next (s.withFormat p fun F =>
    s.finishF F fd [fm] [ne] [] ((s.cfg.arithAt F).fscale (s.fr F fm) (s.nReg ne).toInt))

end Sys2Proof.Machine
end

