-- ==== Sys2Proof/Machine/TableIndex.lean ====
section
/-! DEFINITION. The table indexer: TINDEX, TLOAD, RESDIV, RESSUB, RESMUL (`42_table_index.md`). -/

namespace Sys2Proof.Machine

/-- The top `L` bits of the fraction (R74). -/
def Format.topBits (F : Format) (L : Nat) (x : Scalar) : Nat := F.frac x >>> (F.Fb - L)

/-- `TINDEX.fmt nd, fs, t<tbl>`: the table index from the leading fraction bits (R74). -/
def execTindex (p : Fmt) (nd : Dst) (fs : RegNum) (tbl : RomId) (s : State) : Result :=
  .next (s.withTable p tbl fun F t =>
    s.finishN F nd [fs] [] [] (BitVec.ofNat 32 (F.topBits t.bits.val (s.fr F fs))))

/-- `TLOAD.fmt fd, ns, t<tbl>`: the table entry for an index, copied bit for bit (R77). -/
def execTload (p : Fmt) (fd : Dst) (ns : RegNum) (tbl : RomId) (s : State) : Result :=
  .next (s.withTable p tbl fun F t =>
    s.finishF F fd [] [ns] [] (t.read F (t.idx (s.nReg ns))))

/-- `RESDIV.fmt fd, fm, nk, t<tbl>`: `m / t_k`, of the table only `L` (R78). -/
def execResdiv (p : Fmt) (fd : Dst) (fm nk : RegNum) (tbl : RomId) (s : State) : Result :=
  .next (s.withTable p tbl fun F t =>
    let k := t.idx (s.nReg nk)
    s.finishF F fd [fm] [nk] [] ((s.cfg.arithAt F).fdiv (s.fr F fm) (F.breakPoint t.bits.val k.val)))

/-- `RESSUB.fmt fd, fm, nk, t<tbl>`: `m - t_k`, of the table only `L` (R79). -/
def execRessub (p : Fmt) (fd : Dst) (fm nk : RegNum) (tbl : RomId) (s : State) : Result :=
  .next (s.withTable p tbl fun F t =>
    let k := t.idx (s.nReg nk)
    s.finishF F fd [fm] [nk] [] ((s.cfg.arithAt F).fsub (s.fr F fm) (F.breakPoint t.bits.val k.val)))

/-- `RESMUL.fmt fd, fm, nk, t<tbl>`: `m * table[k]` (R80). -/
def execResmul (p : Fmt) (fd : Dst) (fm nk : RegNum) (tbl : RomId) (s : State) : Result :=
  .next (s.withTable p tbl fun F t =>
    let entry := t.read F (t.idx (s.nReg nk))
    s.finishF F fd [fm] [nk] [entry] ((s.cfg.arithAt F).fmul (s.fr F fm) entry))

end Sys2Proof.Machine
end

