-- ==== Sys2Proof/Machine/Dispatch.lean ====
section
/-! DEFINITION. The dispatch: one arm per command, each one call of its meaning. -/

namespace Sys2Proof.Machine

/-- The meaning of a command whose bits are legal (R56). -/
def exec (i : Instr) (s : State) : Host.Outcome State Fault Refusal :=
  match i with
  | .xsign p d a => Sys2Proof.Machine.execXsign p d a s
  | .xexp p d a => Sys2Proof.Machine.execXexp p d a s
  | .xman p d a => Sys2Proof.Machine.execXman p d a s
  | .decomp p d e a => Sys2Proof.Machine.execDecomp p d e a s
  | .isnan p d a => Sys2Proof.Machine.execIsnan p d a s
  | .isinf p d a => Sys2Proof.Machine.execIsinf p d a s
  | .isnaninf p d a => Sys2Proof.Machine.execIsnaninf p d a s
  | .issubz p d a => Sys2Proof.Machine.execIssubz p d a s
  | .tindex p d a t => Sys2Proof.Machine.execTindex p d a t s
  | .tload p d a t => Sys2Proof.Machine.execTload p d a t s
  | .resdiv p d a b t => Sys2Proof.Machine.execResdiv p d a b t s
  | .ressub p d a b t => Sys2Proof.Machine.execRessub p d a b t s
  | .resmul p d a b t => Sys2Proof.Machine.execResmul p d a b t s
  | .horner p d a k => Sys2Proof.Machine.execHorner p d a k s
  | .hornersq p d a k => Sys2Proof.Machine.execHornersq p d a k s
  | .rational p d a k => Sys2Proof.Machine.execRational p d a k s
  | .recadd p d a b c => Sys2Proof.Machine.execRecadd p d a b c s
  | .recmul p d a b c => Sys2Proof.Machine.execRecmul p d a b c s
  | .newton3 p d a b => Sys2Proof.Machine.execNewton3 p d a b s
  | .sgncpy p d a b => Sys2Proof.Machine.execSgncpy p d a b s
  | .sgnclr p d a => Sys2Proof.Machine.execSgnclr p d a s
  | .recomp p d a b => Sys2Proof.Machine.execRecomp p d a b s

end Sys2Proof.Machine
end

