-- ==== Sys2Proof/Machine/Environment.lean ====
section
/-! DEFINITION. The host's moves (R117): the environment of the block. -/

namespace Sys2Proof.Machine

/-- A host read returns its answer to the host (R117; log 7). -/
def State.answer (s : State) (a : Answer) : State := { s with answers := a :: s.answers }

/-- `Issue(w)`: the word runs as one command; a word whose bits are illegal raises `Illegal` (R56, R107, R117). -/
def issue (w : Command) (s : State) : Result :=
  match decode w with
  | .ok i => exec i s
  | .error _ => .next s.raiseIllegal

/-- The effect of one move of the host, taken between commands (R117, R118). -/
def hostMove (m : HostMove) (s : State) : Result :=
  match m with
  | .writeF i v => .next (s.writeF i v)
  | .writeN i v => .next (s.writeN i v)
  | .readF i => .next ((s.noteReads [i] []).answer (.scalar i (s.fReg i)))
  | .readN i => .next ((s.noteReads [] [i]).answer (.integer i (s.nReg i)))
  | .readStatus => .next (s.answer (.status s.status))
  | .readConfig => .next (s.answer (.config (configWord s.cfg)))
  | .issue w => issue w s
  | .reset => .next s.resetBlock

/-- What follows a step that has a next state. -/
def andThen {σ : Type} (r : Result) (k : State → Host.Outcome σ Fault Refusal) : Host.Outcome σ Fault Refusal :=
  match r with
  | .next t => k t
  | .fault e => .fault e
  | .refused e => .refused e

/-- A run: a finite list of moves, taken in order; it ends when the list ends (R41, R119). -/
def runMoves : List HostMove → State → Result
  | [], s => .next s
  | m :: ms, s => andThen (hostMove m s) fun t => runMoves ms t

end Sys2Proof.Machine
end

