-- ==== Sys2Proof/Machine/Assembler.lean ====
section
/-! DEFINITION. The function assembler: the host's programs of `45_assembler_sequence.md`, whole calls with the host's
decisions (log 15). The block runs none of this by itself. -/

namespace Sys2Proof.Machine

/-- A program of the host: moves in order, with every decision taken on a value read back (R95, R117). Which move comes
next is the host's to choose, so it is a function of what was read. -/
inductive HostProgram where
  | ret (v : Scalar)
  | move (m : HostMove) (next : HostProgram)
  | readF (i : RegNum) (next : Scalar → HostProgram)
  | readN (i : RegNum) (next : Word32 → HostProgram)

/-- The program run on the block: the state it leaves and the value it returns (R94, R117). -/
def HostProgram.run : HostProgram → State → Host.Outcome (State × Scalar) Fault Refusal
  | .ret v, s => .next (s, v)
  | .move m k, s => andThen (hostMove m s) fun t => k.run t
  | .readF i k, s => andThen (hostMove (.readF i) s) fun t => (k (s.fReg i)).run t
  | .readN i k, s => andThen (hostMove (.readN i) s) fun t => (k (s.nReg i)).run t

/-- Commands issued in order, and then the rest of a program (R94, R117). -/
def HostProgram.commands (is : List Instr) (k : HostProgram) : HostProgram :=
  is.foldr (fun i p => .move (.issue (encode i)) p) k

/-- A test command, and the integer it wrote read back (R95, R96). -/
def HostProgram.test (i : Instr) (r : RegNum) (k : Word32 → HostProgram) : HostProgram :=
  .move (.issue (encode i)) (.readN r k)

/-- The result of a call stands in `f5`; the host reads it (R94). -/
def HostProgram.result : HostProgram := .readF 5 .ret

/-- A special result: the host writes it into the result register, since no command produces a constant (R96). -/
def HostProgram.special (v : Scalar) : HostProgram := .move (.writeF 5 v) .result

/-- A call: the host writes the argument into `f0`, and every stage starts from there (R94). -/
def HostProgram.call (x : Scalar) (stages : HostProgram) : HostProgram := .move (.writeF 0 x) stages

/-- The two ways to tell a zero from a subnormal: the mantissa field, or what DECOMP returns (R71, R96). -/
inductive ZeroTest where
  | xman
  | decomp
deriving DecidableEq, Repr

/-- Is the argument in `f0` a zero? ISSUBZ first, and only if it gives 1 the second test, on `f7` (R71, R96). DECOMP
returns a zero for a zero alone (R62); its exponent goes to `n7`. -/
def testZero (p : Fmt) (F : Format) (z : ZeroTest) (yes no : HostProgram) : HostProgram :=
  .test (.issubz p (.reg 3) 0) 3 fun v =>
    if v = 1 then
      match z with
      | .xman => .move (.issue (encode (.xman p (.reg 7) 0))) (.readF 7 fun m => if m = 0 then yes else no)
      | .decomp =>
        .move (.issue (encode (.decomp p (.reg 7) (.reg 7) 0)))
          (.readF 7 fun m => if F.classOf m = .zero then yes else no)
    else no

/-! ## The logarithm (R96, R97, R98) -/

/-- The cases of the input classification of a log-like function (R96). -/
inductive LogCase where
  | nan
  | zero
  | negative
  | infinity
  | general
deriving DecidableEq, Repr

/-- The input classification: the tests in the order NaN, zero, negative, infinity, on the argument in `f0`, and the
first case that applies ends it (R96, D44). Every test writes `n3` but the mantissa's (`testZero`). -/
def classifyLog (p : Fmt) (F : Format) (z : ZeroTest) (k : LogCase → HostProgram) : HostProgram :=
  .test (.isnan p (.reg 3) 0) 3 fun v =>
    if v = 1 then k .nan
    else testZero p F z (k .zero) (.test (.xsign p (.reg 3) 0) 3 fun v =>
      if v = 1 then k .negative
      else .test (.isinf p (.reg 3) 0) 3 fun v => if v = 1 then k .infinity else k .general)

/-- The result of the logarithm that the host returns without the general reduction (R96). -/
def Format.logSpecial (F : Format) (x : Scalar) : LogCase → Option Scalar
  | .nan => some x
  | .zero => some (F.inf true)
  | .negative => some F.qnan
  | .infinity => some x
  | .general => none

/-- The near-identity special range of the logarithm, the host's comparison: `LOG_NEAR_LO < x < 1.0` (R97, D38). -/
def nearIdentity (c : Config) (F : Format) (x : Scalar) : Bool :=
  match F.val x with
  | .finite q => decide (c.logNearLo.toRat < q) && decide (q < 1)
  | .infinite _ | .nan => false

/-- Which of its two arguments the near-identity set is made for. The spec leaves it open (R97, N17): DESIGN CHOICE
(log 15), safe, that a call names one of these two. -/
inductive NearArgument where
  | oneMinusX
  | xMinusOne
deriving DecidableEq, Repr

/-- The expansion about 1 of R97: the host writes index 0 into `n0`, RESSUB forms `x - 1` from it, and for a set in
`1 - x` SGNCLR makes it `1 - x`; HORNER evaluates a Maclaurin set `cN`; result in `f5`. Any table `tA` serves, since
break-point 0 is 1.0 in all. -/
def nearIdentitySequence (p : Fmt) (tA cN : RomId) (a : NearArgument) (k : HostProgram) : HostProgram :=
  .move (.writeN 0 0) (.commands (.ressub p (.reg 1) 0 0 tA ::
    match a with
    | .oneMinusX => [.sgnclr p (.reg 2) 1, .horner p (.reg 5) 2 cN]
    | .xMinusOne => [.horner p (.reg 5) 1 cN]) k)

/-- The three forms of the residual of the additive reduction; RESMUL takes a reciprocal table of its own, of the same
resolution (R98, R105). -/
inductive ResidualForm where
  | div
  | sub
  | mul (reciprocals : RomId)
deriving DecidableEq, Repr

/-- The residual command of a form: mantissa in `f1`, index in `n2`, result in `f3` (R98). -/
def ResidualForm.command (r : ResidualForm) (p : Fmt) (t : RomId) : Instr :=
  match r with
  | .div => .resdiv p (.reg 3) 1 2 t
  | .sub => .ressub p (.reg 3) 1 2 t
  | .mul tR => .resmul p (.reg 3) 1 2 tR

/-- The evaluation of the approximant: argument in `f3`, result in `f4` (R98). -/
def approximant (rational : Bool) (p : Fmt) (k : RomId) : Instr :=
  if rational then .rational p (.reg 4) 3 k else .horner p (.reg 4) 3 k

/-- The general reduction, additive identity: `x` in `f0`, `tA` a table of `log(t_k)`, result in `f5` (R98). -/
def additiveSequence (p : Fmt) (tA cA : RomId) (r : ResidualForm) (rational : Bool) : List Instr :=
  [.decomp p (.reg 1) (.reg 1) 0, .tindex p (.reg 2) 1 tA, .tload p (.reg 2) 2 tA, r.command p tA,
    approximant rational p cA, .recadd p (.reg 5) 1 4 2]

/-- What a logarithm call uses: the ROM ids its contents were made for, and the forms the rules leave to the host
(R96, R97, R98). -/
structure LogPlan where
  fmt : Fmt
  zeroTest : ZeroTest
  table : RomId
  coeffs : RomId
  residual : ResidualForm
  rational : Bool
  nearCoeffs : RomId
  nearArgument : NearArgument
deriving DecidableEq, Repr

/-- One call of the logarithm, the stages in the order of R94: classification, then a special value, the near-identity
range, or the general reduction; the logarithm restores no sign (R100). `F` is the layout of the plan's format. -/
def logCall (c : Config) (F : Format) (l : LogPlan) (x : Scalar) : HostProgram :=
  .call x (classifyLog l.fmt F l.zeroTest fun case =>
    match F.logSpecial x case with
    | some v => .special v
    | none =>
      if nearIdentity c F x then nearIdentitySequence l.fmt l.table l.nearCoeffs l.nearArgument .result
      else .commands (additiveSequence l.fmt l.table l.coeffs l.residual l.rational) .result)

/-! ## The cube root (R99) -/

/-- The two forms of the residual of the multiplicative reduction; RESMUL takes a reciprocal table of its own (R99,
R105). -/
inductive RatioForm where
  | div
  | mul (reciprocals : RomId)
deriving DecidableEq, Repr

/-- The residual command of a form: mantissa in `f1`, index in `n2`, result in `f3` (R99). -/
def RatioForm.command (r : RatioForm) (p : Fmt) (t : RomId) : Instr :=
  match r with
  | .div => .resdiv p (.reg 3) 1 2 t
  | .mul tR => .resmul p (.reg 3) 1 2 tR

/-- The general reduction, multiplicative identity, with one Newton step and the sign restored: `x` in `f0`, finite and
not zero, `tC` a table of `cbrt(t_k)`, result in `f5` (R99). -/
def multiplicativeSequence (p : Fmt) (tC cC : RomId) (r : RatioForm) : List Instr :=
  [.sgnclr p (.reg 6) 0, .decomp p (.reg 1) (.reg 1) 0, .tindex p (.reg 2) 1 tC, .tload p (.reg 2) 2 tC,
    r.command p tC, .horner p (.reg 4) 3 cC, .recmul p (.reg 5) 1 4 2, .newton3 p (.reg 5) 5 6,
    .sgncpy p (.reg 5) 5 0]

/-- What a cube-root call uses (R99). -/
structure CubeRootPlan where
  fmt : Fmt
  zeroTest : ZeroTest
  table : RomId
  coeffs : RomId
  residual : RatioForm
deriving DecidableEq, Repr

/-- One call of the cube root: NaN, infinity and zero are passed through, `cbrt(x) = x`, and every other argument takes
the multiplicative reduction (R94, R99). With which predicates the host finds the three cases is a DESIGN CHOICE
(log 15), safe: R99 names none. -/
def cubeRootCall (F : Format) (l : CubeRootPlan) (x : Scalar) : HostProgram :=
  .call x (.test (.isnaninf l.fmt (.reg 3) 0) 3 fun v =>
    if v = 1 then .special x
    else testZero l.fmt F l.zeroTest (.special x)
      (.commands (multiplicativeSequence l.fmt l.table l.coeffs l.residual) .result))

/-! ## Sign restoration (R100) -/

/-- What an odd function's sequence computes from what its middle computes of the magnitude (R100). -/
def Format.oddFunction (F : Format) (g : Scalar → Scalar) (x : Scalar) : Scalar :=
  F.withSign (F.sgn x) (g (F.withSign false x))

/-- What an even function's sequence computes (R100). -/
def Format.evenFunction (F : Format) (g : Scalar → Scalar) (x : Scalar) : Scalar := g (F.withSign false x)

/-- A command list as the host's moves (R94, R117). -/
def issueAll (is : List Instr) : List HostMove := is.map fun i => .issue (encode i)

end Sys2Proof.Machine
end

