-- ==== Sys2Proof/WellFormed.lean ====
section
/-! DEFINITION. When a command is legal under a configuration: checks 3, 5 and 6 of R54. Checks 1, 2 and 4 concern
the bits of the word and are the decoder's; an `Instr` cannot fail them. -/

namespace Sys2Proof

/-- The precision variant of a command. -/
def Instr.fmt : Instr → Fmt
  | .xsign p _ _ | .xexp p _ _ | .xman p _ _ | .decomp p _ _ _ => p
  | .isnan p _ _ | .isinf p _ _ | .isnaninf p _ _ | .issubz p _ _ => p
  | .tindex p _ _ _ | .tload p _ _ _ => p
  | .resdiv p _ _ _ _ | .ressub p _ _ _ _ | .resmul p _ _ _ _ => p
  | .horner p _ _ _ | .hornersq p _ _ _ | .rational p _ _ _ => p
  | .recadd p _ _ _ _ | .recmul p _ _ _ _ => p
  | .newton3 p _ _ _ | .sgncpy p _ _ _ | .sgnclr p _ _ | .recomp p _ _ _ => p

/-- R54 check 3: format L has a layout with rules. -/
def Config.allowsFmt (c : Config) (p : Fmt) : Bool :=
  p != .L || c.ldLayout != .doubledouble

/-- The member of a per-format parameter that a command of format `p` uses; DEDUCED (log 5), unsafe: with
`binary64`, L behaves "in every rule exactly as" D (R7). -/
def Config.member {α : Type} (c : Config) (p : Fmt) (x : PerFmt α) : α :=
  match p, c.ldLayout with
  | .S, _ => x.S
  | .D, _ => x.D
  | .L, .binary64 => x.D
  | .L, _ => x.L

/-- R54 check 5: `TABLES(tbl, fmt)` is defined. -/
def Config.hasTable (c : Config) (p : Fmt) (tbl : RomId) : Bool :=
  (c.tables.find? (·.id == tbl)).any fun t => (c.member p t.entries).isSome

/-- R54 check 6 for `HORNER` and `HORNERSQ`: `COEFFS(cset, fmt)` is defined and of kind `poly`. -/
def Config.hasPoly (c : Config) (p : Fmt) (cset : RomId) : Bool :=
  (c.coeffs.find? (·.id == cset)).any fun r =>
    match c.member p r.sets with
    | some (.poly _) => true
    | some (.rational _ _) | none => false

/-- R54 check 6 for `RATIONAL`: `COEFFS(cset, fmt)` is defined and of kind `rational`. -/
def Config.hasRational (c : Config) (p : Fmt) (cset : RomId) : Bool :=
  (c.coeffs.find? (·.id == cset)).any fun r =>
    match c.member p r.sets with
    | some (.rational _ _) => true
    | some (.poly _) | none => false

/-- A legal command under configuration `c` (R54). -/
def Instr.wellFormed (c : Config) (i : Instr) : Bool :=
  c.allowsFmt i.fmt &&
  match i with
  | .xsign _ _ _ | .xexp _ _ _ | .xman _ _ _ | .decomp _ _ _ _ => true
  | .isnan _ _ _ | .isinf _ _ _ | .isnaninf _ _ _ | .issubz _ _ _ => true
  | .tindex p _ _ tbl | .tload p _ _ tbl => c.hasTable p tbl
  | .resdiv p _ _ _ tbl | .ressub p _ _ _ tbl | .resmul p _ _ _ tbl => c.hasTable p tbl
  | .horner p _ _ cset | .hornersq p _ _ cset => c.hasPoly p cset
  | .rational p _ _ cset => c.hasRational p cset
  | .recadd _ _ _ _ _ | .recmul _ _ _ _ _ => true
  | .newton3 _ _ _ _ | .sgncpy _ _ _ _ | .sgnclr _ _ _ | .recomp _ _ _ _ => true

end Sys2Proof
end

