-- ==== Sys2Proof/Safety.lean ====
section
/-! DEFINITION. The terms claims are made in: a run that has not gone wrong (R119), legal words (R54), frames,
invariants, and what it is to be the rounding of a number (R21). -/

namespace Sys2Proof

/-- The same command at another precision variant. -/
def Instr.withFmt (q : Fmt) : Instr → Instr
  | .xsign _ d a => .xsign q d a
  | .xexp _ d a => .xexp q d a
  | .xman _ d a => .xman q d a
  | .decomp _ d e a => .decomp q d e a
  | .isnan _ d a => .isnan q d a
  | .isinf _ d a => .isinf q d a
  | .isnaninf _ d a => .isnaninf q d a
  | .issubz _ d a => .issubz q d a
  | .tindex _ d a t => .tindex q d a t
  | .tload _ d a t => .tload q d a t
  | .resdiv _ d a b t => .resdiv q d a b t
  | .ressub _ d a b t => .ressub q d a b t
  | .resmul _ d a b t => .resmul q d a b t
  | .horner _ d a k => .horner q d a k
  | .hornersq _ d a k => .hornersq q d a k
  | .rational _ d a k => .rational q d a k
  | .recadd _ d a b c => .recadd q d a b c
  | .recmul _ d a b c => .recmul q d a b c
  | .newton3 _ d a b => .newton3 q d a b
  | .sgncpy _ d a b => .sgncpy q d a b
  | .sgnclr _ d a => .sgnclr q d a
  | .recomp _ d a b => .recomp q d a b

/-- Every destination specifier a command uses (R53). -/
def Instr.dsts (i : Instr) : List Dst := i.scalarDsts ++ i.integerDsts

namespace Machine

/-- The run so far has not gone wrong: `STATUS.ILL` is 0 and no move of the run, before a reset among its moves or
after, has read an unwritten register (R107, R119). -/
def State.runOk (s : State) : Bool := !s.ill && !s.unwrittenRead

/-- A word is a legal command under a configuration: its bits decode, and the command is legal (R54). -/
def legalWord (c : Config) (w : Command) : Bool :=
  match decode w with
  | .ok i => i.wellFormed c
  | .error _ => false

/-- Does a move read an unwritten register? A legal command without a `NULL` destination reads its sources, the host's
register reads read theirs, and nothing else reads one (R25, R56, R107, R117). -/
def HostMove.readsUnwritten (m : HostMove) (s : State) : Bool :=
  match m with
  | .readF i => !s.fWritten[i.val]
  | .readN i => !s.nWritten[i.val]
  | .issue w =>
    match decode w with
    | .ok i =>
      i.wellFormed s.cfg && !i.dsts.contains .null &&
        !(i.scalarSrcs.all (fun r => s.fWritten[r.val]) && i.integerSrcs.all (fun r => s.nWritten[r.val]))
    | .error _ => false
  | .writeF _ _ | .writeN _ _ | .readStatus | .readConfig | .reset => false

/-- What no command touches, and what every command that writes leaves (R27, R31, R36, R56): `STATUS`, the
parameters, and the model's own fields but the record of unwritten reads. -/
def State.restOfBlock (s t : State) (fs ns : List RegNum) : Prop :=
  t.status = s.status ∧ t.cfg = s.cfg ∧ t.host = s.host ∧ t.answers = s.answers ∧ t.epoch = s.epoch ∧
    t.freeCount = s.freeCount ∧ t.unwrittenRead = (s.unwrittenRead || !s.allWritten fs ns)

/-- No scalar register but `d` has changed, and `d` counts as written. -/
def State.onlyScalar (s t : State) (d : RegNum) : Prop :=
  (∀ j : RegNum, j ≠ d → t.fReg j = s.fReg j ∧ t.fWritten[j.val] = s.fWritten[j.val]) ∧ t.fWritten[d.val] = true

/-- No integer register but `d` has changed, and `d` counts as written. -/
def State.onlyInteger (s t : State) (d : RegNum) : Prop :=
  (∀ j : RegNum, j ≠ d → t.nReg j = s.nReg j ∧ t.nWritten[j.val] = s.nWritten[j.val]) ∧ t.nWritten[d.val] = true

/-- The frame of a command that reads `fs` and `ns` and writes scalar register `d`. -/
def State.scalarFrame (s t : State) (d : RegNum) (fs ns : List RegNum) : Prop :=
  s.onlyScalar t d ∧ t.n = s.n ∧ t.nWritten = s.nWritten ∧ s.restOfBlock t fs ns

/-- The frame of a command that reads `fs` and `ns` and writes integer register `d`. -/
def State.integerFrame (s t : State) (d : RegNum) (fs ns : List RegNum) : Prop :=
  s.onlyInteger t d ∧ t.f = s.f ∧ t.fWritten = s.fWritten ∧ s.restOfBlock t fs ns

/-- The reserved bits of `STATUS` are zero (R27), the arithmetic is the one the spec decides (R13), and a register
nothing has written since reset holds what reset left in it: that it holds a fixed value is the model's, the spec
leaves it unspecified (log 1). -/
def State.blockInvariant (s : State) : Prop :=
  s.status.extractLsb' 1 31 = 0 ∧ s.cfg.arith = .nearestEven ∧
    (∀ i : RegNum, s.fWritten[i.val] = false → s.fReg i = Config.unwrittenScalar s.epoch i) ∧
    ∀ i : RegNum, s.nWritten[i.val] = false → s.nReg i = Config.unwrittenInteger s.epoch i

/-- Two states of one run's history that differ at most in what unwritten registers hold. -/
def State.agreeOnWritten (s t : State) : Prop :=
  (∀ i : RegNum, s.fWritten[i.val] = true → t.fReg i = s.fReg i) ∧
    (∀ i : RegNum, s.nWritten[i.val] = true → t.nReg i = s.nReg i) ∧
    t.fWritten = s.fWritten ∧ t.nWritten = s.nWritten ∧ t.status = s.status ∧ t.cfg = s.cfg ∧ t.host = s.host ∧
    t.answers = s.answers ∧ t.unwrittenRead = s.unwrittenRead ∧ t.epoch = s.epoch ∧ t.freeCount = s.freeCount

/-- A pattern that is neither NaN nor infinite (R19). -/
def Format.isFinite (F : Format) (b : Scalar) : Bool := F.classOf b != .nan && F.classOf b != .infinite

/-- A finite pattern other than a zero (R19). -/
def Format.isFiniteNonzero (F : Format) (b : Scalar) : Bool := F.isFinite b && F.classOf b != .zero

/-- `p` is `rnd(r)` for `r ≠ 0`, in the words of R21: with `e` and `u` as there, some integer `k` nearest to
`|r| / u`, the even one at a tie, gives the infinity of the sign of `r` when `k * u` reaches `2^(BIAS+1)`, and
otherwise the pattern of that sign and value `k * u`. -/
def Format.IsRounding (F : Format) (r : Rat) (p : Scalar) : Prop :=
  let e : Int := max (Int.log 2 |r|) (1 - F.bias)
  let u : Rat := 2 ^ (e - F.Fb)
  ∃ k : Nat, |(|r| / u - k)| ≤ 1 / 2 ∧ (|(|r| / u - k)| = 1 / 2 → Even k) ∧
    if (2 : Rat) ^ (F.bias + 1) ≤ k * u then p = F.inf (decide (r < 0))
    else F.val p = .finite ((if r < 0 then -1 else 1) * (k * u)) ∧ F.sgn p = decide (r < 0) ∧
      F.wellFormed p = true ∧ F.low p = p

/-- The residual of mantissa `m` and index register value `k` in a table of `log(t_k)`, where the form's ROM reads are
defined and well formed (R78, R79, R80, R98). -/
def ResidualForm.value (c : Config) (F : Format) (p : Fmt) (T : Table) (m : Scalar) (k : Word32) :
    ResidualForm → Option Scalar
  | .div => some (F.fdiv m (F.breakPoint T.bits.val (T.idx k).val))
  | .sub => some (F.fsub m (F.breakPoint T.bits.val (T.idx k).val))
  | .mul tR =>
    match tableAt c p tR with
    | some U => if F.wellFormed (U.read F (U.idx k)) then some (F.fmul m (U.read F (U.idx k))) else none
    | none => none

/-- All coefficients of a polynomial are well-formed patterns of a format (R19). -/
def Poly.wellFormed (F : Format) (c : Poly) : Bool := (c.atFormat F).toList.all F.wellFormed

/-- The approximant of a coefficient set at an argument, where the set is of the kind and well formed (R82, R84). -/
def approximantValue (c : Config) (F : Format) (p : Fmt) (rational : Bool) (k : RomId) (r : Scalar) : Option Scalar :=
  match coeffsAt c p k, rational with
  | some (.poly a), false => if Poly.wellFormed F a then some (F.arith.horner (a.atFormat F) r) else none
  | some (.rational a b), true =>
    if Poly.wellFormed F a && Poly.wellFormed F b then
      some (F.fdiv (F.arith.horner (a.atFormat F) r) (F.arith.horner (b.atFormat F) r))
    else none
  | some (.poly _), true | some (.rational _ _), false | none, _ => none

/-- The ROM contents a cube-root call reads are defined and well formed at its format (R9, R10, R11, R19). -/
def CubeRootPlan.romOk (c : Config) (F : Format) (l : CubeRootPlan) : Prop :=
  (∃ T, tableAt c l.fmt l.table = some T ∧ ∀ k, F.wellFormed (T.read F k) = true) ∧
    (∃ a, coeffsAt c l.fmt l.coeffs = some (.poly a) ∧ Poly.wellFormed F a = true) ∧
    (∀ tR, l.residual = .mul tR → ∃ U, tableAt c l.fmt tR = some U ∧ ∀ k, F.wellFormed (U.read F k) = true) ∧
    F.wellFormed (kCbrt2 c F l.fmt 1) = true ∧ F.wellFormed (kCbrt2 c F l.fmt 2) = true

end Machine

end Sys2Proof
end

