-- ==== Sys2Proof/Certificates/Slice0/Obligations.lean ====
section
/-! DEFINITION. The statements for the provers. -/

open Sys2Proof Sys2Proof.Machine

/-! ## Encoding (`30_encoding.md`) -/

/-- Decoding the word of any command gives the command back: no bit of an operand is dropped (R47, R52, R53). -/
def Obligations.DecodeOfEncode : Prop :=
  ∀ i : Instr, decode (encode i) = .ok i

/-- A word whose bits are legal is the word of the command it decodes to: no two words mean one command (R47, R53). -/
def Obligations.EncodeOfDecode : Prop :=
  ∀ (w : Command) (i : Instr), decode w = .ok i → encode i = w

/-- Words printed in section 4.1 of `95_test_vectors.md`, one or two per family, decode as printed there. -/
def Obligations.PrintedWordsDecode : Prop :=
  decode 0x0A614000 = .ok (.xsign .D (.reg 3) 5) ∧
    decode 0x23E20000 = .ok (.decomp .D .null (.reg 1) 0) ∧
    decode 0x2A600000 = .ok (.isnan .D (.reg 3) 0) ∧
    decode 0x4C404001 = .ok (.tindex .L (.reg 2) 1 1) ∧
    decode 0x6A605001 = .ok (.resmul .D (.reg 3) 1 2 1) ∧
    decode 0x8280C003 = .ok (.rational .D (.reg 4) 3 3) ∧
    decode 0x8AA06200 = .ok (.recadd .D (.reg 5) 1 4 2) ∧
    decode 0xB0404800 = .ok (.recomp .S (.reg 2) 1 1)

/-- A word that decodes selects exactly one row of the opcode map, the one with its mnemonic (R52). -/
def Obligations.OneRowPerDecodedWord : Prop :=
  ∀ (w : Command) (i : Instr), decode w = .ok i →
    ∃ r ∈ opcodeMap, r.mnemonic = i.mnemonic ∧ r.selects w = true ∧
      ∀ r' ∈ opcodeMap, r'.selects w = true → r' = r

/-- R54: the six conditions for a word to be a legal command, on the bits of the word and the configuration. -/
def Obligations.LegalWordConditions : Prop :=
  ∀ (c : Config) (w : Command),
    legalWord c w = true ↔
      (∃ r ∈ opcodeMap, r.selects w = true) ∧
        ∃ p : Fmt, (w.extractLsb' 25 2).toNat = (match p with | .S => 0 | .D => 1 | .L => 2) ∧
          (p = .L → c.ldLayout ≠ .doubledouble) ∧
          ((w.extractLsb' 21 4).toNat ≤ 7 ∨ (w.extractLsb' 21 4).toNat = 15) ∧
          ((w.extractLsb' 27 5).toNat = 0x04 →
            (w.extractLsb' 17 4).toNat ≤ 7 ∨ (w.extractLsb' 17 4).toNat = 15) ∧
          ((w.extractLsb' 27 5).toNat ∈ [0x09, 0x0A, 0x0B, 0x0C, 0x0D] →
            c.hasTable p (w.extractLsb' 0 8) = true) ∧
          ((w.extractLsb' 27 5).toNat ∈ [0x0E, 0x0F] → c.hasPoly p (w.extractLsb' 0 8) = true) ∧
          ((w.extractLsb' 27 5).toNat = 0x10 → c.hasRational p (w.extractLsb' 0 8) = true)

/-! ## The step, the illegal command, the template (`30_encoding.md`, `60_exceptions.md`, `70_reset_and_hazards.md`) -/

/-- When the host's next move issues a word that decodes to a command, the step runs exactly that command, the move
being used up; when the word does not decode, the step is the illegal command's (R56, R107,
R117; the list of moves is the model's, log 6). -/
def Obligations.StepRunsDecodedCommand : Prop :=
  ∀ (s : State) (w : Command) (rest : List HostMove), s.host = .issue w :: rest →
    (∀ i, decode w = .ok i → step s = exec i { s with host := rest }) ∧
      ∀ r, decode w = .error r → step s = .next { s with host := rest, status := s.status ||| 1 }

/-- An illegal word sets `STATUS.ILL` and changes nothing else of the block, even with a `NULL` destination (R107,
R109; the list of moves is the model's, log 6). -/
def Obligations.IllegalWordOnlySetsIll : Prop :=
  ∀ (s : State) (w : Command) (rest : List HostMove), s.host = .issue w :: rest →
    legalWord s.cfg w = false → step s = .next { s with host := rest, status := s.status ||| 1 }

/-- `STATUS.ILL` after any step: cleared by reset alone, set by an illegal word alone, kept otherwise (R27; the list of
moves is the model's, log 6). -/
def Obligations.IllBitAfterStep : Prop :=
  ∀ s t : State, step s = .next t →
    t.ill =
      match s.host with
      | .reset :: _ => false
      | .issue w :: _ => s.ill || !legalWord s.cfg w
      | _ => s.ill

/-- A legal command with a `NULL` destination in any used destination field changes no state at all (R49, R56,
R63). -/
def Obligations.NullDestinationIsNoOp : Prop :=
  ∀ (i : Instr) (s : State), i.wellFormed s.cfg = true → Dst.null ∈ i.dsts → exec i s = .next s

/-- Every command completes, legal or not, whatever its operands hold: a register that is no destination of it, the
configuration with its ROMs and the model's own fields of the host (logs 6, 7, 8) are as before; a legal command leaves
`STATUS` (R36, R56, R106). -/
def Obligations.FrameOfEveryCommand : Prop :=
  ∀ (i : Instr) (s : State), ∃ t, exec i s = .next t ∧
    (∀ r, Dst.reg r ∉ i.scalarDsts → t.fReg r = s.fReg r ∧ t.fWritten[r.val] = s.fWritten[r.val]) ∧
    (∀ r, Dst.reg r ∉ i.integerDsts → t.nReg r = s.nReg r ∧ t.nWritten[r.val] = s.nWritten[r.val]) ∧
    t.cfg = s.cfg ∧ t.host = s.host ∧ t.answers = s.answers ∧ t.epoch = s.epoch ∧
    (i.wellFormed s.cfg = true → t.status = s.status)

/-- A legal command without a `NULL` destination writes its destinations, and a read of an unwritten source is
recorded (R25, R56; the record is the model's, log 2). -/
def Obligations.WritesAndReadsAreRecorded : Prop :=
  ∀ (i : Instr) (s t : State), i.wellFormed s.cfg = true → Dst.null ∉ i.dsts → exec i s = .next t →
    (∀ r, Dst.reg r ∈ i.scalarDsts → t.fWritten[r.val] = true) ∧
    (∀ r, Dst.reg r ∈ i.integerDsts → t.nWritten[r.val] = true) ∧
    t.unwrittenRead = (s.unwrittenRead || !s.allWritten i.scalarSrcs i.integerSrcs)

/-- A command writes zeros above the width of its format: also when the result is a free value (R16, R23). -/
def Obligations.UpperBitsWrittenZero : Prop :=
  ∀ (i : Instr) (s t : State) (F : Format) (d : RegNum), i.wellFormed s.cfg = true → Dst.null ∉ i.dsts →
    formatOf s.cfg.ldLayout i.fmt = some F → Dst.reg d ∈ i.scalarDsts → exec i s = .next t →
    (t.fReg d).toNat < 2 ^ F.W

/-- A command reads only the low `W` bits of its scalar sources: what stands above changes no result (R23). -/
def Obligations.UpperBitsNotRead : Prop :=
  ∀ (i : Instr) (s s' t t' : State) (F : Format), i.wellFormed s.cfg = true → Dst.null ∉ i.dsts →
    formatOf s.cfg.ldLayout i.fmt = some F → s' = { s with f := s'.f } →
    (∀ r, (s'.fReg r).toNat % 2 ^ F.W = (s.fReg r).toNat % 2 ^ F.W) →
    exec i s = .next t → exec i s' = .next t' →
    (∀ d, Dst.reg d ∈ i.scalarDsts → t'.fReg d = t.fReg d) ∧ t' = { t with f := t'.f }

/-- With `LD_LAYOUT = binary64` every command at format L does exactly what it does at format D; that this holds of the
ROM members too is read from R7 by inference (log 5). -/
def Obligations.LongDoubleActsAsDouble : Prop :=
  ∀ (i : Instr) (s : State), s.cfg.ldLayout = .binary64 → exec (i.withFmt .L) s = exec (i.withFmt .D) s

/-- R36: no step of any kind changes a ROM, a constant or another parameter. -/
def Obligations.ConfigurationNeverChanges : Prop :=
  ∀ s t : State, step s = .next t → t.cfg = s.cfg

/-- The invariant is kept by every step from every state that has it: the reserved bits of `STATUS` read as zero
(R27), the arithmetic is the decided one (R13), and an unwritten register still holds what reset left in it (R25; what
reset leaves is the model's, log 1). -/
def Obligations.StepKeepsInvariant : Prop :=
  ∀ s t : State, s.blockInvariant → step s = .next t → t.blockInvariant

/-- The state after reset has the invariant: that `STATUS` is 0 there is R32's, that an unwritten register holds a fixed
value is the model's, where R32 says "value unspecified" (log 1). -/
def Obligations.ResetHasInvariant : Prop := State.reset.blockInvariant

/-- A run that reads no unwritten register does not depend on what unwritten registers hold (R25, R119): two states
that differ only there step to states that differ only there. -/
def Obligations.UnwrittenValuesDoNotMatter : Prop :=
  ∀ s s' t t' : State, s.agreeOnWritten s' → step s = .next t → step s' = .next t' → t.unwrittenRead = false →
    t.agreeOnWritten t'

/-- R32 after reset, in the reset state and after the host's reset move: every register unwritten, `STATUS` 0. The reset
state has nothing recorded against its run; the move leaves `CONFIG`, the ROMs, the host's own moves and answers and the
run's record of unwritten reads (the model's fields: logs 2, 6, 7, 8). -/
def Obligations.ResetLeaves : Prop :=
  (∀ i : RegNum, State.reset.fWritten[i.val] = false ∧ State.reset.nWritten[i.val] = false) ∧
    State.reset.status = 0 ∧ State.reset.runOk = true ∧
    ∀ (s : State) (rest : List HostMove), s.host = .reset :: rest →
      ∃ t, step s = .next t ∧ (∀ i : RegNum, t.fWritten[i.val] = false ∧ t.nWritten[i.val] = false) ∧
        t.status = 0 ∧ t.cfg = s.cfg ∧ configWord t.cfg = configWord s.cfg ∧ t.host = rest ∧
        t.answers = s.answers ∧ t.unwrittenRead = s.unwrittenRead

/-- The host's register writes and reads of R117, and its reads of `STATUS` and `CONFIG`; with no move to come the
block is idle. The lists of moves and answers and the record of unwritten reads are the model's (logs 2, 6, 7). -/
def Obligations.HostMovesAct : Prop :=
  ∀ (s : State) (rest : List HostMove),
    (s.host = [] → step s = .next s) ∧
    (∀ (i : RegNum) (v : Scalar), s.host = .writeF i v :: rest →
      ∃ t, step s = .next t ∧ t.fReg i = v ∧ { s with host := rest }.scalarFrame t i [] []) ∧
    (∀ (i : RegNum) (v : Word32), s.host = .writeN i v :: rest →
      ∃ t, step s = .next t ∧ t.nReg i = v ∧ { s with host := rest }.integerFrame t i [] []) ∧
    (∀ i : RegNum, s.host = .readF i :: rest →
      step s = .next { s with
        host := rest, answers := .scalar i (s.fReg i) :: s.answers,
        unwrittenRead := s.unwrittenRead || !s.fWritten[i.val] }) ∧
    (∀ i : RegNum, s.host = .readN i :: rest →
      step s = .next { s with
        host := rest, answers := .integer i (s.nReg i) :: s.answers,
        unwrittenRead := s.unwrittenRead || !s.nWritten[i.val] }) ∧
    (s.host = .readStatus :: rest →
      step s = .next { s with host := rest, answers := .status s.status :: s.answers }) ∧
    (s.host = .readConfig :: rest →
      step s = .next { s with host := rest, answers := .config (configWord s.cfg) :: s.answers })

/-- R28: the fields of `CONFIG` in this hardware, the same before and after any step. -/
def Obligations.ConfigFields : Prop :=
  ∀ c : Config,
    ((configWord c).extractLsb' 0 3).toNat =
      (match c.ldLayout with | .binary64 => 0 | .extended80 => 1 | .quad128 => 2 | .doubledouble => 3) ∧
    (configWord c).getLsbD 3 = true ∧ (configWord c).getLsbD 4 = false ∧ (configWord c).extractLsb' 5 27 = 0 ∧
    ∀ s t : State, step s = .next t → configWord t.cfg = configWord s.cfg

/-! ## Formats and arithmetic (`00_scope.md`) -/

/-- The table of R12 and the formats of a command under each layout. -/
def Obligations.FormatTable : Prop :=
  (∀ F : Format, (F.W, F.E, F.Fb, F.J, F.bias, F.emax) =
    match F with
    | .single => (32, 8, 23, 0, 127, 255)
    | .double => (64, 11, 52, 0, 1023, 2047)
    | .extended80 => (80, 15, 63, 1, 16383, 32767)
    | .quad128 => (128, 15, 112, 0, 16383, 32767)) ∧
  (∀ l : LdLayout, formatOf l .S = some .single ∧ formatOf l .D = some .double) ∧
  formatOf .binary64 .L = some .double ∧ formatOf .extended80 .L = some .extended80 ∧
  formatOf .quad128 .L = some .quad128 ∧ formatOf .doubledouble .L = none

/-- R18: the field accessors are the fields by position, and the packer puts a pattern together from them. -/
def Obligations.FieldsOfPattern : Prop :=
  ∀ (F : Format) (b : Scalar),
    F.sgn b = b.getLsbD (F.W - 1) ∧
    F.bexp b = b.toNat / 2 ^ (F.Fb + F.J) % 2 ^ F.E ∧
    F.frac b = b.toNat % 2 ^ F.Fb ∧
    F.jbit b = b.getLsbD F.Fb ∧
    F.man b = b.toNat % 2 ^ (F.Fb + F.J) ∧
    F.pack (F.sgn b) (F.bexp b) (F.man b) = F.low b ∧
    ∀ (s : Bool) (be m : Nat),
      (F.pack s be m).toNat = s.toNat * 2 ^ (F.W - 1) + be % 2 ^ F.E * 2 ^ (F.Fb + F.J) + m % 2 ^ (F.Fb + F.J)

/-- R20: the value of a pattern of each class; for a normal one also the source's `(-1)^sign * 1.mantissa *
2^true_exponent`, which holds in every format. -/
def Obligations.ValueOfPattern : Prop :=
  ∀ (F : Format) (b : Scalar), F.wellFormed b = true →
    (F.classOf b = .nan → F.val b = .nan) ∧
    (F.classOf b = .zero → F.val b = .finite 0) ∧
    (F.classOf b = .infinite → F.val b = .infinite (F.sgn b)) ∧
    (F.classOf b = .subnormal →
      F.val b = .finite ((if F.sgn b then -1 else 1) * (F.sig b : Rat) * (2 : Rat) ^ (1 - F.bias - F.Fb : Int))) ∧
    (F.classOf b = .normal →
      F.val b = .finite ((if F.sgn b then -1 else 1) * (F.sig b : Rat) *
        (2 : Rat) ^ ((F.bexp b : Int) - F.bias - F.Fb)) ∧
      F.val b = .finite ((if F.sgn b then -1 else 1) * (1 + (F.frac b : Rat) / 2 ^ F.Fb) *
        (2 : Rat) ^ ((F.bexp b : Int) - F.bias)))

/-- R21: `rnd` rounds once, to nearest, ties to even, with overflow to infinity and gradual underflow; and the
canonical quiet NaN of each format. -/
def Obligations.RoundingRule : Prop :=
  (∀ (F : Format) (s : Bool) (n d : Nat) (x : Int), 0 < n → 0 < d →
    F.IsRounding ((if s then -1 else 1) * ((n : Rat) / d) * (2 : Rat) ^ x) (F.rnd s n d x)) ∧
  Format.single.qnan = 0x7FC00000 ∧ Format.double.qnan = 0x7FF8000000000000 ∧
  Format.extended80.qnan = 0x7FFFC000000000000000 ∧
  Format.quad128.qnan = 0x7FFF8000000000000000000000000000 ∧ ∀ F : Format, F.isQuiet F.qnan = true

/-- `fadd` and `fsub` of R22: NaN, infinities, the rounded exact sum, and the sign of an exact zero sum. -/
def Obligations.SumRule : Prop :=
  ∀ (F : Format) (a b : Scalar), F.wellFormed a = true → F.wellFormed b = true →
    (F.classOf a = .nan ∨ F.classOf b = .nan → F.fadd a b = F.qnan) ∧
    (F.classOf a = .infinite → F.classOf b = .infinite →
      F.fadd a b = if F.sgn a = F.sgn b then F.inf (F.sgn a) else F.qnan) ∧
    (F.classOf a = .infinite → F.isFinite b = true → F.fadd a b = F.inf (F.sgn a)) ∧
    (F.isFinite a = true → F.classOf b = .infinite → F.fadd a b = F.inf (F.sgn b)) ∧
    (F.isFinite a = true → F.isFinite b = true →
      (F.finiteVal a + F.finiteVal b ≠ 0 → F.IsRounding (F.finiteVal a + F.finiteVal b) (F.fadd a b)) ∧
      (F.finiteVal a + F.finiteVal b = 0 →
        F.fadd a b = F.zero (if F.sgn a = F.sgn b then F.sgn a else false))) ∧
    F.fsub a b = F.fadd a (F.neg b) ∧
    (F.isFinite b = true → F.finiteVal (F.neg b) = -F.finiteVal b ∧ F.isFinite (F.neg b) = true)

/-- `fmul` of R22: NaN, zero times infinity, infinities, zeros, and the rounded exact product. -/
def Obligations.ProductRule : Prop :=
  ∀ (F : Format) (a b : Scalar), F.wellFormed a = true → F.wellFormed b = true →
    (F.classOf a = .nan ∨ F.classOf b = .nan → F.fmul a b = F.qnan) ∧
    (F.classOf a = .zero ∧ F.classOf b = .infinite ∨ F.classOf a = .infinite ∧ F.classOf b = .zero →
      F.fmul a b = F.qnan) ∧
    (F.classOf a = .infinite ∧ (F.classOf b = .infinite ∨ F.isFiniteNonzero b = true) ∨
        F.isFiniteNonzero a = true ∧ F.classOf b = .infinite →
      F.fmul a b = F.inf (F.sgn a ^^ F.sgn b)) ∧
    (F.classOf a = .zero ∧ F.isFinite b = true ∨ F.isFinite a = true ∧ F.classOf b = .zero →
      F.fmul a b = F.zero (F.sgn a ^^ F.sgn b)) ∧
    (F.isFiniteNonzero a = true → F.isFiniteNonzero b = true →
      F.IsRounding (F.finiteVal a * F.finiteVal b) (F.fmul a b))

/-- `fdiv` of R22: NaN, zero by zero, infinity by infinity, division by zero, and the rounded exact quotient. -/
def Obligations.QuotientRule : Prop :=
  ∀ (F : Format) (a b : Scalar), F.wellFormed a = true → F.wellFormed b = true →
    (F.classOf a = .nan ∨ F.classOf b = .nan → F.fdiv a b = F.qnan) ∧
    (F.classOf a = .zero ∧ F.classOf b = .zero ∨ F.classOf a = .infinite ∧ F.classOf b = .infinite →
      F.fdiv a b = F.qnan) ∧
    (F.classOf a = .infinite ∧ F.isFinite b = true ∨ F.isFiniteNonzero a = true ∧ F.classOf b = .zero →
      F.fdiv a b = F.inf (F.sgn a ^^ F.sgn b)) ∧
    (F.classOf a = .zero ∧ (F.isFiniteNonzero b = true ∨ F.classOf b = .infinite) ∨
        F.isFiniteNonzero a = true ∧ F.classOf b = .infinite →
      F.fdiv a b = F.zero (F.sgn a ^^ F.sgn b)) ∧
    (F.isFiniteNonzero a = true → F.isFiniteNonzero b = true →
      F.IsRounding (F.finiteVal a / F.finiteVal b) (F.fdiv a b))

/-- `i2f` and `fscale` of R22: conversion and scaling by any power of two, each rounded once, with the two limits
beyond which scaling gives an infinity or a zero. -/
def Obligations.ConversionAndScalingRule : Prop :=
  (∀ (F : Format) (i : Word32),
    (i.toInt = 0 → F.i2f i = F.zero false) ∧ (i.toInt ≠ 0 → F.IsRounding (i.toInt : Rat) (F.i2f i))) ∧
  ∀ (F : Format) (a : Scalar) (q : Int), F.wellFormed a = true →
    (F.classOf a = .nan → F.fscale a q = F.qnan) ∧
    (F.classOf a = .zero ∨ F.classOf a = .infinite → F.fscale a q = a) ∧
    (F.isFiniteNonzero a = true → F.IsRounding (F.finiteVal a * (2 : Rat) ^ q) (F.fscale a q)) ∧
    (F.isFiniteNonzero a = true → 2 * F.bias + F.Fb ≤ q → F.fscale a q = F.inf (F.sgn a)) ∧
    (F.isFiniteNonzero a = true → q ≤ -(2 * F.bias + F.Fb + 1) → F.fscale a q = F.zero (F.sgn a))

/-- The arithmetic never produces an ill-formed pattern or one wider than the format (U3, R22). -/
def Obligations.ArithmeticResultsWellFormed : Prop :=
  ∀ (F : Format) (a b : Scalar) (i : Word32) (q : Int), F.wellFormed a = true → F.wellFormed b = true →
    F.low a = a →
    ∀ r ∈ [F.fadd a b, F.fsub a b, F.fmul a b, F.fdiv a b, F.i2f i, F.fscale a q],
      F.wellFormed r = true ∧ F.low r = r

/-- Sums and products do not depend on the order of the operands (R22, R81). -/
def Obligations.SumAndProductCommute : Prop :=
  ∀ (F : Format) (a b : Scalar), F.fadd a b = F.fadd b a ∧ F.fmul a b = F.fmul b a

/-! ## Decomposer and predicates (`40_decompose.md`, `41_classify.md`) -/

/-- XSIGN, XEXP and XMAN complete for every operand and give the sign bit, the stored exponent field and the stored
mantissa field, changing nothing but the destination (R59, R60, R61). The frame also names the model's own fields
(logs 2, 6, 7, 8, 16). -/
def Obligations.FieldExtractionResults : Prop :=
  ∀ (s : State) (p : Fmt) (F : Format) (d fs : RegNum), formatOf s.cfg.ldLayout p = some F →
    F.wellFormed (s.fr F fs) = true →
    (∃ t, exec (.xsign p (.reg d) fs) s = .next t ∧
      t.nReg d = (if (s.fReg fs).getLsbD (F.W - 1) then 1 else 0) ∧ s.integerFrame t d [fs] []) ∧
    (∃ t, exec (.xexp p (.reg d) fs) s = .next t ∧
      (t.nReg d).toNat = (s.fReg fs).toNat / 2 ^ (F.Fb + F.J) % 2 ^ F.E ∧ s.integerFrame t d [fs] []) ∧
    (∃ t, exec (.xman p (.reg d) fs) s = .next t ∧
      (t.fReg d).toNat = (s.fReg fs).toNat % 2 ^ (F.Fb + F.J) ∧ s.scalarFrame t d [fs] [])

/-- DECOMP completes for every operand and writes the pair of the four branches of R62, changing nothing but its two
destinations. The frame also names the model's own fields (logs 2, 6, 7, 8, 16). -/
def Obligations.DecompResults : Prop :=
  ∀ (s : State) (p : Fmt) (F : Format) (d e fs : RegNum), formatOf s.cfg.ldLayout p = some F →
    F.wellFormed (s.fr F fs) = true →
    ∃ t, exec (.decomp p (.reg d) (.reg e) fs) s = .next t ∧
      (F.bexp (s.fr F fs) = F.emax ∨ F.bexp (s.fr F fs) = 0 ∧ F.man (s.fr F fs) = 0 →
        t.fReg d = s.fr F fs ∧ t.nReg e = 0) ∧
      (F.bexp (s.fr F fs) = 0 → F.man (s.fr F fs) ≠ 0 →
        ∃ sh : Nat, 1 ≤ sh ∧ sh ≤ F.Fb ∧ 2 ^ F.Fb ≤ F.man (s.fr F fs) * 2 ^ sh ∧
          F.man (s.fr F fs) * 2 ^ sh < 2 ^ (F.Fb + 1) ∧
          t.fReg d = F.pack false F.bias (F.man (s.fr F fs) * 2 ^ sh) ∧
          (t.nReg e).toInt = 1 - F.bias - sh) ∧
      (F.bexp (s.fr F fs) ≠ 0 → F.bexp (s.fr F fs) ≠ F.emax →
        t.fReg d = F.pack false F.bias (F.man (s.fr F fs)) ∧
          (t.nReg e).toInt = F.bexp (s.fr F fs) - F.bias) ∧
      s.onlyScalar t d ∧ s.onlyInteger t e ∧ s.restOfBlock t [fs] []

/-- The decomposition is exact, the mantissa lies in `[1, 2)`, and zero, NaN and infinity are passed through with
exponent 0: the spec's own inference, "`val(M) * 2^e = |val(x)|` as real numbers, with no rounding anywhere, and
`1 <= val(M) < 2`" (`40_decompose.md` section 2). -/
def Obligations.DecompositionContract : Prop :=
  ∀ (F : Format) (x : Scalar), F.wellFormed x = true →
    (F.isFiniteNonzero x = true →
      F.finiteVal (F.decompose x).1 * (2 : Rat) ^ (F.decompose x).2 = |F.finiteVal x| ∧
        1 ≤ F.finiteVal (F.decompose x).1 ∧ F.finiteVal (F.decompose x).1 < 2) ∧
    (F.isFiniteNonzero x = false → F.decompose x = (x, 0))

/-- The exponent of DECOMP lies in `[1 - BIAS - Fb, BIAS]` and its 32-bit two's complement loses nothing: the spec's
own inference, "Every integer result is computed exactly and then stored in 32 bits; none can overflow"
(`40_decompose.md` section 2). -/
def Obligations.DecompExponentRange : Prop :=
  ∀ (F : Format) (x : Scalar), F.wellFormed x = true →
    (1 - F.bias - F.Fb : Int) ≤ (F.decompose x).2 ∧ (F.decompose x).2 ≤ F.bias ∧
      (BitVec.ofInt 32 (F.decompose x).2).toInt = (F.decompose x).2

/-- For a subnormal operand, scaling by any admissible `2^K` and reading the fields of the normal product gives the same
exponent and mantissa: the spec's own inference, "`K` is therefore not observable" (`40_decompose.md` section 2). -/
def Obligations.NormalisationConstantNotObservable : Prop :=
  ∀ (F : Format) (x : Scalar) (K : Nat), F.wellFormed x = true → F.classOf x = .subnormal → F.Fb ≤ K →
    K ≤ 2 * F.bias - 1 →
    F.classOf (F.fscale x K) = .normal ∧
      F.finiteVal (F.fscale x K) = F.finiteVal x * (2 : Rat) ^ K ∧
      (F.decompose x).2 = F.bexp (F.fscale x K) - F.bias - K ∧
      (F.decompose x).1 = F.pack false F.bias (F.man (F.fscale x K))

/-- ISNAN, ISINF, ISNANINF and ISSUBZ complete for every operand and give 1 or 0 by the bit tests of R68 to R71 on the
exponent field and the fraction, changing nothing but the destination. The frame also names the model's own fields
(logs 2, 6, 7, 8, 16). -/
def Obligations.PredicateResults : Prop :=
  ∀ (s : State) (p : Fmt) (F : Format) (d fs : RegNum), formatOf s.cfg.ldLayout p = some F →
    F.wellFormed (s.fr F fs) = true →
    ∀ be fr : Nat, be = (s.fReg fs).toNat / 2 ^ (F.Fb + F.J) % 2 ^ F.E → fr = (s.fReg fs).toNat % 2 ^ F.Fb →
    (∃ t, exec (.isnan p (.reg d) fs) s = .next t ∧
      t.nReg d = (if be = 2 ^ F.E - 1 ∧ fr ≠ 0 then 1 else 0) ∧ s.integerFrame t d [fs] []) ∧
    (∃ t, exec (.isinf p (.reg d) fs) s = .next t ∧
      t.nReg d = (if be = 2 ^ F.E - 1 ∧ fr = 0 then 1 else 0) ∧ s.integerFrame t d [fs] []) ∧
    (∃ t, exec (.isnaninf p (.reg d) fs) s = .next t ∧
      t.nReg d = (if be = 2 ^ F.E - 1 then 1 else 0) ∧ s.integerFrame t d [fs] []) ∧
    (∃ t, exec (.issubz p (.reg d) fs) s = .next t ∧
      t.nReg d = (if be = 0 then 1 else 0) ∧ s.integerFrame t d [fs] [])

/-- The predicates agree with the branches of DECOMP, and exclude each other: the spec's own inference, its paragraph
"Agreement" (`41_classify.md`). -/
def Obligations.PredicatesAgreeWithDecomp : Prop :=
  ∀ (F : Format) (x : Scalar), F.wellFormed x = true →
    (F.isNanOrInf x = true ↔ F.classOf x = .nan ∨ F.classOf x = .infinite) ∧
    (F.isSubnormalOrZero x = true ↔ F.classOf x = .zero ∨ F.classOf x = .subnormal) ∧
    (F.isNan x).toNat + (F.isInf x).toNat = (F.isNanOrInf x).toNat ∧
    ¬(F.isNanOrInf x = true ∧ F.isSubnormalOrZero x = true) ∧
    (F.isNanOrInf x = false → F.isSubnormalOrZero x = false →
      F.classOf x = .normal ∧
        F.decompose x = (F.pack false F.bias (F.man x), (F.bexp x : Int) - F.bias))

/-! ## Table indexer (`42_table_index.md`) -/

/-- TINDEX completes for every operand and gives the top `L` fraction bits, changing nothing but the destination
(R74). The frame also names the model's own fields (logs 2, 6, 7, 8, 16). -/
def Obligations.TindexResult : Prop :=
  ∀ (s : State) (p : Fmt) (F : Format) (T : Table) (d fs : RegNum) (tbl : RomId),
    formatOf s.cfg.ldLayout p = some F → tableAt s.cfg p tbl = some T → F.wellFormed (s.fr F fs) = true →
    ∃ t, exec (.tindex p (.reg d) fs tbl) s = .next t ∧
      (t.nReg d).toNat = (s.fReg fs).toNat % 2 ^ F.Fb / 2 ^ (F.Fb - T.bits.val) ∧
      (t.nReg d).toNat < 2 ^ T.bits.val ∧ s.integerFrame t d [fs] []

/-- TLOAD completes for every index register value and copies the entry of the masked index, changing nothing but the
destination (R77). The frame also names the model's own fields (logs 2, 6, 7, 8, 16). -/
def Obligations.TloadResult : Prop :=
  ∀ (s : State) (p : Fmt) (F : Format) (T : Table) (d ns : RegNum) (tbl : RomId),
    formatOf s.cfg.ldLayout p = some F → tableAt s.cfg p tbl = some T →
    ∃ t, exec (.tload p (.reg d) ns tbl) s = .next t ∧
      t.fReg d = F.low (T.entries[(s.nReg ns).toNat % 2 ^ T.bits.val]'(Nat.mod_lt _ (Nat.two_pow_pos _))) ∧
      s.scalarFrame t d [] [ns]

/-- RESDIV, RESSUB and RESMUL complete for every operand and give `m / t_k`, `m - t_k` and `m * table[k]`, one rounded
operation each, `k` masked; they change nothing but the destination (R78, R79, R80). The frame also names the model's
own fields (logs 2, 6, 7, 8, 16). -/
def Obligations.ResidualResults : Prop :=
  ∀ (s : State) (p : Fmt) (F : Format) (T : Table) (d fm nk : RegNum) (tbl : RomId) (k : Fin (2 ^ T.bits.val)),
    formatOf s.cfg.ldLayout p = some F → tableAt s.cfg p tbl = some T → F.wellFormed (s.fr F fm) = true →
    k.val = (s.nReg nk).toNat % 2 ^ T.bits.val →
    (∃ t, exec (.resdiv p (.reg d) fm nk tbl) s = .next t ∧
      t.fReg d = F.low ((s.cfg.arithAt F).fdiv (s.fr F fm) (F.breakPoint T.bits.val k.val)) ∧
      (s.cfg.arith = .nearestEven → t.fReg d = F.fdiv (s.fr F fm) (F.breakPoint T.bits.val k.val)) ∧
      s.scalarFrame t d [fm] [nk]) ∧
    (∃ t, exec (.ressub p (.reg d) fm nk tbl) s = .next t ∧
      t.fReg d = F.low ((s.cfg.arithAt F).fsub (s.fr F fm) (F.breakPoint T.bits.val k.val)) ∧
      (s.cfg.arith = .nearestEven → t.fReg d = F.fsub (s.fr F fm) (F.breakPoint T.bits.val k.val)) ∧
      s.scalarFrame t d [fm] [nk]) ∧
    (F.wellFormed (F.low T.entries[k.val]) = true →
      ∃ t, exec (.resmul p (.reg d) fm nk tbl) s = .next t ∧
        t.fReg d = F.low ((s.cfg.arithAt F).fmul (s.fr F fm) (F.low T.entries[k.val])) ∧
        (s.cfg.arith = .nearestEven → t.fReg d = F.fmul (s.fr F fm) (F.low T.entries[k.val])) ∧
        s.scalarFrame t d [fm] [nk])

/-- R76: the index is masked to the table's bits, an index from TINDEX is unchanged by the mask, and the break-point
pattern has value exactly `1 + k/T`. -/
def Obligations.MaskedIndexAndBreakPoint : Prop :=
  (∀ (T : Table) (v : Word32), (T.idx v).val = (v.extractLsb' 0 T.bits.val).toNat) ∧
  (∀ (T : Table) (F : Format) (m : Scalar),
    (T.idx (BitVec.ofNat 32 (F.topBits T.bits.val m))).val = F.topBits T.bits.val m) ∧
  ∀ (F : Format) (L k : Nat), L ≤ 16 → k < 2 ^ L →
    F.breakPoint L k = F.pack false F.bias (F.J * 2 ^ F.Fb + k * 2 ^ (F.Fb - L)) ∧
      F.val (F.breakPoint L k) = .finite (1 + (k : Rat) / 2 ^ L)

/-- For a mantissa in `[1, 2)` the index brackets it, `t_k ≤ m < t_(k+1)`: the spec's own inference, "so
`1 + k/T <= val(m) < 1 + (k+1)/T`" (`42_table_index.md`). -/
def Obligations.BracketProperty : Prop :=
  ∀ (F : Format) (L : Nat) (m : Scalar), L ≤ 16 → F.wellFormed m = true → F.sgn m = false → F.bexp m = F.bias →
    F.finiteVal m = 1 + (F.frac m : Rat) / 2 ^ F.Fb ∧
      F.topBits L m = F.frac m / 2 ^ (F.Fb - L) ∧
      1 + (F.topBits L m : Rat) / 2 ^ L ≤ F.finiteVal m ∧
      F.finiteVal m < 1 + ((F.topBits L m : Rat) + 1) / 2 ^ L

/-- The additive residual of a mantissa in `[1, 2)` and its own index is exact: `(frac(m) mod 2^(Fb-L)) * 2^-Fb`, and
`+0` when `m = t_k`: the spec's own inference, "it is exactly representable, so the subtraction does not round, and the
result is `+0` when `m = t_k`" (`42_table_index.md`). -/
def Obligations.AdditiveResidualExact : Prop :=
  ∀ (F : Format) (L : Nat) (m : Scalar), L ≤ 16 → F.wellFormed m = true → F.sgn m = false → F.bexp m = F.bias →
    F.val (F.fsub m (F.breakPoint L (F.topBits L m))) =
      .finite (((F.frac m % 2 ^ (F.Fb - L) : Nat) : Rat) / 2 ^ F.Fb) ∧
    (F.frac m % 2 ^ (F.Fb - L) = 0 → F.fsub m (F.breakPoint L (F.topBits L m)) = F.zero false)

/-- The multiplicative residual of a mantissa in `[1, 2)` and its own index lies in `[1, 1 + 1/T]`: the spec infers it
from the bracket property, "so the result lies in `[1, 1 + 1/T]`" (`42_table_index.md`). -/
def Obligations.MultiplicativeResidualRange : Prop :=
  ∀ (F : Format) (L : Nat) (m : Scalar), L ≤ 16 → F.wellFormed m = true → F.sgn m = false → F.bexp m = F.bias →
    ∃ q : Rat, F.val (F.fdiv m (F.breakPoint L (F.topBits L m))) = .finite q ∧ 1 ≤ q ∧ q ≤ 1 + 1 / 2 ^ L

/-! ## Evaluator (`43_evaluators.md`) -/

/-- R81: `Horner(c, z)` is the loop from `cn` down to `c0`, a product and a sum at each step, and `c0` itself for
degree 0, whatever the arithmetic. -/
def Obligations.HornerIsTheLoop : Prop :=
  ∀ (A : Arith) (c : Poly) (z : Scalar) (cn : Scalar) (lower : List Scalar), c.toList.reverse = cn :: lower →
    A.horner c z = lower.foldl (fun acc ci => A.fadd ci (A.fmul z acc)) cn

/-- HORNER, HORNERSQ and RATIONAL complete for every argument and give the polynomial at the argument, at its square,
and the quotient of two, changing nothing but the destination (R82, R83, R84). The frame also names the model's own
fields (logs 2, 6, 7, 8, 16). -/
def Obligations.EvaluatorResults : Prop :=
  ∀ (s : State) (p : Fmt) (F : Format) (d fz : RegNum) (cset : RomId), formatOf s.cfg.ldLayout p = some F →
    F.wellFormed (s.fr F fz) = true →
    (∀ c, coeffsAt s.cfg p cset = some (.poly c) → (∀ v ∈ c.toList, F.wellFormed (F.low v) = true) →
      (∃ t, exec (.horner p (.reg d) fz cset) s = .next t ∧
        t.fReg d = F.low ((s.cfg.arithAt F).horner (c.atFormat F) (s.fr F fz)) ∧
        (s.cfg.arith = .nearestEven → t.fReg d = F.arith.horner (c.atFormat F) (s.fr F fz)) ∧
        s.scalarFrame t d [fz] []) ∧
      (∃ t, exec (.hornersq p (.reg d) fz cset) s = .next t ∧
        t.fReg d =
          F.low ((s.cfg.arithAt F).horner (c.atFormat F) ((s.cfg.arithAt F).fmul (s.fr F fz) (s.fr F fz))) ∧
        (s.cfg.arith = .nearestEven →
          t.fReg d = F.arith.horner (c.atFormat F) (F.fmul (s.fr F fz) (s.fr F fz))) ∧
        s.scalarFrame t d [fz] [])) ∧
    (∀ c q, coeffsAt s.cfg p cset = some (.rational c q) →
      (∀ v ∈ c.toList ++ q.toList, F.wellFormed (F.low v) = true) →
      ∃ t, exec (.rational p (.reg d) fz cset) s = .next t ∧
        t.fReg d = F.low ((s.cfg.arithAt F).fdiv ((s.cfg.arithAt F).horner (c.atFormat F) (s.fr F fz))
          ((s.cfg.arithAt F).horner (q.atFormat F) (s.fr F fz))) ∧
        (s.cfg.arith = .nearestEven → t.fReg d =
          F.fdiv (F.arith.horner (c.atFormat F) (s.fr F fz)) (F.arith.horner (q.atFormat F) (s.fr F fz))) ∧
        s.scalarFrame t d [fz] [])

/-- HORNERSQ gives the same bits for an argument and its negation (R83), with the decided arithmetic and with any other
whose square of the two is the same: the one property it needs (R13). -/
def Obligations.SquareArgumentIsEven : Prop :=
  ∀ (s : State) (p : Fmt) (F : Format) (d a b : RegNum) (cset : RomId) (t u : State),
    formatOf s.cfg.ldLayout p = some F → F.wellFormed (s.fr F a) = true → s.fr F b = F.neg (s.fr F a) →
    (∀ c, coeffsAt s.cfg p cset = some (.poly c) → ∀ v ∈ c.toList, F.wellFormed (F.low v) = true) →
    Config.hasPoly s.cfg p cset = true →
    (s.cfg.arith = .nearestEven ∨
      (s.cfg.arithAt F).fmul (s.fr F b) (s.fr F b) = (s.cfg.arithAt F).fmul (s.fr F a) (s.fr F a)) →
    exec (.hornersq p (.reg d) a cset) s = .next t → exec (.hornersq p (.reg d) b cset) s = .next u →
    t.fReg d = u.fReg d

/-! ## Recombiner (`44_recombine.md`) -/

/-- RECADD completes for every operand and gives `((e * ln2) + p) + t`, each operation rounded, changing nothing but
the destination (R87). The frame also names the model's own fields (logs 2, 6, 7, 8, 16). -/
def Obligations.RecaddResult : Prop :=
  ∀ (s : State) (p : Fmt) (F : Format) (d ne fp ft : RegNum), formatOf s.cfg.ldLayout p = some F →
    (∀ v ∈ [s.fr F fp, s.fr F ft, kLn2 s.cfg F p], F.wellFormed v = true) →
    ∃ t, exec (.recadd p (.reg d) ne fp ft) s = .next t ∧
      t.fReg d = F.low ((s.cfg.arithAt F).fadd ((s.cfg.arithAt F).fadd
        ((s.cfg.arithAt F).fmul ((s.cfg.arithAt F).i2f (s.nReg ne)) (kLn2 s.cfg F p)) (s.fr F fp)) (s.fr F ft)) ∧
      (s.cfg.arith = .nearestEven → t.fReg d =
        F.fadd (F.fadd (F.fmul (F.i2f (s.nReg ne)) (kLn2 s.cfg F p)) (s.fr F fp)) (s.fr F ft)) ∧
      s.scalarFrame t d [fp, ft] [ne]

/-- With exponent 0 and both values `+0`, RECADD gives `+0` for any positive finite `K_LN2`: the logarithm of 1 is
exactly 0 (R87, R98). -/
def Obligations.RecaddOfZeros : Prop :=
  ∀ (F : Format) (ln2 : Scalar), F.isFinite ln2 = true → F.sgn ln2 = false →
    F.arith.recAdd ln2 0 (F.zero false) (F.zero false) = F.zero false

/-- RECMUL completes for every operand: with `e = 3q + r`, `r` in 0, 1, 2, it gives `((2^(r/3) * t) * p) * 2^q`,
changing nothing but the destination (R88). The frame also names the model's own fields (logs 2, 6, 7, 8, 16). -/
def Obligations.RecmulResult : Prop :=
  ∀ (s : State) (p : Fmt) (F : Format) (d ne fp ft : RegNum) (q r : Int), formatOf s.cfg.ldLayout p = some F →
    (s.nReg ne).toInt = 3 * q + r → 0 ≤ r → r < 3 →
    (∀ v ∈ [s.fr F fp, s.fr F ft, kCbrt2 s.cfg F p r], F.wellFormed v = true) →
    (∃ t, exec (.recmul p (.reg d) ne fp ft) s = .next t ∧
      t.fReg d = F.low ((s.cfg.arithAt F).fscale ((s.cfg.arithAt F).fmul
        ((s.cfg.arithAt F).fmul (kCbrt2 s.cfg F p r) (s.fr F ft)) (s.fr F fp)) q) ∧
      (s.cfg.arith = .nearestEven → t.fReg d =
        F.fscale (F.fmul (F.fmul (kCbrt2 s.cfg F p r) (s.fr F ft)) (s.fr F fp)) q) ∧
      s.scalarFrame t d [fp, ft] [ne]) ∧
    F.val (kCbrt2 s.cfg F p 0) = .finite 1

/-- NEWTON3 completes for every operand and gives `((2*y) + x/(y*y)) / 3`, four rounded operations with the exact
constants 2 and 3, changing nothing but the destination (R89). The frame also names the model's own fields (logs 2, 6,
7, 8, 16). -/
def Obligations.Newton3Result : Prop :=
  ∀ (s : State) (p : Fmt) (F : Format) (d fy fx : RegNum), formatOf s.cfg.ldLayout p = some F →
    F.wellFormed (s.fr F fy) = true → F.wellFormed (s.fr F fx) = true →
    (∃ t, exec (.newton3 p (.reg d) fy fx) s = .next t ∧
      t.fReg d = F.low ((s.cfg.arithAt F).fdiv ((s.cfg.arithAt F).fadd
        ((s.cfg.arithAt F).fmul F.two (s.fr F fy))
        ((s.cfg.arithAt F).fdiv (s.fr F fx) ((s.cfg.arithAt F).fmul (s.fr F fy) (s.fr F fy)))) F.three) ∧
      (s.cfg.arith = .nearestEven → t.fReg d =
        F.fdiv (F.fadd (F.fmul F.two (s.fr F fy)) (F.fdiv (s.fr F fx) (F.fmul (s.fr F fy) (s.fr F fy)))) F.three) ∧
      s.scalarFrame t d [fy, fx] []) ∧
    F.val F.two = .finite 2 ∧ F.val F.three = .finite 3

/-- SGNCPY and SGNCLR complete for every operand and move the sign bit only, every other bit of the first source kept,
changing nothing but the destination (R90, R91). The frame also names the model's own fields (logs 2, 6, 7, 8, 16). -/
def Obligations.SignMoveResults : Prop :=
  ∀ (s : State) (p : Fmt) (F : Format) (d fr fx : RegNum), formatOf s.cfg.ldLayout p = some F →
    F.wellFormed (s.fr F fr) = true →
    (F.wellFormed (s.fr F fx) = true →
      ∃ t, exec (.sgncpy p (.reg d) fr fx) s = .next t ∧
        (t.fReg d).toNat = ((s.fReg fx).getLsbD (F.W - 1)).toNat * 2 ^ (F.W - 1) +
          (s.fReg fr).toNat % 2 ^ (F.W - 1) ∧
        s.scalarFrame t d [fr, fx] []) ∧
    ∃ t, exec (.sgnclr p (.reg d) fr) s = .next t ∧
      (t.fReg d).toNat = (s.fReg fr).toNat % 2 ^ (F.W - 1) ∧ s.scalarFrame t d [fr] []

/-- A sequence of the shape of an odd function turns the negation of its argument into the negation of its result,
bit for bit, and one of the shape of an even function ignores it, whatever is computed of the magnitude: the spec's own
inference, "Both hold for any host sequence of these shapes whatever `g` is" (`45_assembler_sequence.md`). -/
def Obligations.OddAndEvenSequences : Prop :=
  ∀ (F : Format) (g : Scalar → Scalar) (x : Scalar),
    F.oddFunction g (F.neg x) = F.neg (F.oddFunction g x) ∧ F.evenFunction g (F.neg x) = F.evenFunction g x

/-- RECOMP completes for every operand and every 32-bit exponent and gives `m * 2^e` rounded once, changing nothing
but the destination (R92). The frame also names the model's own fields (logs 2, 6, 7, 8, 16). -/
def Obligations.RecompResult : Prop :=
  ∀ (s : State) (p : Fmt) (F : Format) (d fm ne : RegNum), formatOf s.cfg.ldLayout p = some F →
    F.wellFormed (s.fr F fm) = true →
    ∃ t, exec (.recomp p (.reg d) fm ne) s = .next t ∧
      t.fReg d = F.low ((s.cfg.arithAt F).fscale (s.fr F fm) (s.nReg ne).toInt) ∧
      (s.cfg.arith = .nearestEven →
        (F.isFiniteNonzero (s.fr F fm) = true →
          F.IsRounding (F.finiteVal (s.fr F fm) * (2 : Rat) ^ (s.nReg ne).toInt) (t.fReg d)) ∧
        (F.classOf (s.fr F fm) = .zero ∨ F.classOf (s.fr F fm) = .infinite → t.fReg d = s.fr F fm) ∧
        (F.classOf (s.fr F fm) = .nan → t.fReg d = F.qnan)) ∧
      s.scalarFrame t d [fm] [ne]

/-- The round trip on the block: RECOMP of the pair DECOMP gives of a finite non-zero operand is its magnitude, bit for
bit: the spec's own inference, "the result is exactly `|x|`, with no rounding" (`44_recombine.md`). -/
def Obligations.RecompOfDecompIsMagnitude : Prop :=
  ∀ (s t u : State) (p : Fmt) (F : Format) (d e g fs : RegNum), formatOf s.cfg.ldLayout p = some F →
    F.wellFormed (s.fr F fs) = true → F.isFiniteNonzero (s.fr F fs) = true → s.cfg.arith = .nearestEven →
    exec (.decomp p (.reg d) (.reg e) fs) s = .next t → exec (.recomp p (.reg g) d e) t = .next u →
    u.fReg g = F.withSign false (s.fr F fs)

/-! ## Runs and calls (`70_reset_and_hazards.md`, `45_assembler_sequence.md`) -/

/-- A list of moves runs move by move, one step each, and the run ends when the list ends (R41, R119; the list in the
state is the model's, log 6). -/
def Obligations.RunOfMoves : Prop :=
  ∀ (s : State) (ms rest : List HostMove), s.host = ms ++ rest →
    Host.Core.run core ms.length s = runMoves ms { s with host := rest }

/-- A run has gone wrong as soon as any of its moves read an unwritten register: the record is set by such a read alone
and nothing clears it, a reset among the moves neither (R119; the record is the model's, log 2). -/
def Obligations.UnwrittenReadAfterStep : Prop :=
  ∀ s t : State, step s = .next t →
    t.unwrittenRead =
      (s.unwrittenRead ||
        match s.host with
        | m :: _ => m.readsUnwritten s
        | [] => false)

/-- A call of the logarithm from any state (R94): the special values of R96, the expansion about 1 of R97, the general
reduction of R98, and `log(1.0) = +0` for the contents R98 names. That the argument of the expansion is exact is the
spec's own inference, "exact for `x` in `[1/2, 2]`". The model's choices in the call are log 15's. -/
def Obligations.LogarithmCall : Prop :=
  ∀ (s : State) (F : Format) (l : LogPlan) (x : Scalar), formatOf s.cfg.ldLayout l.fmt = some F →
    F.wellFormed x = true → F.low x = x →
    let returns := fun v : Scalar =>
      ∃ t, (logCall s.cfg F l x).run s = .next (t, v) ∧ t.fReg 5 = v ∧ t.status = s.status
    (F.classOf x = .nan → returns x) ∧
    (F.classOf x = .zero → returns (F.inf true)) ∧
    (F.sgn x = true → F.classOf x ≠ .nan → F.classOf x ≠ .zero → returns F.qnan) ∧
    (F.sgn x = false → F.classOf x = .infinite → returns x) ∧
    ∀ T : Table, s.cfg.arith = .nearestEven → F.isFiniteNonzero x = true → F.sgn x = false →
      tableAt s.cfg l.fmt l.table = some T →
      (nearIdentity s.cfg F x = true →
        (∀ v, l.nearArgument = .oneMinusX →
          approximantValue s.cfg F l.fmt false l.nearCoeffs (F.withSign false (F.fsub x F.one)) = some v → returns v) ∧
        (∀ v, l.nearArgument = .xMinusOne →
          approximantValue s.cfg F l.fmt false l.nearCoeffs (F.fsub x F.one) = some v → returns v) ∧
        (1 / 2 ≤ F.finiteVal x →
          F.val (F.withSign false (F.fsub x F.one)) = .finite (1 - F.finiteVal x) ∧
            F.val (F.fsub x F.one) = .finite (F.finiteVal x - 1))) ∧
      (nearIdentity s.cfg F x = false → ∀ (k : Word32) (entry r v : Scalar),
        k = BitVec.ofNat 32 (F.topBits T.bits.val (F.decompose x).1) → entry = T.read F (T.idx k) →
        F.wellFormed entry = true → F.wellFormed (kLn2 s.cfg F l.fmt) = true →
        l.residual.value s.cfg F l.fmt T (F.decompose x).1 k = some r →
        approximantValue s.cfg F l.fmt l.rational l.coeffs r = some v →
        returns (F.arith.recAdd (kLn2 s.cfg F l.fmt) (BitVec.ofInt 32 (F.decompose x).2) v entry) ∧
        (x = F.one → entry = F.zero false → v = F.zero false → F.isFinite (kLn2 s.cfg F l.fmt) = true →
          F.sgn (kLn2 s.cfg F l.fmt) = false → returns (F.zero false)))

/-- A call of the cube root from any state: NaN, infinities and zeros come back as they are (R99), and from any two
states of one configuration the call of the negated argument returns the negation, bit for bit, so that nothing carries
over from what the block held (R94): the symmetry is the spec's own inference, "Both hold for any host sequence of these
shapes whatever `g` is". The model's choices in the call are log 15's. -/
def Obligations.CubeRootCall : Prop :=
  ∀ (s : State) (F : Format) (l : CubeRootPlan) (x : Scalar), formatOf s.cfg.ldLayout l.fmt = some F →
    F.wellFormed x = true → F.low x = x →
    (F.classOf x = .nan ∨ F.classOf x = .infinite ∨ F.classOf x = .zero →
      ∃ t, (cubeRootCall F l x).run s = .next (t, x) ∧ t.fReg 5 = x ∧ t.status = s.status) ∧
    ∀ s' : State, s'.cfg = s.cfg → s.cfg.arith = .nearestEven → l.romOk s.cfg F →
      ∃ t t' v, (cubeRootCall F l x).run s = .next (t, v) ∧
        (cubeRootCall F l (F.neg x)).run s' = .next (t', F.neg v)
end

