-- ==== Sys2Proof/Laws/State.lean ====
section
/-! SUPPORT. What each update of the state leaves in each field, one lemma per field per update, true by rfl. -/

namespace Sys2Proof.Machine

variable (s : State)

@[simp] theorem writeF_f (i : RegNum) (v : Scalar) : (s.writeF i v).f = s.f.set i.val v := rfl
@[simp] theorem writeF_n (i : RegNum) (v : Scalar) : (s.writeF i v).n = s.n := rfl
@[simp] theorem writeF_fWritten (i : RegNum) (v : Scalar) :
    (s.writeF i v).fWritten = s.fWritten.set i.val true := rfl
@[simp] theorem writeF_nWritten (i : RegNum) (v : Scalar) : (s.writeF i v).nWritten = s.nWritten := rfl
@[simp] theorem writeF_status (i : RegNum) (v : Scalar) : (s.writeF i v).status = s.status := rfl
@[simp] theorem writeF_cfg (i : RegNum) (v : Scalar) : (s.writeF i v).cfg = s.cfg := rfl
@[simp] theorem writeF_host (i : RegNum) (v : Scalar) : (s.writeF i v).host = s.host := rfl
@[simp] theorem writeF_answers (i : RegNum) (v : Scalar) : (s.writeF i v).answers = s.answers := rfl
@[simp] theorem writeF_unwrittenRead (i : RegNum) (v : Scalar) :
    (s.writeF i v).unwrittenRead = s.unwrittenRead := rfl
@[simp] theorem writeF_epoch (i : RegNum) (v : Scalar) : (s.writeF i v).epoch = s.epoch := rfl
@[simp] theorem writeF_freeCount (i : RegNum) (v : Scalar) : (s.writeF i v).freeCount = s.freeCount := rfl

@[simp] theorem writeN_f (i : RegNum) (v : Word32) : (s.writeN i v).f = s.f := rfl
@[simp] theorem writeN_n (i : RegNum) (v : Word32) : (s.writeN i v).n = s.n.set i.val v := rfl
@[simp] theorem writeN_fWritten (i : RegNum) (v : Word32) : (s.writeN i v).fWritten = s.fWritten := rfl
@[simp] theorem writeN_nWritten (i : RegNum) (v : Word32) :
    (s.writeN i v).nWritten = s.nWritten.set i.val true := rfl
@[simp] theorem writeN_status (i : RegNum) (v : Word32) : (s.writeN i v).status = s.status := rfl
@[simp] theorem writeN_cfg (i : RegNum) (v : Word32) : (s.writeN i v).cfg = s.cfg := rfl
@[simp] theorem writeN_host (i : RegNum) (v : Word32) : (s.writeN i v).host = s.host := rfl
@[simp] theorem writeN_answers (i : RegNum) (v : Word32) : (s.writeN i v).answers = s.answers := rfl
@[simp] theorem writeN_unwrittenRead (i : RegNum) (v : Word32) :
    (s.writeN i v).unwrittenRead = s.unwrittenRead := rfl
@[simp] theorem writeN_epoch (i : RegNum) (v : Word32) : (s.writeN i v).epoch = s.epoch := rfl
@[simp] theorem writeN_freeCount (i : RegNum) (v : Word32) : (s.writeN i v).freeCount = s.freeCount := rfl

@[simp] theorem noteReads_f (fs ns : List RegNum) : (s.noteReads fs ns).f = s.f := rfl
@[simp] theorem noteReads_n (fs ns : List RegNum) : (s.noteReads fs ns).n = s.n := rfl
@[simp] theorem noteReads_fWritten (fs ns : List RegNum) : (s.noteReads fs ns).fWritten = s.fWritten := rfl
@[simp] theorem noteReads_nWritten (fs ns : List RegNum) : (s.noteReads fs ns).nWritten = s.nWritten := rfl
@[simp] theorem noteReads_status (fs ns : List RegNum) : (s.noteReads fs ns).status = s.status := rfl
@[simp] theorem noteReads_cfg (fs ns : List RegNum) : (s.noteReads fs ns).cfg = s.cfg := rfl
@[simp] theorem noteReads_host (fs ns : List RegNum) : (s.noteReads fs ns).host = s.host := rfl
@[simp] theorem noteReads_answers (fs ns : List RegNum) : (s.noteReads fs ns).answers = s.answers := rfl
@[simp] theorem noteReads_unwrittenRead (fs ns : List RegNum) :
    (s.noteReads fs ns).unwrittenRead = (s.unwrittenRead || !s.allWritten fs ns) := rfl
@[simp] theorem noteReads_epoch (fs ns : List RegNum) : (s.noteReads fs ns).epoch = s.epoch := rfl
@[simp] theorem noteReads_freeCount (fs ns : List RegNum) : (s.noteReads fs ns).freeCount = s.freeCount := rfl

@[simp] theorem raiseIllegal_f : s.raiseIllegal.f = s.f := rfl
@[simp] theorem raiseIllegal_n : s.raiseIllegal.n = s.n := rfl
@[simp] theorem raiseIllegal_fWritten : s.raiseIllegal.fWritten = s.fWritten := rfl
@[simp] theorem raiseIllegal_nWritten : s.raiseIllegal.nWritten = s.nWritten := rfl
@[simp] theorem raiseIllegal_status : s.raiseIllegal.status = setIll s.status := rfl
@[simp] theorem raiseIllegal_cfg : s.raiseIllegal.cfg = s.cfg := rfl
@[simp] theorem raiseIllegal_host : s.raiseIllegal.host = s.host := rfl
@[simp] theorem raiseIllegal_answers : s.raiseIllegal.answers = s.answers := rfl
@[simp] theorem raiseIllegal_unwrittenRead : s.raiseIllegal.unwrittenRead = s.unwrittenRead := rfl
@[simp] theorem raiseIllegal_epoch : s.raiseIllegal.epoch = s.epoch := rfl
@[simp] theorem raiseIllegal_freeCount : s.raiseIllegal.freeCount = s.freeCount := rfl

@[simp] theorem useFree_f : s.useFree.f = s.f := rfl
@[simp] theorem useFree_n : s.useFree.n = s.n := rfl
@[simp] theorem useFree_fWritten : s.useFree.fWritten = s.fWritten := rfl
@[simp] theorem useFree_nWritten : s.useFree.nWritten = s.nWritten := rfl
@[simp] theorem useFree_status : s.useFree.status = s.status := rfl
@[simp] theorem useFree_cfg : s.useFree.cfg = s.cfg := rfl
@[simp] theorem useFree_host : s.useFree.host = s.host := rfl
@[simp] theorem useFree_answers : s.useFree.answers = s.answers := rfl
@[simp] theorem useFree_unwrittenRead : s.useFree.unwrittenRead = s.unwrittenRead := rfl
@[simp] theorem useFree_epoch : s.useFree.epoch = s.epoch := rfl
@[simp] theorem useFree_freeCount : s.useFree.freeCount = s.freeCount + 1 := rfl

@[simp] theorem answer_f (a : Answer) : (s.answer a).f = s.f := rfl
@[simp] theorem answer_n (a : Answer) : (s.answer a).n = s.n := rfl
@[simp] theorem answer_fWritten (a : Answer) : (s.answer a).fWritten = s.fWritten := rfl
@[simp] theorem answer_nWritten (a : Answer) : (s.answer a).nWritten = s.nWritten := rfl
@[simp] theorem answer_status (a : Answer) : (s.answer a).status = s.status := rfl
@[simp] theorem answer_cfg (a : Answer) : (s.answer a).cfg = s.cfg := rfl
@[simp] theorem answer_host (a : Answer) : (s.answer a).host = s.host := rfl
@[simp] theorem answer_answers (a : Answer) : (s.answer a).answers = a :: s.answers := rfl
@[simp] theorem answer_unwrittenRead (a : Answer) : (s.answer a).unwrittenRead = s.unwrittenRead := rfl
@[simp] theorem answer_epoch (a : Answer) : (s.answer a).epoch = s.epoch := rfl
@[simp] theorem answer_freeCount (a : Answer) : (s.answer a).freeCount = s.freeCount := rfl

@[simp] theorem resetBlock_f : s.resetBlock.f = Vector.ofFn (Config.unwrittenScalar (s.epoch + 1)) := rfl
@[simp] theorem resetBlock_n : s.resetBlock.n = Vector.ofFn (Config.unwrittenInteger (s.epoch + 1)) := rfl
@[simp] theorem resetBlock_fWritten : s.resetBlock.fWritten = Vector.replicate 8 false := rfl
@[simp] theorem resetBlock_nWritten : s.resetBlock.nWritten = Vector.replicate 8 false := rfl
@[simp] theorem resetBlock_status : s.resetBlock.status = 0 := rfl
@[simp] theorem resetBlock_cfg : s.resetBlock.cfg = s.cfg := rfl
@[simp] theorem resetBlock_host : s.resetBlock.host = s.host := rfl
@[simp] theorem resetBlock_answers : s.resetBlock.answers = s.answers := rfl
@[simp] theorem resetBlock_unwrittenRead : s.resetBlock.unwrittenRead = s.unwrittenRead := rfl
@[simp] theorem resetBlock_epoch : s.resetBlock.epoch = s.epoch + 1 := rfl
@[simp] theorem resetBlock_freeCount : s.resetBlock.freeCount = s.freeCount := rfl

/-! The register readers after the register writers. -/

@[simp] theorem writeF_fReg (i j : RegNum) (v : Scalar) :
    (s.writeF i v).fReg j = if i = j then v else s.fReg j := by
  simp only [State.fReg, State.writeF, Vector.getElem_set, Fin.ext_iff]

@[simp] theorem writeN_nReg (i j : RegNum) (v : Word32) :
    (s.writeN i v).nReg j = if i = j then v else s.nReg j := by
  simp only [State.nReg, State.writeN, Vector.getElem_set, Fin.ext_iff]

@[simp] theorem writeF_nReg (i j : RegNum) (v : Scalar) : (s.writeF i v).nReg j = s.nReg j := rfl
@[simp] theorem writeN_fReg (i j : RegNum) (v : Word32) : (s.writeN i v).fReg j = s.fReg j := rfl
@[simp] theorem noteReads_fReg (fs ns : List RegNum) (j : RegNum) : (s.noteReads fs ns).fReg j = s.fReg j := rfl
@[simp] theorem noteReads_nReg (fs ns : List RegNum) (j : RegNum) : (s.noteReads fs ns).nReg j = s.nReg j := rfl
@[simp] theorem raiseIllegal_fReg (j : RegNum) : s.raiseIllegal.fReg j = s.fReg j := rfl
@[simp] theorem raiseIllegal_nReg (j : RegNum) : s.raiseIllegal.nReg j = s.nReg j := rfl
@[simp] theorem useFree_fReg (j : RegNum) : s.useFree.fReg j = s.fReg j := rfl
@[simp] theorem useFree_nReg (j : RegNum) : s.useFree.nReg j = s.nReg j := rfl
@[simp] theorem answer_fReg (a : Answer) (j : RegNum) : (s.answer a).fReg j = s.fReg j := rfl
@[simp] theorem answer_nReg (a : Answer) (j : RegNum) : (s.answer a).nReg j = s.nReg j := rfl

end Sys2Proof.Machine
end

