-- ==== Sys2Proof/Laws/Ops.lean ====
section
/-! SUPPORT. One lemma per shared operation that says everything it can do, and the agreement of the machine's
legality checks with `WellFormed.lean`. -/

namespace Sys2Proof.Machine

/-! Legality. -/

theorem withFormat_of_some {s : State} {p : Fmt} {F : Format} (k : Format → State)
    (h : formatOf s.cfg.ldLayout p = some F) : s.withFormat p k = k F := by
  simp only [State.withFormat, h]

theorem withFormat_cases (s : State) (p : Fmt) (k : Format → State) :
    (∃ F, formatOf s.cfg.ldLayout p = some F ∧ s.withFormat p k = k F) ∨
      (formatOf s.cfg.ldLayout p = none ∧ s.withFormat p k = s.raiseIllegal) := by
  unfold State.withFormat
  split <;> simp_all

theorem withTable_cases (s : State) (p : Fmt) (tbl : RomId) (k : Format → Table → State) :
    (∃ F t, formatOf s.cfg.ldLayout p = some F ∧ tableAt s.cfg p tbl = some t ∧ s.withTable p tbl k = k F t) ∨
      ((formatOf s.cfg.ldLayout p = none ∨ tableAt s.cfg p tbl = none) ∧
        s.withTable p tbl k = s.raiseIllegal) := by
  unfold State.withTable State.withFormat
  split
  · split <;> simp_all
  · simp_all

theorem withPoly_cases (s : State) (p : Fmt) (cset : RomId) (k : Format → Poly → State) :
    (∃ F c, formatOf s.cfg.ldLayout p = some F ∧ coeffsAt s.cfg p cset = some (.poly c) ∧
        s.withPoly p cset k = k F (c.atFormat F)) ∨
      ((formatOf s.cfg.ldLayout p = none ∨ ∀ c, coeffsAt s.cfg p cset ≠ some (.poly c)) ∧
        s.withPoly p cset k = s.raiseIllegal) := by
  unfold State.withPoly State.withFormat
  split
  · split <;> simp_all
  · simp_all

theorem withRational_cases (s : State) (p : Fmt) (cset : RomId) (k : Format → Poly → Poly → State) :
    (∃ F c d, formatOf s.cfg.ldLayout p = some F ∧ coeffsAt s.cfg p cset = some (.rational c d) ∧
        s.withRational p cset k = k F (c.atFormat F) (d.atFormat F)) ∨
      ((formatOf s.cfg.ldLayout p = none ∨ ∀ c d, coeffsAt s.cfg p cset ≠ some (.rational c d)) ∧
        s.withRational p cset k = s.raiseIllegal) := by
  unfold State.withRational State.withFormat
  split
  · split <;> simp_all
  · simp_all

theorem memberAt_eq_member {α : Type} (c : Config) (p : Fmt) (x : PerFmt α) :
    memberAt c.ldLayout p x = c.member p x := by
  unfold memberAt Config.member
  cases p <;> cases c.ldLayout <;> rfl

theorem formatOf_isSome (c : Config) (p : Fmt) : (formatOf c.ldLayout p).isSome = c.allowsFmt p := by
  unfold Config.allowsFmt
  cases p <;> cases c.ldLayout <;> rfl

theorem tableAt_isSome (c : Config) (p : Fmt) (tbl : RomId) :
    (tableAt c p tbl).isSome = c.hasTable p tbl := by
  unfold tableAt Config.hasTable
  cases c.tables.find? (·.id == tbl) <;> simp [memberAt_eq_member]

/-- The arithmetic the spec decides (R13). -/
theorem arithAt_nearestEven {c : Config} (F : Format) (h : c.arith = .nearestEven) : c.arithAt F = F.arith := by
  simp only [Config.arithAt, h]

/-! The execution template. -/

theorem putN_cases (s : State) (ok : Bool) (r : RegNum) (v : Word32) :
    (ok = true ∧ s.putN ok r v = s.writeN r v) ∨
      (ok = false ∧ s.putN ok r v = (s.writeN r (Config.freeInteger s.freeCount)).useFree) := by
  cases ok <;> simp [State.putN]

theorem putF_cases (s : State) (F : Format) (ok : Bool) (r : RegNum) (v : Scalar) :
    (ok = true ∧ s.putF F ok r v = s.writeF r (F.low v)) ∨
      (ok = false ∧ s.putF F ok r v = (s.writeF r (F.low (Config.freeScalar s.freeCount))).useFree) := by
  cases ok <;> simp [State.putF]

theorem finishN_cases (s : State) (F : Format) (d : Dst) (fs ns : List RegNum) (rom : List Scalar) (v : Word32) :
    (d = .null ∧ s.finishN F d fs ns rom v = s) ∨
      ∃ r, d = .reg r ∧
        s.finishN F d fs ns rom v = (s.noteReads fs ns).putN (s.operandsOk F fs rom) r v := by
  cases d <;> simp [State.finishN]

theorem finishF_cases (s : State) (F : Format) (d : Dst) (fs ns : List RegNum) (rom : List Scalar) (v : Scalar) :
    (d = .null ∧ s.finishF F d fs ns rom v = s) ∨
      ∃ r, d = .reg r ∧
        s.finishF F d fs ns rom v = (s.noteReads fs ns).putF F (s.operandsOk F fs rom) r v := by
  cases d <;> simp [State.finishF]

theorem finishFN_cases (s : State) (F : Format) (d e : Dst) (fs ns : List RegNum) (v : Scalar) (w : Word32) :
    ((d = .null ∨ e = .null) ∧ s.finishFN F d e fs ns v w = s) ∨
      ∃ r q, d = .reg r ∧ e = .reg q ∧
        s.finishFN F d e fs ns v w =
          ((s.noteReads fs ns).putF F (s.operandsOk F fs []) r v).putN (s.operandsOk F fs []) q w := by
  cases d <;> cases e <;> simp [State.finishFN]

/-- No command stops the block (R106, R107). -/
theorem exec_next (i : Instr) (s : State) : ∃ t, exec i s = .next t := by
  cases i <;> exact ⟨_, rfl⟩

/-- What an issued word does (R117). -/
theorem issue_cases (w : Command) (s : State) :
    (∃ i, decode w = .ok i ∧ issue w s = exec i s) ∨
      (∃ r, decode w = .error r ∧ issue w s = .next s.raiseIllegal) := by
  unfold issue
  cases decode w <;> simp

/-- What a step does (R117). -/
theorem step_cases (s : State) :
    (s.host = [] ∧ step s = .next s) ∨
      ∃ m rest, s.host = m :: rest ∧ step s = hostMove m { s with host := rest } := by
  unfold step
  split <;> simp_all

/-- Every move of the host has a next state (R118). -/
theorem hostMove_next (m : HostMove) (s : State) : ∃ t, hostMove m s = .next t := by
  cases m with
  | issue w =>
    obtain ⟨i, -, h⟩ | ⟨_, -, h⟩ := issue_cases w s
    · exact (exec_next i _).imp fun t ht => h.trans ht
    · exact ⟨_, h⟩
  | _ => exact ⟨_, rfl⟩

/-- Every step has a next state (R118). -/
theorem step_next (s : State) : ∃ t, step s = .next t := by
  obtain ⟨-, h⟩ | ⟨m, rest, -, h⟩ := step_cases s
  · exact ⟨_, h⟩
  · exact (hostMove_next m _).imp fun t ht => h.trans ht

/-! Runs and the host's programs. -/

@[simp] theorem andThen_next {σ : Type} (t : State) (k : State → Host.Outcome σ Fault Refusal) :
    andThen (.next t) k = k t := rfl

@[simp] theorem runMoves_nil (s : State) : runMoves [] s = .next s := rfl

@[simp] theorem runMoves_cons (m : HostMove) (ms : List HostMove) (s : State) :
    runMoves (m :: ms) s = andThen (hostMove m s) (runMoves ms) := rfl

@[simp] theorem run_ret (v : Scalar) (s : State) : (HostProgram.ret v).run s = .next (s, v) := rfl

@[simp] theorem run_move (m : HostMove) (k : HostProgram) (s : State) :
    (HostProgram.move m k).run s = andThen (hostMove m s) k.run := rfl

@[simp] theorem run_readF (i : RegNum) (k : Scalar → HostProgram) (s : State) :
    (HostProgram.readF i k).run s =
      (k (s.fReg i)).run ((s.noteReads [i] []).answer (.scalar i (s.fReg i))) := rfl

@[simp] theorem run_readN (i : RegNum) (k : Word32 → HostProgram) (s : State) :
    (HostProgram.readN i k).run s =
      (k (s.nReg i)).run ((s.noteReads [] [i]).answer (.integer i (s.nReg i))) := rfl

@[simp] theorem run_commands_cons (i : Instr) (is : List Instr) (k : HostProgram) :
    HostProgram.commands (i :: is) k = .move (.issue (encode i)) (HostProgram.commands is k) := rfl

/-- A program of the host always comes to its end (R118). -/
theorem run_next (p : HostProgram) (s : State) : ∃ r, p.run s = .next r := by
  induction p generalizing s with
  | ret v => exact ⟨_, rfl⟩
  | move m k ih =>
    obtain ⟨t, ht⟩ := hostMove_next m s
    simpa [ht] using ih t
  | readF i k ih => simpa using ih _ _
  | readN i k ih => simpa using ih _ _

end Sys2Proof.Machine
end

