-- ==== Sys2Proof/Laws/PerInstr.lean ====
section
/-! SUPPORT. Facts stated once per command. -/

namespace Sys2Proof

/-- The mask of an opcode-map row as fields: what ANDing a word with it does, field by field. -/
theorem Fields.toWord_and (x y : Fields) :
    x.toWord &&& y.toWord =
      Fields.toWord ⟨x.op &&& y.op, x.fmt &&& y.fmt, x.da &&& y.da, x.db &&& y.db, x.sa &&& y.sa, x.sb &&& y.sb,
        x.sc &&& y.sc, x.sel &&& y.sel⟩ := by
  refine BitVec.and_append.trans (congrArg₂ _ ?_ rfl)
  simp only [BitVec.and_append]

namespace Laws

/-- The encoding of a command selects the row of the opcode map that has its mnemonic (R52). -/
def SelectsItsRow.Statement (i : Instr) : Prop :=
  ∃ r ∈ opcodeMap, r.mnemonic = i.mnemonic ∧ r.selects (encode i) = true

/-- A command's fields under a mask given as fields. -/
theorem selects_of_fields {i : Instr} (m k : Fields) (name : String)
    (hr : OpRow.mk name m.toWord k.toWord ∈ opcodeMap) (hn : name = i.mnemonic)
    (h : (⟨i.fields.op &&& m.op, i.fields.fmt &&& m.fmt, i.fields.da &&& m.da, i.fields.db &&& m.db,
      i.fields.sa &&& m.sa, i.fields.sb &&& m.sb, i.fields.sc &&& m.sc, i.fields.sel &&& m.sel⟩ : Fields) = k) :
    SelectsItsRow.Statement i :=
  ⟨_, hr, hn, by simp only [OpRow.selects, encode, Fields.toWord_and, h, beq_self_eq_true]⟩

/-- Mask of the rows that use `da` and `sa`. -/
def maskSa : Fields := ⟨31, 0, 0, 15, 0, 7, 7, 255⟩
/-- Mask of `DECOMP`. -/
def maskDbSa : Fields := ⟨31, 0, 0, 0, 0, 7, 7, 255⟩
/-- Mask of the rows that use `da`, `sa` and `sel`. -/
def maskSaSel : Fields := ⟨31, 0, 0, 15, 0, 7, 7, 0⟩
/-- Mask of the rows that use `da`, `sa`, `sb` and `sel`. -/
def maskSaSbSel : Fields := ⟨31, 0, 0, 15, 0, 0, 7, 0⟩
/-- Mask of the rows that use `da`, `sa`, `sb` and `sc`. -/
def maskSaSbSc : Fields := ⟨31, 0, 0, 15, 0, 0, 0, 255⟩
/-- Mask of the rows that use `da`, `sa` and `sb`. -/
def maskSaSb : Fields := ⟨31, 0, 0, 15, 0, 0, 7, 255⟩
/-- The match of a row. -/
def onlyOp (op : BitVec 5) : Fields := ⟨op, 0, 0, 0, 0, 0, 0, 0⟩

namespace SelectsItsRow

theorem xsign (p : Fmt) (d : Dst) (a : RegNum) : Statement (.xsign p d a) :=
  selects_of_fields maskSa (onlyOp 1) "XSIGN" (by decide) rfl (by simp [Instr.fields, maskSa, onlyOp])

theorem xexp (p : Fmt) (d : Dst) (a : RegNum) : Statement (.xexp p d a) :=
  selects_of_fields maskSa (onlyOp 2) "XEXP" (by decide) rfl (by simp [Instr.fields, maskSa, onlyOp])

theorem xman (p : Fmt) (d : Dst) (a : RegNum) : Statement (.xman p d a) :=
  selects_of_fields maskSa (onlyOp 3) "XMAN" (by decide) rfl (by simp [Instr.fields, maskSa, onlyOp])

theorem decomp (p : Fmt) (d e : Dst) (a : RegNum) : Statement (.decomp p d e a) :=
  selects_of_fields maskDbSa (onlyOp 4) "DECOMP" (by decide) rfl (by simp [Instr.fields, maskDbSa, onlyOp])

theorem isnan (p : Fmt) (d : Dst) (a : RegNum) : Statement (.isnan p d a) :=
  selects_of_fields maskSa (onlyOp 5) "ISNAN" (by decide) rfl (by simp [Instr.fields, maskSa, onlyOp])

theorem isinf (p : Fmt) (d : Dst) (a : RegNum) : Statement (.isinf p d a) :=
  selects_of_fields maskSa (onlyOp 6) "ISINF" (by decide) rfl (by simp [Instr.fields, maskSa, onlyOp])

theorem isnaninf (p : Fmt) (d : Dst) (a : RegNum) : Statement (.isnaninf p d a) :=
  selects_of_fields maskSa (onlyOp 7) "ISNANINF" (by decide) rfl (by simp [Instr.fields, maskSa, onlyOp])

theorem issubz (p : Fmt) (d : Dst) (a : RegNum) : Statement (.issubz p d a) :=
  selects_of_fields maskSa (onlyOp 8) "ISSUBZ" (by decide) rfl (by simp [Instr.fields, maskSa, onlyOp])

theorem tindex (p : Fmt) (d : Dst) (a : RegNum) (t : RomId) : Statement (.tindex p d a t) :=
  selects_of_fields maskSaSel (onlyOp 9) "TINDEX" (by decide) rfl (by simp [Instr.fields, maskSaSel, onlyOp])

theorem tload (p : Fmt) (d : Dst) (a : RegNum) (t : RomId) : Statement (.tload p d a t) :=
  selects_of_fields maskSaSel (onlyOp 10) "TLOAD" (by decide) rfl (by simp [Instr.fields, maskSaSel, onlyOp])

theorem resdiv (p : Fmt) (d : Dst) (a b : RegNum) (t : RomId) : Statement (.resdiv p d a b t) :=
  selects_of_fields maskSaSbSel (onlyOp 11) "RESDIV" (by decide) rfl (by simp [Instr.fields, maskSaSbSel, onlyOp])

theorem ressub (p : Fmt) (d : Dst) (a b : RegNum) (t : RomId) : Statement (.ressub p d a b t) :=
  selects_of_fields maskSaSbSel (onlyOp 12) "RESSUB" (by decide) rfl (by simp [Instr.fields, maskSaSbSel, onlyOp])

theorem resmul (p : Fmt) (d : Dst) (a b : RegNum) (t : RomId) : Statement (.resmul p d a b t) :=
  selects_of_fields maskSaSbSel (onlyOp 13) "RESMUL" (by decide) rfl (by simp [Instr.fields, maskSaSbSel, onlyOp])

theorem horner (p : Fmt) (d : Dst) (a : RegNum) (t : RomId) : Statement (.horner p d a t) :=
  selects_of_fields maskSaSel (onlyOp 14) "HORNER" (by decide) rfl (by simp [Instr.fields, maskSaSel, onlyOp])

theorem hornersq (p : Fmt) (d : Dst) (a : RegNum) (t : RomId) : Statement (.hornersq p d a t) :=
  selects_of_fields maskSaSel (onlyOp 15) "HORNERSQ" (by decide) rfl (by simp [Instr.fields, maskSaSel, onlyOp])

theorem rational (p : Fmt) (d : Dst) (a : RegNum) (t : RomId) : Statement (.rational p d a t) :=
  selects_of_fields maskSaSel (onlyOp 16) "RATIONAL" (by decide) rfl (by simp [Instr.fields, maskSaSel, onlyOp])

theorem recadd (p : Fmt) (d : Dst) (a b c : RegNum) : Statement (.recadd p d a b c) :=
  selects_of_fields maskSaSbSc (onlyOp 17) "RECADD" (by decide) rfl (by simp [Instr.fields, maskSaSbSc, onlyOp])

theorem recmul (p : Fmt) (d : Dst) (a b c : RegNum) : Statement (.recmul p d a b c) :=
  selects_of_fields maskSaSbSc (onlyOp 18) "RECMUL" (by decide) rfl (by simp [Instr.fields, maskSaSbSc, onlyOp])

theorem newton3 (p : Fmt) (d : Dst) (a b : RegNum) : Statement (.newton3 p d a b) :=
  selects_of_fields maskSaSb (onlyOp 19) "NEWTON3" (by decide) rfl (by simp [Instr.fields, maskSaSb, onlyOp])

theorem sgncpy (p : Fmt) (d : Dst) (a b : RegNum) : Statement (.sgncpy p d a b) :=
  selects_of_fields maskSaSb (onlyOp 20) "SGNCPY" (by decide) rfl (by simp [Instr.fields, maskSaSb, onlyOp])

theorem sgnclr (p : Fmt) (d : Dst) (a : RegNum) : Statement (.sgnclr p d a) :=
  selects_of_fields maskSa (onlyOp 21) "SGNCLR" (by decide) rfl (by simp [Instr.fields, maskSa, onlyOp])

theorem recomp (p : Fmt) (d : Dst) (a b : RegNum) : Statement (.recomp p d a b) :=
  selects_of_fields maskSaSb (onlyOp 22) "RECOMP" (by decide) rfl (by simp [Instr.fields, maskSaSb, onlyOp])

end SelectsItsRow

end Laws

end Sys2Proof
end

