-- ==== Sys2Proof/Machine/Assembly.lean ====
section
/-! DEFINITION. The textual form of a command (R57), printed. There are no pseudo-instructions (R58). Which case a
name is printed in is a DESIGN CHOICE (log 18), safe: names are case-insensitive. -/

namespace Sys2Proof

/-- The mandatory format suffix. -/
def Fmt.suffix : Fmt → String
  | .S => ".S"
  | .D => ".D"
  | .L => ".L"

/-- A scalar register. -/
def scalarName (r : RegNum) : String := "f" ++ toString r.val

/-- An integer register. -/
def integerName (r : RegNum) : String := "n" ++ toString r.val

/-- A destination in the scalar file. -/
def Dst.scalarName : Dst → String
  | .reg r => Sys2Proof.scalarName r
  | .null => "null"

/-- A destination in the integer file. -/
def Dst.integerName : Dst → String
  | .reg r => Sys2Proof.integerName r
  | .null => "null"

/-- A table id. -/
def tableName (t : RomId) : String := "t" ++ toString t.toNat

/-- A coefficient-set id. -/
def setName (k : RomId) : String := "c" ++ toString k.toNat

/-- The operands of a command, in the order of R53's last column, destinations first. -/
def Instr.operandTexts : Instr → List String
  | .xsign _ d a | .xexp _ d a => [d.integerName, scalarName a]
  | .xman _ d a => [d.scalarName, scalarName a]
  | .decomp _ d e a => [d.scalarName, e.integerName, scalarName a]
  | .isnan _ d a | .isinf _ d a | .isnaninf _ d a | .issubz _ d a => [d.integerName, scalarName a]
  | .tindex _ d a t => [d.integerName, scalarName a, tableName t]
  | .tload _ d a t => [d.scalarName, integerName a, tableName t]
  | .resdiv _ d a b t | .ressub _ d a b t | .resmul _ d a b t =>
    [d.scalarName, scalarName a, integerName b, tableName t]
  | .horner _ d a k | .hornersq _ d a k | .rational _ d a k => [d.scalarName, scalarName a, setName k]
  | .recadd _ d a b c | .recmul _ d a b c => [d.scalarName, integerName a, scalarName b, scalarName c]
  | .newton3 _ d a b | .sgncpy _ d a b => [d.scalarName, scalarName a, scalarName b]
  | .sgnclr _ d a => [d.scalarName, scalarName a]
  | .recomp _ d a b => [d.scalarName, scalarName a, integerName b]

/-- Operands joined as R57 writes them. -/
def joinOperands : List String → String
  | [] => ""
  | [x] => x
  | x :: y :: rest => x ++ ", " ++ joinOperands (y :: rest)

/-- `MNEMONIC.<S|D|L> operand, operand, ...` (R57). -/
def Instr.text (i : Instr) : String :=
  i.mnemonic ++ i.fmt.suffix ++ " " ++ joinOperands i.operandTexts

end Sys2Proof
end

