-- ==== Sys2Proof/Tests/Slice0.lean ====
section
/-! SUPPORT. Tests of one step each, with words and expected results printed in `95_test_vectors.md`, and a witness
for the hypotheses of every obligation that has some. -/

namespace Sys2Proof.Tests

open Sys2Proof.Machine

/-! ## The block of the tests -/

/-- Contents of section 2 of `95_test_vectors.md`, as far as the tests use them; every entry of `t1` is the printed
entry 64. -/
def toyTables : List TableRom := [
  ⟨0, 0, ⟨none, some ⟨#[0x3FF0000000000000], rfl⟩, none⟩⟩,
  ⟨1, 7, ⟨some (.replicate _ 0x3F2AAAAB), some (.replicate _ 0x3FE5555555555555),
    some (.replicate _ 0x3FFEAAAAAAAAAAAAAAAB)⟩⟩,
  ⟨2, 2, ⟨none, some ⟨#[0, 0x3FD0000000000000, 0x3FE0000000000000, 0x3FE8000000000000], rfl⟩, none⟩⟩,
  ⟨3, 2, ⟨none, some ⟨#[0x3FF0000000000000, 0x3FF1400000000000, 0x3FF2400000000000, 0x3FF3400000000000], rfl⟩,
    none⟩⟩]

/-- Sets `c1`, `c2`, `c3`, `c4`, `c6` and `c8` of the same section. -/
def toySets : List CoeffRom := [
  ⟨1, ⟨some (.poly ⟨0x3F800000, [0x40000000, 0x40400000]⟩),
    some (.poly ⟨0x3FF0000000000000, [0x4000000000000000, 0x4008000000000000]⟩),
    some (.poly ⟨0x3FFF8000000000000000, [0x40008000000000000000]⟩)⟩⟩,
  ⟨2, ⟨none, some (.poly ⟨0, [0x3FF0000000000000]⟩), none⟩⟩,
  ⟨4, ⟨none, some (.poly ⟨0x3FE5555555555555, [0x3FD5555555555555]⟩), none⟩⟩,
  ⟨3, ⟨none, some (.rational ⟨0x3FF0000000000000, [0x3FF0000000000000]⟩ ⟨0x4000000000000000, []⟩), none⟩⟩,
  ⟨6, ⟨none, some (.rational ⟨0x3FF0000000000000, []⟩ ⟨0x3FF0000000000000, [0xBFF0000000000000]⟩), none⟩⟩,
  ⟨8, ⟨none, some (.poly ⟨0x4004000000000000, []⟩), none⟩⟩]

/-- The toy configuration under a layout. -/
def toy (l : LdLayout) : Config where
  ldLayout := l
  tables := toyTables
  coeffs := toySets
  kLn2 := ⟨0x3F317218, 0x3FE62E42FEFA39EF, 0x3FFEB17217F7D1CF79AC⟩
  kCbrt2One := ⟨0x3FA14518, 0x3FF428A2F98D728B, 0x3FFFA14517CC6B945711⟩
  kCbrt2Two := ⟨0x3FCB2FF5, 0x3FF965FEA53D6E3D, 0x3FFFCB2FF529EB71E415⟩
  logNearLo := Config.logNearLoExample
  arith := .nearestEven
  hostMap := []
  hostByteOrder := []

/-- A block with a few registers given, the others 0, all of them written. -/
def block (l : LdLayout) (f : List Scalar) (n : List Word32) : State where
  f := .ofFn fun i => f.getD i.val 0
  n := .ofFn fun i => n.getD i.val 0
  fWritten := .replicate 8 true
  nWritten := .replicate 8 true
  status := 0
  cfg := toy l
  host := []
  answers := []
  unwrittenRead := false
  epoch := 0
  freeCount := 0

/-- A block with the extended layout. -/
def ext (f : List Scalar) (n : List Word32) : State := block .extended80 f n

/-- The state after a word is issued. -/
def issued (s : State) (w : Nat) : Option State :=
  match step (s.withFetchWord 32 w) with
  | .next t => some t
  | .fault _ | .refused _ => none

/-- A scalar register after a word is issued. -/
def fAfter (s : State) (w : Nat) (d : RegNum) : Option Scalar := (issued s w).map (·.fReg d)

/-- An integer register after a word is issued. -/
def nAfter (s : State) (w : Nat) (d : RegNum) : Option Word32 := (issued s w).map (·.nReg d)

/-! ## WellFormed: one ill-formed command for each check (R54) -/

theorem test_wellFormed_accepts :
    (Instr.tindex .D (.reg 2) 1 2).wellFormed (toy .extended80) = true ∧
      (Instr.horner .D (.reg 4) 3 1).wellFormed (toy .extended80) = true ∧
      (Instr.rational .D .null 3 3).wellFormed (toy .extended80) = true ∧
      (Instr.xsign .L (.reg 0) 0).wellFormed (toy .extended80) = true := by decide

theorem test_wellFormed_refuses_doubledouble :
    (Instr.xsign .L (.reg 0) 0).wellFormed (toy .doubledouble) = false := by decide

theorem test_wellFormed_refuses_undefined_table :
    (Instr.tindex .D (.reg 2) 1 9).wellFormed (toy .extended80) = false := by decide

theorem test_wellFormed_refuses_table_of_other_format :
    (Instr.tindex .S (.reg 2) 1 2).wellFormed (toy .extended80) = false := by decide

theorem test_wellFormed_refuses_undefined_set :
    (Instr.hornersq .D (.reg 4) 3 9).wellFormed (toy .extended80) = false := by decide

theorem test_wellFormed_refuses_rational_for_horner :
    (Instr.horner .D (.reg 4) 3 3).wellFormed (toy .extended80) = false := by decide

theorem test_wellFormed_refuses_poly_for_rational :
    (Instr.rational .D (.reg 4) 3 1).wellFormed (toy .extended80) = false := by decide

/-! ## Decoding: every operation's word, section 4.1 -/

theorem test_decode_decomposer :
    decode 0x0A614000 = .ok (.xsign .D (.reg 3) 5) ∧ decode 0x12614000 = .ok (.xexp .D (.reg 3) 5) ∧
      decode 0x1A414000 = .ok (.xman .D (.reg 2) 5) ∧
      decode 0x22220000 = .ok (.decomp .D (.reg 1) (.reg 1) 0) ∧
      decode 0x24220000 = .ok (.decomp .L (.reg 1) (.reg 1) 0) ∧
      decode 0x23E20000 = .ok (.decomp .D .null (.reg 1) 0) ∧
      decode 0x223E0000 = .ok (.decomp .D (.reg 1) .null 0) := by decide

theorem test_decode_classifier :
    decode 0x2A600000 = .ok (.isnan .D (.reg 3) 0) ∧ decode 0x32600000 = .ok (.isinf .D (.reg 3) 0) ∧
      decode 0x3A000000 = .ok (.isnaninf .D (.reg 0) 0) ∧
      decode 0x42600000 = .ok (.issubz .D (.reg 3) 0) := by decide

theorem test_decode_indexer :
    decode 0x48404001 = .ok (.tindex .S (.reg 2) 1 1) ∧ decode 0x52408001 = .ok (.tload .D (.reg 2) 2 1) ∧
      decode 0x5A605001 = .ok (.resdiv .D (.reg 3) 1 2 1) ∧
      decode 0x62605001 = .ok (.ressub .D (.reg 3) 1 2 1) ∧
      decode 0x6A605001 = .ok (.resmul .D (.reg 3) 1 2 1) := by decide

theorem test_decode_evaluator :
    decode 0x7280C001 = .ok (.horner .D (.reg 4) 3 1) ∧ decode 0x7A80C001 = .ok (.hornersq .D (.reg 4) 3 1) ∧
      decode 0x8280C003 = .ok (.rational .D (.reg 4) 3 3) := by decide

theorem test_decode_recombiner :
    decode 0x8AA06200 = .ok (.recadd .D (.reg 5) 1 4 2) ∧ decode 0x92A06200 = .ok (.recmul .D (.reg 5) 1 4 2) ∧
      decode 0x9AA17000 = .ok (.newton3 .D (.reg 5) 5 6) ∧ decode 0xA2A14000 = .ok (.sgncpy .D (.reg 5) 5 0) ∧
      decode 0xAAC00000 = .ok (.sgnclr .D (.reg 6) 0) ∧ decode 0xB2404800 = .ok (.recomp .D (.reg 2) 1 1) := by
  decide

/-- The fields of R47 by their positions, on one word of each operand shape, every used field different from the
others: op, fmt, da, db, sa, sb, sc, sel. -/
theorem test_decode_bit_by_bit :
    decode 0b00100_10_0111_0011_101_000_000_00000000 = .ok (.decomp .L (.reg 7) (.reg 3) 5) ∧
      decode 0b01001_00_0110_0000_011_000_000_11111110 = .ok (.tindex .S (.reg 6) 3 254) ∧
      decode 0b01011_01_0100_0000_001_110_000_10000001 = .ok (.resdiv .D (.reg 4) 1 6 129) ∧
      decode 0b10000_10_1111_0000_010_000_000_01000000 = .ok (.rational .L .null 2 64) ∧
      decode 0b10010_01_0101_0000_001_100_010_00000000 = .ok (.recmul .D (.reg 5) 1 4 2) ∧
      decode 0b10110_00_0010_0000_111_001_000_00000000 = .ok (.recomp .S (.reg 2) 7 1) := by decide

/-- Section 4.2: words whose bits are illegal. -/
theorem test_decode_refuses :
    decode 0x00000000 = .error .reservedOp ∧ decode 0xFFFFFFFF = .error .reservedOp ∧
      decode 0xB8000000 = .error .reservedOp ∧ decode 0x26220000 = .error .reservedFmt ∧
      decode 0x23020000 = .error .reservedDst ∧ decode 0x0A020000 = .error .unusedField ∧
      decode 0x0A000001 = .error .unusedField ∧ decode 0xAAC00800 = .error .unusedField ∧
      decode 0x9AA17100 = .error .unusedField ∧ decode 0x8AA06205 = .error .unusedField := by decide

/-- What the host asks of a table row: the decoder's answer, and the first step after reset. -/
theorem test_table_word :
    decodeTableWord 32 0x2A600000 = some (.isnan .D (.reg 3) 0) ∧ decodeTableWord 32 0xB8000000 = none ∧
      step (State.reset.withFetchWord 32 0x2A600000) = exec (.isnan .D (.reg 3) 0) State.reset :=
  ⟨by decide, by decide, rfl⟩

/-- R57's example. -/
theorem test_text : (Instr.decomp .D (.reg 1) (.reg 1) 0).text = "DECOMP.D f1, n1, f0" := by decide

/-! ## One step of each operation, section 3 -/

theorem test_xsign : nAfter (ext [0, 0, 0, 0, 0, 0xC018000000000000] []) 0x0A614000 3 = some 1 := by decide

theorem test_xexp : nAfter (ext [0, 0, 0, 0, 0, 0xC018000000000000] []) 0x12614000 3 = some 0x401 := by decide

theorem test_xman : fAfter (ext [0, 0, 0, 0, 0, 0x3FB999999999999A] []) 0x1A414000 2 = some 0x999999999999A := by
  decide

/-- The stored integer bit is part of the extended mantissa field, row X2. -/
theorem test_xman_extended :
    fAfter (ext [0, 0, 0, 0, 0, 0xC001C000000000000000] []) 0x1C414000 2 = some 0xC000000000000000 := by decide

theorem test_decomp_normal :
    fAfter (ext [0xC018000000000000] []) 0x22220000 1 = some 0x3FF8000000000000 ∧
      nAfter (ext [0xC018000000000000] []) 0x22220000 1 = some 2 := by decide +kernel

/-- Row X3, the smallest extended subnormal. -/
theorem test_decomp_subnormal :
    fAfter (ext [1] []) 0x24220000 1 = some 0x3FFF8000000000000000 ∧
      nAfter (ext [1] []) 0x24220000 1 = some 0xFFFFBFC3 := by decide +kernel

theorem test_isnan :
    nAfter (ext [0x7FF0000000000001] []) 0x2A600000 3 = some 1 ∧
      nAfter (ext [0x7FF0000000000000] []) 0x2A600000 3 = some 0 := by decide

theorem test_isinf :
    nAfter (ext [0xFFF0000000000000] []) 0x32600000 3 = some 1 ∧
      nAfter (ext [0x7FF8000000000000] []) 0x32600000 3 = some 0 := by decide

theorem test_isnaninf :
    nAfter (ext [0x7FF8000000000000] []) 0x3A000000 0 = some 1 ∧
      nAfter (ext [0x7FEFFFFFFFFFFFFF] []) 0x3A000000 0 = some 0 := by decide

theorem test_issubz :
    nAfter (ext [0x8000000000000000] []) 0x42600000 3 = some 1 ∧
      nAfter (ext [0x0010000000000000] []) 0x42600000 3 = some 0 := by decide

/-- Row I6. -/
theorem test_tindex : nAfter (ext [0, 0x3FF999999999999A] []) 0x4A404001 2 = some 76 := by decide

/-- The integer bit is no part of the index. -/
theorem test_tindex_extended : nAfter (ext [0, 0x3FFFC000000000000000] []) 0x4C404001 2 = some 64 := by decide

/-- The index is masked: 0xFFFFFFFE reads entry 2 of the four of `t2`. -/
theorem test_tload : fAfter (ext [] [0, 0, 0xFFFFFFFE]) 0x52408002 2 = some 0x3FE0000000000000 := by decide

/-- Row Z2, and the special operands below the table. -/
theorem test_resdiv :
    fAfter (ext [0, 0x3FF8000000100000] [0, 0, 64]) 0x5A605001 3 = some 0x3FF00000000AAAAB ∧
      fAfter (ext [0, 0x7FF0000000000001] [0, 0, 3]) 0x5A605001 3 = some 0x7FF8000000000000 := by decide +kernel

theorem test_ressub :
    fAfter (ext [0, 0x3FF8000000100000] [0, 0, 64]) 0x62605001 3 = some 0x3DF0000000000000 := by decide +kernel

/-- Rows Z1 and Z2: a tie to even, and two roundings where RESDIV has one. -/
theorem test_resmul :
    fAfter (ext [0, 0x3FF8000000000000] [0, 0, 64]) 0x6A605001 3 = some 0x3FF0000000000000 ∧
      fAfter (ext [0, 0x3FF8000000100000] [0, 0, 64]) 0x6A605001 3 = some 0x3FF00000000AAAAA := by decide +kernel

theorem test_horner :
    fAfter (ext [0, 0, 0, 0x3FB999999999999A] []) 0x7280C001 4 = some 0x3FF3AE147AE147AE := by decide +kernel

/-- Degree 0 does not look at the argument, a NaN here. -/
theorem test_horner_degree_zero :
    fAfter (ext [0, 0, 0, 0x7FF0000000000001] []) 0x7280C008 4 = some 0x4004000000000000 := by decide +kernel

theorem test_hornersq :
    fAfter (ext [0, 0, 0, 0xBFB999999999999A] []) 0x7A80C001 4 = some 0x3FF0532617C1BDA5 := by decide +kernel

theorem test_rational :
    fAfter (ext [0, 0, 0, 0x3FB999999999999A] []) 0x8280C003 4 = some 0x3FE199999999999A ∧
      fAfter (ext [0, 0, 0, 0x3FF0000000000000] []) 0x8280C006 4 = some 0x7FF0000000000000 := by decide +kernel

/-- Rows A7 and A4. -/
theorem test_recadd :
    fAfter (ext [0, 0, 0x3FD0000000000000, 0, 0x3FC0000000000000] [0, 1]) 0x8AA06200 5 =
        some 0x3FF117217F7D1CF8 ∧
      fAfter (ext [0, 0, 0x8000000000000000, 0, 0x8000000000000000] [0, 0]) 0x8AA06200 5 = some 0 := by
  decide +kernel

/-- Rows M7 and M6: the remainder of a negative exponent. -/
theorem test_recmul :
    fAfter (ext [0, 0, 0x3FF8000000000000, 0, 0x3FF4000000000000] [0, 2]) 0x92A06200 5 =
        some 0x4007CF9EBAE9975A ∧
      fAfter (ext [0, 0, 0x3FF0000000000000, 0, 0x3FF0000000000000] [0, 0xFFFFFFFC]) 0x92A06200 5 =
        some 0x3FD965FEA53D6E3D := by decide +kernel

/-- Row W3; the destination is the source `y`. -/
theorem test_newton3 :
    fAfter (ext [0, 0, 0, 0, 0, 0x4008CCCCCCCCCCCD, 0x403B000000000000] []) 0x9AA17000 5 =
      some 0x4008068910ECB217 := by decide +kernel

/-- Replaced, not multiplied; the payload of a NaN is kept. -/
theorem test_sgncpy :
    fAfter (ext [0xC020000000000000, 0, 0, 0, 0, 0xC000000000000000] []) 0xA2A14000 5 = some 0xC000000000000000 ∧
      fAfter (ext [0xC020000000000000, 0, 0, 0, 0, 0x7FF0000000000001] []) 0xA2A14000 5 =
        some 0xFFF0000000000001 := by decide

theorem test_sgnclr : fAfter (ext [0xFFF0000000000001] []) 0xAAC00000 6 = some 0x7FF0000000000001 := by decide

/-- Rows K7 and K16. -/
theorem test_recomp :
    fAfter (ext [0, 0x3FF8000000000000] [0, 0xFFFFFBCD]) 0xB2404800 2 = some 1 ∧
      fAfter (ext [0, 0x3FF0000000000000] [0, 0x7FFFFFFF]) 0xB2404800 2 = some 0x7FF0000000000000 := by
  decide +kernel

/-- Section 4.2: an illegal word sets `STATUS.ILL` and nothing else, bits and ROM domains alike. -/
theorem test_illegal :
    issued (ext [1] [2]) 0xB8000000 = some { ext [1] [2] with status := 1 } ∧
      issued (ext [1] [2]) 0x4A404009 = some { ext [1] [2] with status := 1 } ∧
      issued (block .doubledouble [1] [2]) 0x24220000 = some { block .doubledouble [1] [2] with status := 1 } := by
  decide +kernel

/-- A `NULL` destination: nothing changes (R63). -/
theorem test_null :
    issued (ext [0x4018000000000000] [9]) 0x223E0000 = some (ext [0x4018000000000000] [9]) := by decide +kernel

/-- Row X11: an ill-formed operand gives a free value, and the command completes. -/
theorem test_ill_formed_operand :
    nAfter (ext [0, 0, 0, 0, 0, 0x3FFF0000000000000000] []) 0x0C614000 3 = some (Config.freeInteger 0) := rfl

/-! ## Runs and calls, section 5 -/

/-- The toy block right after reset. -/
def fresh : State := { State.reset with cfg := toy .extended80 }

/-- What a host's program returns, and one thing of the state it leaves. -/
def returned {α : Type} (p : HostProgram) (s : State) (f : State → α) : Option (Scalar × α) :=
  match p.run s with
  | .next (t, v) => some (v, f t)
  | .fault _ | .refused _ => none

/-- P1: the round trip, the sign restored. -/
theorem test_round_trip :
    ∃ t, runMoves (.writeF 0 0xC018000000000000 ::
        issueAll [.decomp .D (.reg 1) (.reg 1) 0, .recomp .D (.reg 2) 1 1, .sgncpy .D (.reg 3) 2 0]) fresh = .next t ∧
      (t.fReg 2, t.fReg 3, t.nReg 1, t.runOk) = (0x4018000000000000, 0xC018000000000000, 2, true) :=
  ⟨_, rfl, by decide +kernel⟩

/-- The plan of P2: table `t2`, set `c2`, the additive residual. -/
def toyLog (z : ZeroTest) : LogPlan := ⟨.D, z, 2, 2, .sub, false, 2, .oneMinusX⟩

/-- P4 run a: three tests, `QNAN`; of the scalar registers `f0` and `f5` alone are written. -/
theorem test_log_negative :
    returned (logCall (toy .extended80) .double (toyLog .xman) 0xBFF0000000000000) fresh
        (fun t => (t.nReg 3, t.fWritten, t.runOk)) =
      some (0x7FF8000000000000, 1, #v[true, false, false, false, false, true, false, false], true) := by
  decide +kernel

/-- P4 run b: `-0` gives `-inf` before the sign is looked at; with either test for a zero. -/
theorem test_log_zero :
    returned (logCall (toy .extended80) .double (toyLog .xman) 0x8000000000000000) fresh
        (fun t => (t.nReg 3, t.fReg 7)) = some (0xFFF0000000000000, 1, 0) ∧
      returned (logCall (toy .extended80) .double (toyLog .decomp) 0x8000000000000000) fresh
        (fun t => (t.nReg 3, t.fReg 7)) = some (0xFFF0000000000000, 1, 0x8000000000000000) := by decide +kernel

/-- P4 runs c and d. -/
theorem test_log_passthrough :
    returned (logCall (toy .extended80) .double (toyLog .xman) 0xFFF8000000000001) fresh State.runOk =
        some (0xFFF8000000000001, true) ∧
      returned (logCall (toy .extended80) .double (toyLog .xman) 0x7FF0000000000000) fresh State.runOk =
        some (0x7FF0000000000000, true) := by decide +kernel

/-- P2 runs b, c and e, the last through P4 run e. -/
theorem test_log_general :
    returned (logCall (toy .extended80) .double (toyLog .xman) 0x3FF0000000000000) fresh State.runOk =
        some (0, true) ∧
      returned (logCall (toy .extended80) .double (toyLog .xman) 0x402E000000000000) fresh State.runOk =
        some (0x4007A2B23F3BAB73, true) ∧
      returned (logCall (toy .extended80) .double (toyLog .xman) 1) fresh State.runOk =
        some (0xC0874385446D71C3, true) := by decide +kernel

/-- 0.995 lies in the near range: with the identity set the call returns `1 - x`, which is 0.005 exactly as the double
0.995 leaves it. -/
theorem test_log_near :
    (returned (logCall (toy .extended80) .double (toyLog .xman) 0x3FEFD70A3D70A3D7) fresh State.runOk).map
      (fun r => (Format.double.val r.1, r.2)) =
      some (.finite (1 - Format.double.finiteVal 0x3FEFD70A3D70A3D7), true) := by decide +kernel

/-- The plan of P3: table `t3`, set `c4`. -/
def toyCubeRoot : CubeRootPlan := ⟨.D, .xman, 3, 4, .div⟩

/-- P3 runs a and c. -/
theorem test_cube_root :
    returned (cubeRootCall .double toyCubeRoot 0xC020000000000000) fresh State.runOk =
        some (0xC000000000000000, true) ∧
      returned (cubeRootCall .double toyCubeRoot 0xC03B000000000000) fresh State.runOk =
        some (0xC0080006685800F5, true) := by decide +kernel

/-- `cbrt(x) = x` for an infinity and for a zero (R99). -/
theorem test_cube_root_special :
    returned (cubeRootCall .double toyCubeRoot 0xFFF0000000000000) fresh State.runOk =
        some (0xFFF0000000000000, true) ∧
      returned (cubeRootCall .double toyCubeRoot 0x8000000000000000) fresh State.runOk =
        some (0x8000000000000000, true) := by decide +kernel

/-- P6, and a run whose first move reads an unwritten register and whose second is a reset: both have gone wrong
(R119). P5's word has, and a reset clears it. -/
theorem test_runs_gone_wrong :
    (∃ t, runMoves [.issue 0x0A000000] fresh = .next t ∧ t.runOk = false) ∧
      (∃ t, runMoves [.issue 0x0BE00000] fresh = .next t ∧ t.runOk = true) ∧
      (∃ t, runMoves [.readF 0, .reset] fresh = .next t ∧ t.runOk = false) ∧
      (∃ t, runMoves [.issue 0x26220000] fresh = .next t ∧ t.runOk = false) ∧
      ∃ t, runMoves [.issue 0x26220000, .reset] fresh = .next t ∧ t.runOk = true :=
  ⟨⟨_, rfl, by decide +kernel⟩, ⟨_, rfl, by decide +kernel⟩, ⟨_, rfl, by decide +kernel⟩,
    ⟨_, rfl, by decide +kernel⟩, ⟨_, rfl, by decide +kernel⟩⟩

/-- The example value of `LOG_NEAR_LO` (D38). -/
theorem test_near_lo : Config.logNearLoExample.toRat = 99 / 100 := by decide +kernel

/-- R28. -/
theorem test_config : configWord (toy .quad128) = 0x0A := by decide

/-! ## Witnesses: the hypotheses of each obligation, met together -/

theorem witness_EncodeOfDecode_OneRowPerDecodedWord :
    decode 0x08000000 = .ok (.xsign .S (.reg 0) 0) ∧ decode 0xB5FDF800 = .error .unusedField ∧
      decode 0xB5E1F800 = .ok (.recomp .L .null 7 7) := by decide

theorem witness_StepRunsDecodedCommand :
    (ext [1] []).withFetchWord 32 0x0A614000 = { ext [1] [] with host := [.issue 0x0A614000] } ∧
      decode 0x0A614000 = .ok (.xsign .D (.reg 3) 5) ∧ decode 0x26220000 = .error .reservedFmt := by decide +kernel

/-- One word for each way to be illegal: bits, layout, table, set, kind; and the last with a `NULL` destination. -/
theorem witness_IllegalWordOnlySetsIll :
    legalWord (toy .extended80) 0xB8000000 = false ∧ legalWord (toy .doubledouble) 0x24220000 = false ∧
      legalWord (toy .extended80) 0x48404002 = false ∧ legalWord (toy .extended80) 0x7280C009 = false ∧
      legalWord (toy .extended80) 0x7280C003 = false ∧ legalWord (toy .extended80) 0x8280C001 = false ∧
      legalWord (toy .extended80) 0x4BE04009 = false := by decide

/-- `STATUS.ILL` before, and each kind of move. -/
theorem witness_IllBitAfterStep :
    ({ ext [] [] with status := 1 }).ill = true ∧ (ext [] []).ill = false ∧
      (∃ t, step (ext [] []) = .next t) ∧ (∃ t, step { ext [] [] with host := [.reset] } = .next t) ∧
      (∃ t, step { ext [] [] with host := [.issue 0xB8000000] } = .next t) ∧
      (∃ t, step { ext [] [] with host := [.issue 0x0BE00000] } = .next t) ∧
      ∃ t, step { ext [] [] with host := [.readStatus] } = .next t :=
  ⟨by decide, by decide, ⟨_, rfl⟩, ⟨_, rfl⟩, ⟨_, rfl⟩, ⟨_, rfl⟩, ⟨_, rfl⟩⟩

theorem witness_NullDestinationIsNoOp :
    (Instr.decomp .D .null (.reg 1) 0).wellFormed (ext [] []).cfg = true ∧
      Dst.null ∈ (Instr.decomp .D .null (.reg 1) 0).dsts ∧ Dst.null ∈ (Instr.decomp .D (.reg 1) .null 0).dsts ∧
      (Instr.tindex .D .null 0 2).wellFormed (ext [] []).cfg = true ∧
      Dst.null ∈ (Instr.tindex .D .null 0 2).dsts := by decide

/-- For `FrameOfEveryCommand`, `WritesAndReadsAreRecorded`, `UpperBitsWrittenZero` and `UpperBitsNotRead`: a command
with destinations in both files, and two states that differ above bit 63. -/
theorem witness_frames_and_upper_bits :
    let i := Instr.decomp .D (.reg 1) (.reg 2) 0
    let s := ext [0x4018000000000000] []
    let s' := ext [0xFFFF0000000000004018000000000000] []
    i.wellFormed s.cfg = true ∧ Dst.null ∉ i.dsts ∧ formatOf s.cfg.ldLayout i.fmt = some .double ∧
      Dst.reg 1 ∈ i.scalarDsts ∧ Dst.reg 0 ∉ i.scalarDsts ∧ Dst.reg 2 ∈ i.integerDsts ∧
      Dst.reg 1 ∉ i.integerDsts ∧ s' = { s with f := s'.f } ∧ s'.f ≠ s.f ∧
      (∀ r, (s'.fReg r).toNat % 2 ^ Format.double.W = (s.fReg r).toNat % 2 ^ Format.double.W) ∧
      (∃ t, exec i s = .next t) ∧ ∃ t, exec i s' = .next t := by
  refine ⟨?_, ?_, ?_, ?_, ?_, ?_, ?_, rfl, ?_, ?_, ⟨_, rfl⟩, ⟨_, rfl⟩⟩ <;> decide +kernel

theorem witness_LongDoubleActsAsDouble : (block .binary64 [] []).cfg.ldLayout = .binary64 := rfl

theorem witness_ConfigurationNeverChanges : ∃ t, step { ext [] [] with host := [.reset] } = .next t := ⟨_, rfl⟩

/-- Register `f0` written, the others as reset left them. -/
def partlyWritten : State := State.reset.writeF 0 0x3FF0000000000000

theorem witness_StepKeepsInvariant :
    partlyWritten.blockInvariant ∧ ∃ t, step { partlyWritten with host := [.writeN 3 7] } = .next t := by
  refine ⟨⟨by decide, rfl, fun i => ?_, fun i => ?_⟩, ⟨_, rfl⟩⟩
  · fin_cases i <;> first | exact fun _ => rfl | exact fun h => absurd h (by decide)
  · fin_cases i <;> exact fun _ => rfl

/-- Two blocks that hold different values in `f1`, which nothing has written, and a command that reads `f0`. -/
theorem witness_UnwrittenValuesDoNotMatter :
    let s := { block .extended80 [0x3FF0000000000000, 5] [] with
      fWritten := #v[true, false, true, true, true, true, true, true], host := [.issue 0x0A600000] }
    let s' := { block .extended80 [0x3FF0000000000000, 9] [] with
      fWritten := #v[true, false, true, true, true, true, true, true], host := [.issue 0x0A600000] }
    s.agreeOnWritten s' ∧ s ≠ s' ∧ (∃ t, step s = .next t ∧ t.unwrittenRead = false) ∧
      ∃ t, step s' = .next t := by
  refine ⟨⟨?_, ?_, rfl, rfl, rfl, rfl, rfl, rfl, rfl, rfl, rfl⟩, by decide, ⟨_, rfl, by decide +kernel⟩, ⟨_, rfl⟩⟩
  · decide
  · decide

theorem witness_ResetLeaves_HostMovesAct :
    ({ ext [] [] with host := [.reset, .readStatus] }).host = .reset :: [.readStatus] ∧
      ({ ext [] [] with host := [.writeF 7 1] }).host = .writeF 7 1 :: [] ∧
      ({ ext [] [] with host := [.writeN 7 1] }).host = .writeN 7 1 :: [] ∧
      ({ ext [] [] with host := [.readF 7] }).host = .readF 7 :: [] ∧
      ({ ext [] [] with host := [.readN 7] }).host = .readN 7 :: [] ∧
      ({ ext [] [] with host := [.readConfig] }).host = .readConfig :: [] := ⟨rfl, rfl, rfl, rfl, rfl, rfl⟩

/-- Each class at the ends of its range, in a format without and in the one with an integer bit. -/
theorem witness_ValueOfPattern :
    ([(0x8000000000000000, .zero), (1, .subnormal), (0x000FFFFFFFFFFFFF, .subnormal), (0x0010000000000000, .normal),
        (0x7FEFFFFFFFFFFFFF, .normal), (0xFFF0000000000000, .infinite), (0x7FF0000000000001, .nan)].all
      fun x => Format.double.classOf x.1 == x.2) = true ∧
    ([(0, .zero), (0x00007FFFFFFFFFFFFFFF, .subnormal), (0x00018000000000000000, .normal),
        (0xFFFEFFFFFFFFFFFFFFFF, .normal), (0x7FFF8000000000000000, .infinite), (0xFFFFFFFFFFFFFFFFFFFF, .nan)].all
      fun x => Format.extended80.wellFormed x.1 && Format.extended80.classOf x.1 == x.2) = true := by decide +kernel

theorem witness_RoundingRule : 0 < 1 ∧ 0 < 3 := by decide

/-- For `SumRule`, `ProductRule`, `QuotientRule` and `ConversionAndScalingRule`: a well-formed pattern of each class,
the finite ones at the ends of their ranges. -/
theorem witness_arithmetic_classes :
    ([0, 0x80000000000000000000, 1, 0x00007FFFFFFFFFFFFFFF, 0x00018000000000000000, 0x7FFEFFFFFFFFFFFFFFFF,
        0x7FFF8000000000000000, 0xFFFF8000000000000000, 0x7FFF8000000000000001].all fun b =>
      Format.extended80.wellFormed b && Format.extended80.low b == b) = true ∧
    ([0, 0x80000000000000000000].all fun b => Format.extended80.classOf b == .zero) = true ∧
    ([1, 0x00007FFFFFFFFFFFFFFF, 0x00018000000000000000, 0x7FFEFFFFFFFFFFFFFFFF].all
      Format.extended80.isFiniteNonzero) = true ∧
    ([0x7FFF8000000000000000, 0xFFFF8000000000000000].all fun b => Format.extended80.classOf b == .infinite) = true ∧
    Format.extended80.classOf 0x7FFF8000000000000001 = .nan := by decide +kernel

/-- For `SumRule`: a sum that is 0 and one that is not. -/
theorem witness_SumRule :
    Format.single.isFinite 0x3F800000 = true ∧ Format.single.isFinite 0xBF800000 = true ∧
      Format.single.finiteVal 0x3F800000 + Format.single.finiteVal 0xBF800000 = 0 ∧
      Format.single.finiteVal 0x3F800000 + Format.single.finiteVal 0x3F800000 ≠ 0 := by
  simp only [Format.finiteVal]
  refine ⟨by decide, by decide, ?_, ?_⟩ <;> decide +kernel

/-- For `ConversionAndScalingRule`: the scales at which the two limits begin. -/
theorem witness_ConversionAndScalingRule :
    (2 * Format.double.bias + Format.double.Fb : Int) ≤ 2098 ∧
      (-2099 : Int) ≤ -(2 * Format.double.bias + Format.double.Fb + 1) ∧
      (0 : Word32).toInt = 0 ∧ (0x80000000 : Word32).toInt ≠ 0 := by decide

/-- For the results of the commands with one or two scalar sources: every register a well-formed pattern, also at the
extended format, a subnormal among them. -/
theorem witness_well_formed_operands :
    formatOf (ext [1] []).cfg.ldLayout .L = some .extended80 ∧
      (∀ i, Format.extended80.wellFormed ((ext [1, 0x3FFFC000000000000000] []).fr .extended80 i) = true) ∧
      formatOf (ext [] []).cfg.ldLayout .S = some .single ∧
      (∀ i, Format.single.wellFormed ((ext [1] []).fr .single i) = true) ∧
      formatOf (block .quad128 [] []).cfg.ldLayout .L = some .quad128 := by decide

/-- For `DecompResults`: a pattern for each branch, the subnormal ones at both ends. -/
theorem witness_DecompResults :
    Format.double.bexp 0xFFF0000000000000 = Format.double.emax ∧
      (Format.double.bexp 0x8000000000000000 = 0 ∧ Format.double.man 0x8000000000000000 = 0) ∧
      (Format.double.bexp 1 = 0 ∧ Format.double.man 1 ≠ 0) ∧
      (Format.double.bexp 0x000FFFFFFFFFFFFF = 0 ∧ Format.double.man 0x000FFFFFFFFFFFFF ≠ 0) ∧
      (Format.double.bexp 0x0010000000000000 ≠ 0 ∧
        Format.double.bexp 0x0010000000000000 ≠ Format.double.emax) := by decide

/-- For `DecompositionContract`, `DecompExponentRange` and `PredicatesAgreeWithDecomp`. -/
theorem witness_DecompositionContract :
    Format.extended80.wellFormed 1 = true ∧ Format.extended80.isFiniteNonzero 1 = true ∧
      Format.extended80.isFiniteNonzero 0x80000000000000000000 = false ∧
      (Format.extended80.isNanOrInf 0x3FFF8000000000000000 = false ∧
        Format.extended80.isSubnormalOrZero 0x3FFF8000000000000000 = false) := by decide

/-- Both ends of the range of `K`. -/
theorem witness_NormalisationConstantNotObservable :
    Format.double.wellFormed 1 = true ∧ Format.double.classOf 1 = .subnormal ∧ Format.double.Fb ≤ 52 ∧
      52 ≤ 2 * Format.double.bias - 1 ∧ Format.double.Fb ≤ 2045 ∧ 2045 ≤ 2 * Format.double.bias - 1 := by decide

/-- A table of 4 entries with an index beyond it, one of a single entry, and one at the extended format. -/
theorem witness_tables :
    (tableAt (toy .extended80) .D 2).map (·.bits.val) = some 2 ∧
      (2 : Fin (2 ^ 2)).val = ((ext [] [0xFFFFFFFE]).nReg 0).toNat % 2 ^ 2 ∧
      (tableAt (toy .extended80) .D 0).map (·.bits.val) = some 0 ∧
      (tableAt (toy .extended80) .L 1).map (·.bits.val) = some 7 ∧
      (tableAt (toy .extended80) .L 1).any
        (fun T => T.entries.all fun v => Format.extended80.wellFormed (Format.extended80.low v)) = true := by
  decide +kernel

/-- For `BracketProperty`, `AdditiveResidualExact`, `MultiplicativeResidualRange` and `MaskedIndexAndBreakPoint`: the
least and the greatest mantissa in `[1, 2)`, and one equal to a break-point. -/
theorem witness_BracketProperty :
    ([0x3FFF8000000000000000, 0x3FFFC000000000000000, 0x3FFFFFFFFFFFFFFFFFFF].all fun m =>
      Format.extended80.wellFormed m && !Format.extended80.sgn m &&
        Format.extended80.bexp m == Format.extended80.bias) = true ∧
      Format.extended80.frac 0x3FFFC000000000000000 % 2 ^ (Format.extended80.Fb - 7) = 0 ∧ 127 < 2 ^ 7 := by
  decide +kernel

theorem witness_HornerIsTheLoop : (Poly.mk 1 [2, 3]).toList.reverse = 3 :: [2, 1] ∧
    (Poly.mk 1 []).toList.reverse = 1 :: [] := by decide

/-- For `EvaluatorResults` and `SquareArgumentIsEven`. -/
theorem witness_EvaluatorResults :
    let s := ext [0x4000C000000000000000, 0xC000C000000000000000] []
    (∃ c, coeffsAt s.cfg .L 1 = some (.poly c) ∧
      (c.toList.all fun v => Format.extended80.wellFormed (Format.extended80.low v)) = true) ∧
    (∃ c q, coeffsAt s.cfg .D 3 = some (.rational c q) ∧
      ((c.toList ++ q.toList).all fun v => Format.double.wellFormed (Format.double.low v)) = true) ∧
    s.cfg.hasPoly .L 1 = true ∧ s.fr .extended80 1 = Format.extended80.neg (s.fr .extended80 0) ∧
    ∃ t, exec (.hornersq .L (.reg 2) 1 1) s = .next t :=
  ⟨⟨_, rfl, by decide +kernel⟩, ⟨_, _, rfl, by decide +kernel⟩, by decide +kernel, by decide +kernel, ⟨_, rfl⟩⟩

theorem witness_RecaddResult :
    ([(ext [] []).fr .extended80 0, (ext [] []).fr .extended80 1, kLn2 (toy .extended80) .extended80 .L].all
      Format.extended80.wellFormed) = true ∧
    Format.extended80.isFinite (kLn2 (toy .extended80) .extended80 .L) = true ∧
    Format.extended80.sgn (kLn2 (toy .extended80) .extended80 .L) = false := by decide +kernel

/-- Each remainder, at the least and the greatest exponent and at -1. -/
theorem witness_RecmulResult :
    (0x80000000 : Word32).toInt = 3 * -715827883 + 1 ∧ (0x7FFFFFFF : Word32).toInt = 3 * 715827882 + 1 ∧
      (0xFFFFFFFF : Word32).toInt = 3 * -1 + 2 ∧ (0xFFFFFFFD : Word32).toInt = 3 * -1 + 0 ∧
      ([0, 1, 2].all fun r =>
        [(ext [] []).fr .extended80 0, (ext [] []).fr .extended80 1, kCbrt2 (toy .extended80) .extended80 .L r].all
          Format.extended80.wellFormed) = true := by decide +kernel

/-- For `RecompResult` and `RecompOfDecompIsMagnitude`: a finite non-zero operand, and the other classes. -/
theorem witness_RecompResult :
    let s := ext [1, 0, 0x7FFF8000000000000000, 0x7FFFC000000000000000] []
    Format.extended80.isFiniteNonzero (s.fr .extended80 0) = true ∧
      Format.extended80.classOf (s.fr .extended80 1) = .zero ∧
      Format.extended80.classOf (s.fr .extended80 2) = .infinite ∧
      Format.extended80.classOf (s.fr .extended80 3) = .nan ∧
      ∃ t, exec (.decomp .L (.reg 1) (.reg 1) 0) s = .next t ∧
        ∃ u, exec (.recomp .L (.reg 2) 1 1) t = .next u :=
  ⟨by decide, by decide, by decide, by decide, ⟨_, rfl, _, rfl⟩⟩

theorem witness_RunOfMoves_UnwrittenReadAfterStep :
    { fresh with host := [.readF 0, .reset, .readStatus] }.host = [.readF 0, .reset] ++ [.readStatus] ∧
      (∃ t, step { fresh with host := [.readF 0, .reset, .readStatus] } = .next t) ∧
      HostMove.readsUnwritten (.readF 0) fresh = true ∧ HostMove.readsUnwritten (.issue 0x0BE00000) fresh = false :=
  ⟨rfl, ⟨_, rfl⟩, by decide, by decide +kernel⟩

/-- For `LogarithmCall`: an argument for each clause (the classes at both signs, the near range, 1.0), with contents
for each form of residual and approximant. -/
theorem witness_LogarithmCall :
    (formatOf fresh.cfg.ldLayout .D = some .double ∧ fresh.cfg.arith = .nearestEven) ∧
      Format.double.classOf 0xFFF0000000000000 = .infinite ∧ Format.double.sgn 0xFFF0000000000000 = true ∧
      Format.double.isFiniteNonzero 0x3FEFD70A3D70A3D7 = true ∧
      nearIdentity fresh.cfg .double 0x3FEFD70A3D70A3D7 = true ∧
      nearIdentity fresh.cfg .double Format.double.one = false ∧
      (tableAt fresh.cfg .D 2).any (fun T =>
        T.read .double (T.idx 0) == Format.double.zero false &&
          [ResidualForm.div, .sub, .mul 1].all fun r =>
            (r.value fresh.cfg .double .D T (Format.double.decompose Format.double.one).1 0).isSome) = true ∧
      approximantValue fresh.cfg .double .D false 2 0 = some (Format.double.zero false) ∧
      (approximantValue fresh.cfg .double .D true 3 0).isSome = true ∧
      Format.double.wellFormed (kLn2 fresh.cfg .double .D) = true ∧
      Format.double.isFinite (kLn2 fresh.cfg .double .D) = true ∧
      Format.double.sgn (kLn2 fresh.cfg .double .D) = false := by decide +kernel

theorem witness_CubeRootCall :
    (formatOf fresh.cfg.ldLayout .D = some .double ∧ fresh.cfg.arith = .nearestEven) ∧
      Format.double.classOf 0x8000000000000000 = .zero ∧ Format.double.low 0x8000000000000000 = 0x8000000000000000 ∧
      (ext [5] [6]).cfg = fresh.cfg ∧ fresh ≠ ext [5] [6] ∧
      toyCubeRoot.romOk fresh.cfg .double ∧ (⟨.D, .decomp, 3, 4, .mul 1⟩ : CubeRootPlan).romOk fresh.cfg .double := by
  refine ⟨by decide, by decide, by decide, rfl, fun h => absurd (congrArg State.fWritten h) (by decide),
    ⟨⟨_, rfl, ?_⟩, ⟨_, rfl, ?_⟩, fun tR h => ?_, ?_, ?_⟩, ⟨_, rfl, ?_⟩, ⟨_, rfl, ?_⟩, fun tR h => ?_, ?_, ?_⟩
  case refine_3 => cases h
  case refine_8 =>
    obtain rfl : 1 = tR := RatioForm.mul.inj h
    exact ⟨_, rfl, by decide +kernel⟩
  all_goals decide +kernel

end Sys2Proof.Tests
end

/-! SUPPORT. The formats (R12) and their patterns (R18 to R20): the fields as arithmetic on the pattern, the fields of a
packed pattern, the classes, and the values. -/

namespace Sys2Proof.Machine

namespace Format

variable (F : Format)

/-! The parameters of a format (R12). -/

theorem W_sub_one : F.W - 1 = F.E + (F.Fb + F.J) := by
  simp only [W]; omega

theorem W_le : F.W ≤ 128 := by cases F <;> decide

theorem two_pow_W : 2 ^ F.W = 2 ^ (F.Fb + F.J) * 2 ^ F.E * 2 := by
  rw [← pow_add, ← pow_succ]; congr 1; simp only [W]; omega

theorem two_pow_W_sub_one : 2 ^ (F.W - 1) = 2 ^ F.E * 2 ^ (F.Fb + F.J) := by
  rw [W_sub_one, pow_add]

theorem emax_eq : F.emax = 2 * F.bias + 1 := by cases F <;> rfl

theorem two_pow_E : 2 ^ F.E = 2 * F.bias + 2 := by cases F <;> rfl

theorem bias_pos : 0 < F.bias := by cases F <;> decide

theorem Fb_pos : 0 < F.Fb := by cases F <;> decide

theorem J_cases : F.J = 0 ∨ F.J = 1 := by cases F <;> decide

/-- The mantissa field has room for the fraction and, where it is stored, for the integer bit. -/
theorem two_pow_Fb_add_J : 2 ^ (F.Fb + F.J) = 2 ^ F.Fb + F.J * 2 ^ F.Fb := by
  obtain h | h := F.J_cases <;> rw [h] <;> ring

/-! The fields as arithmetic on the pattern, and the pattern as its fields (R18). -/

theorem sgn_eq (b : Scalar) : F.sgn b = decide (b.toNat / 2 ^ (F.Fb + F.J) / 2 ^ F.E % 2 = 1) := by
  rw [sgn, ← BitVec.testBit_toNat, Nat.testBit_eq_decide_div_mod_eq, Nat.div_div_eq_div_mul, two_pow_W_sub_one,
    Nat.mul_comm]

theorem bexp_eq (b : Scalar) : F.bexp b = b.toNat / 2 ^ (F.Fb + F.J) % 2 ^ F.E := by
  rw [bexp, BitVec.extractLsb'_toNat, Nat.shiftRight_eq_div_pow, W_sub_one, Nat.add_sub_cancel_left]

theorem frac_eq (b : Scalar) : F.frac b = b.toNat % 2 ^ F.Fb := by
  rw [frac, BitVec.extractLsb'_toNat, Nat.shiftRight_zero]

theorem man_eq (b : Scalar) : F.man b = b.toNat % 2 ^ (F.Fb + F.J) := by
  rw [man, BitVec.extractLsb'_toNat, Nat.shiftRight_zero]

theorem bexp_lt (b : Scalar) : F.bexp b < 2 ^ F.E := BitVec.isLt _

theorem bexp_le (b : Scalar) : F.bexp b ≤ F.emax := by
  have := F.bexp_lt b
  have := F.two_pow_E
  have := F.emax_eq
  omega

theorem man_lt (b : Scalar) : F.man b < 2 ^ (F.Fb + F.J) := BitVec.isLt _

theorem frac_lt (b : Scalar) : F.frac b < 2 ^ F.Fb := BitVec.isLt _

theorem frac_eq_man_mod (b : Scalar) : F.frac b = F.man b % 2 ^ F.Fb := by
  rw [frac_eq, man_eq, Nat.mod_mod_of_dvd _ (pow_dvd_pow 2 (Nat.le_add_right _ _))]

theorem toNat_low (b : Scalar) : (F.low b).toNat = b.toNat % 2 ^ F.W := by
  rw [low, BitVec.toNat_setWidth, BitVec.toNat_setWidth, Nat.mod_eq_of_lt]
  exact (Nat.mod_lt _ (Nat.two_pow_pos _)).trans_le (Nat.pow_le_pow_right two_pos F.W_le)

theorem toNat_low_lt (b : Scalar) : (F.low b).toNat < 2 ^ F.W := by
  rw [toNat_low]; exact Nat.mod_lt _ (Nat.two_pow_pos _)

theorem low_eq_self_iff (b : Scalar) : F.low b = b ↔ b.toNat < 2 ^ F.W := by
  refine ⟨fun h => h ▸ F.toNat_low_lt b, fun h => BitVec.eq_of_toNat_eq ?_⟩
  rw [toNat_low, Nat.mod_eq_of_lt h]

theorem toNat_pack (s : Bool) (be m : Nat) :
    (F.pack s be m).toNat =
      s.toNat * 2 ^ (F.W - 1) + be % 2 ^ F.E * 2 ^ (F.Fb + F.J) + m % 2 ^ (F.Fb + F.J) := by
  have hw : 1 + F.E + (F.Fb + F.J) ≤ 128 := by simpa only [W, Nat.add_comm F.Fb, Nat.add_assoc] using F.W_le
  rw [pack, BitVec.toNat_setWidth,
    Nat.mod_eq_of_lt ((BitVec.isLt _).trans_le (Nat.pow_le_pow_right two_pos hw)), BitVec.toNat_append,
    BitVec.toNat_append, BitVec.toNat_ofBool, BitVec.toNat_ofNat, BitVec.toNat_ofNat,
    ← Nat.shiftLeft_add_eq_or_of_lt (Nat.mod_lt _ (Nat.two_pow_pos _)),
    ← Nat.shiftLeft_add_eq_or_of_lt (Nat.mod_lt _ (Nat.two_pow_pos _)), Nat.shiftLeft_eq, Nat.shiftLeft_eq,
    two_pow_W_sub_one]
  ring

theorem toNat_sgn (b : Scalar) : (F.sgn b).toNat = b.toNat / (2 ^ (F.Fb + F.J) * 2 ^ F.E) % 2 := by
  rw [sgn_eq, Nat.div_div_eq_div_mul]
  obtain h | h := Nat.mod_two_eq_zero_or_one (b.toNat / (2 ^ (F.Fb + F.J) * 2 ^ F.E)) <;> simp [h]

/-- A pattern is made of its three fields. -/
theorem pack_fields (b : Scalar) : F.pack (F.sgn b) (F.bexp b) (F.man b) = F.low b := by
  apply BitVec.eq_of_toNat_eq
  rw [toNat_pack, toNat_low, two_pow_W, Nat.mod_mul, Nat.mod_mul, Nat.mod_eq_of_lt (F.bexp_lt b),
    Nat.mod_eq_of_lt (F.man_lt b), toNat_sgn, man_eq, bexp_eq, two_pow_W_sub_one]
  ring

/-! The fields of a packed pattern. -/

section

variable {F} {s : Bool} {be m : Nat}

theorem toNat_pack_div (s : Bool) (be m : Nat) :
    (F.pack s be m).toNat / 2 ^ (F.Fb + F.J) = s.toNat * 2 ^ F.E + be % 2 ^ F.E := by
  rw [toNat_pack, two_pow_W_sub_one, ← Nat.mul_assoc, ← Nat.add_mul, Nat.add_comm,
    Nat.add_mul_div_right _ _ (Nat.two_pow_pos _), Nat.div_eq_of_lt (Nat.mod_lt _ (Nat.two_pow_pos _)), Nat.zero_add]

@[simp] theorem low_pack : F.low (F.pack s be m) = F.pack s be m := by
  have hb := Nat.mod_lt be (Nat.two_pow_pos F.E)
  have hs := Nat.mul_le_mul_right (2 ^ F.E) (Bool.toNat_le s)
  rw [low_eq_self_iff, two_pow_W, Nat.mul_assoc, Nat.mul_comm, ← Nat.div_lt_iff_lt_mul (Nat.two_pow_pos _),
    toNat_pack_div]
  omega

@[simp] theorem sgn_pack : F.sgn (F.pack s be m) = s := by
  rw [sgn_eq, toNat_pack_div, Nat.add_comm, Nat.add_mul_div_right _ _ (Nat.two_pow_pos _),
    Nat.div_eq_of_lt (Nat.mod_lt _ (Nat.two_pow_pos _))]
  cases s <;> rfl

theorem bexp_pack (h : be ≤ F.emax) : F.bexp (F.pack s be m) = be := by
  rw [bexp_eq, toNat_pack_div, Nat.mul_add_mod_self_right, Nat.mod_mod]
  exact Nat.mod_eq_of_lt (by have := F.emax_eq; have := F.two_pow_E; omega)

theorem man_pack (h : m < 2 ^ (F.Fb + F.J)) : F.man (F.pack s be m) = m := by
  rw [man_eq, toNat_pack, two_pow_W_sub_one, ← Nat.mul_assoc, ← Nat.add_mul,
    Nat.mul_add_mod_self_right, Nat.mod_mod, Nat.mod_eq_of_lt h]

theorem frac_pack (h : m < 2 ^ (F.Fb + F.J)) : F.frac (F.pack s be m) = m % 2 ^ F.Fb := by
  rw [frac_eq_man_mod, man_pack h]

end

/-! Well-formed patterns and their significand (R19). -/

theorem jbit_eq (b : Scalar) (hJ : F.J = 1) : F.jbit b = decide (2 ^ F.Fb ≤ F.man b) := by
  have hlt := F.man_lt b
  have hdiv : b.toNat / 2 ^ F.Fb % 2 = F.man b / 2 ^ F.Fb := by
    rw [man_eq, hJ, pow_succ, Nat.mod_mul_right_div_self]
  rw [hJ, pow_succ] at hlt
  rw [jbit, ← BitVec.testBit_toNat, Nat.testBit_eq_decide_div_mod_eq, hdiv]
  have := Nat.div_lt_of_lt_mul hlt
  congr 1
  rw [eq_iff_iff, ← Nat.one_le_div_iff (Nat.two_pow_pos _)]
  omega

/-- The integer bit, where it is stored, stands at the top of the mantissa field. -/
theorem wellFormed_iff (b : Scalar) :
    F.wellFormed b = true ↔ (F.J = 1 → (2 ^ F.Fb ≤ F.man b ↔ F.bexp b ≠ 0)) := by
  unfold wellFormed
  obtain hJ | hJ := F.J_cases
  · simp [hJ]
  · rw [jbit_eq F b hJ, hJ]
    by_cases h0 : F.bexp b = 0
    · simp [h0]
    · simp [h0, bne_iff_ne.mpr h0]

variable {F} {b : Scalar}

theorem man_of_wellFormed (h : F.wellFormed b = true) :
    F.man b = if F.bexp b = 0 then F.frac b else F.leadingOne (F.frac b) := by
  rw [wellFormed_iff] at h
  have hlt := F.man_lt b
  rw [two_pow_Fb_add_J] at hlt
  rw [frac_eq_man_mod, leadingOne]
  obtain hJ | hJ := F.J_cases
  · simp only [hJ, Nat.zero_mul, Nat.zero_add, Nat.add_zero, ite_self] at hlt ⊢
    exact (Nat.mod_eq_of_lt hlt).symm
  · rw [hJ, Nat.one_mul] at hlt
    rw [hJ, Nat.one_mul]
    split
    · next h0 => exact (Nat.mod_eq_of_lt (by have := h hJ; omega)).symm
    · next h0 =>
      have hle := (h hJ).mpr h0
      rw [Nat.mod_eq_sub_mod hle, Nat.mod_eq_of_lt (by omega)]
      omega

theorem sig_of_wellFormed (h : F.wellFormed b = true) :
    F.sig b = if F.bexp b = 0 then F.frac b else 2 ^ F.Fb + F.frac b := by
  unfold sig
  split
  · next hJ => rw [man_of_wellFormed h, leadingOne, hJ, Nat.one_mul]
  · rfl

theorem sig_lt (h : F.wellFormed b = true) : F.sig b < 2 ^ (F.Fb + 1) := by
  have := F.frac_lt b
  rw [sig_of_wellFormed h, pow_succ]
  split <;> omega

/-! The classes (R19). -/

theorem classOf_eq_nan_iff : F.classOf b = .nan ↔ F.bexp b = F.emax ∧ F.frac b ≠ 0 := by
  unfold classOf; split_ifs <;> simp_all

theorem classOf_eq_infinite_iff : F.classOf b = .infinite ↔ F.bexp b = F.emax ∧ F.frac b = 0 := by
  unfold classOf; split_ifs <;> simp_all

theorem emax_ne_zero : F.emax ≠ 0 := by rw [emax_eq]; omega

theorem classOf_eq_zero_iff : F.classOf b = .zero ↔ F.bexp b = 0 ∧ F.man b = 0 := by
  have := F.emax_ne_zero
  unfold classOf; split_ifs <;> simp_all

theorem classOf_eq_subnormal_iff : F.classOf b = .subnormal ↔ F.bexp b = 0 ∧ F.man b ≠ 0 := by
  have := F.emax_ne_zero
  unfold classOf; split_ifs <;> simp_all

theorem classOf_eq_normal_iff : F.classOf b = .normal ↔ F.bexp b ≠ 0 ∧ F.bexp b ≠ F.emax := by
  have := F.emax_ne_zero
  unfold classOf; split_ifs <;> simp_all

theorem isFinite_iff : F.isFinite b = true ↔ F.classOf b = .zero ∨ F.isFiniteNonzero b = true := by
  unfold isFiniteNonzero isFinite
  cases F.classOf b <;> decide

theorem isFiniteNonzero_iff :
    F.isFiniteNonzero b = true ↔ F.classOf b = .subnormal ∨ F.classOf b = .normal := by
  unfold isFiniteNonzero isFinite
  cases F.classOf b <;> decide

theorem classOf_of_isFinite (h : F.isFinite b = true) :
    F.classOf b = .zero ∨ F.classOf b = .subnormal ∨ F.classOf b = .normal := by
  rwa [isFinite_iff, isFiniteNonzero_iff] at h

theorem isFinite_iff_bexp : F.isFinite b = true ↔ F.bexp b ≠ F.emax := by
  unfold isFinite classOf
  have := F.emax_ne_zero.symm
  split_ifs <;> simp_all

theorem sig_eq_zero_iff (h : F.wellFormed b = true) : F.sig b = 0 ↔ F.bexp b = 0 ∧ F.man b = 0 := by
  have := Nat.two_pow_pos F.Fb
  rw [sig_of_wellFormed h, man_of_wellFormed h]
  split_ifs with h0 <;> simp [h0]

theorem sig_pos (h : F.wellFormed b = true) (hb : F.isFiniteNonzero b = true) : 0 < F.sig b := by
  rw [Nat.pos_iff_ne_zero, Ne, sig_eq_zero_iff h]
  rintro ⟨h0, hm⟩
  rw [isFiniteNonzero_iff, classOf_eq_subnormal_iff, classOf_eq_normal_iff] at hb
  simp [h0, hm] at hb

theorem sig_of_zero (h : F.wellFormed b = true) (hb : F.classOf b = .zero) : F.sig b = 0 :=
  (sig_eq_zero_iff h).mpr (classOf_eq_zero_iff.mp hb)

/-! The values (R20). -/

theorem val_eq_finite_iff {q : Rat} : F.val b = .finite q ↔ F.isFinite b = true ∧ F.finiteVal b = q := by
  unfold val isFinite
  cases F.classOf b <;> simp

theorem val_of_isFinite (h : F.isFinite b = true) : F.val b = .finite (F.finiteVal b) :=
  val_eq_finite_iff.mpr ⟨h, rfl⟩

theorem finiteVal_of_zero (h : F.wellFormed b = true) (hb : F.classOf b = .zero) : F.finiteVal b = 0 := by
  rw [finiteVal, sig_of_zero h hb, Nat.cast_zero, mul_zero, zero_mul]

theorem finiteVal_of_bexp_eq_zero (h : F.bexp b = 0) :
    F.finiteVal b = (if F.sgn b then -1 else 1) * (F.sig b : Rat) * (2 : Rat) ^ (1 - F.bias - F.Fb : Int) := by
  rw [finiteVal, unitExp, if_pos h]

theorem finiteVal_of_bexp_ne_zero (h : F.bexp b ≠ 0) :
    F.finiteVal b =
      (if F.sgn b then -1 else 1) * (F.sig b : Rat) * (2 : Rat) ^ ((F.bexp b : Int) - F.bias - F.Fb) := by
  rw [finiteVal, unitExp, if_neg h]

/-- The value of a normal pattern by its fraction: the source's `1.mantissa` (R20). -/
theorem finiteVal_of_normal (hw : F.wellFormed b = true)
    (h : F.classOf b = .normal) :
    F.finiteVal b = (if F.sgn b then -1 else 1) * (1 + (F.frac b : Rat) / 2 ^ F.Fb) *
      (2 : Rat) ^ ((F.bexp b : Int) - F.bias) := by
  have h0 := (classOf_eq_normal_iff.mp h).1
  have hpow : (2 : Rat) ^ F.Fb ≠ 0 := pow_ne_zero _ two_ne_zero
  rw [finiteVal_of_bexp_ne_zero h0, sig_of_wellFormed hw, if_neg h0, zpow_sub₀ two_ne_zero _ (F.Fb : Int),
    zpow_natCast]
  push_cast
  field_simp

/-! Packed zeros and subnormals. -/

section

variable {s : Bool} {k : Nat}

theorem lt_two_pow_Fb_add_J (h : k < 2 ^ F.Fb) : k < 2 ^ (F.Fb + F.J) :=
  h.trans_le (Nat.pow_le_pow_right two_pos (Nat.le_add_right _ _))

@[simp] theorem bexp_pack_zero : F.bexp (F.pack s 0 k) = 0 := bexp_pack (Nat.zero_le _)

theorem wellFormed_pack_zero (h : k < 2 ^ F.Fb) : F.wellFormed (F.pack s 0 k) = true := by
  rw [wellFormed_iff, man_pack (lt_two_pow_Fb_add_J h), bexp_pack_zero]
  omega

theorem sig_pack_zero (h : k < 2 ^ F.Fb) : F.sig (F.pack s 0 k) = k := by
  rw [sig_of_wellFormed (wellFormed_pack_zero h), bexp_pack_zero, if_pos rfl, frac_pack (lt_two_pow_Fb_add_J h),
    Nat.mod_eq_of_lt h]

theorem val_pack_zero (h : k < 2 ^ F.Fb) :
    F.val (F.pack s 0 k) = .finite ((if s then -1 else 1) * (k * (2 : Rat) ^ (1 - F.bias - F.Fb : Int))) := by
  rw [val_of_isFinite, finiteVal_of_bexp_eq_zero bexp_pack_zero, sgn_pack, sig_pack_zero h, mul_assoc]
  rw [isFinite_iff_bexp, bexp_pack_zero]
  exact F.emax_ne_zero.symm

end

/-! Packed patterns with a leading one: normal ones, infinities and quiet NaNs. -/

section

variable {s : Bool} {be fr : Nat}

theorem leadingOne_lt (h : fr < 2 ^ F.Fb) : F.leadingOne fr < 2 ^ (F.Fb + F.J) := by
  rw [two_pow_Fb_add_J, leadingOne]; omega

theorem wellFormed_pack_leadingOne (hbe : be ≤ F.emax) (h0 : be ≠ 0) (h : fr < 2 ^ F.Fb) :
    F.wellFormed (F.pack s be (F.leadingOne fr)) = true := by
  rw [wellFormed_iff, man_pack (leadingOne_lt h), bexp_pack hbe, leadingOne]
  intro hJ
  simp [hJ, h0]

theorem frac_pack_leadingOne (h : fr < 2 ^ F.Fb) : F.frac (F.pack s be (F.leadingOne fr)) = fr := by
  rw [frac_pack (leadingOne_lt h), leadingOne, Nat.mul_add_mod_self_right, Nat.mod_eq_of_lt h]

theorem sig_pack_leadingOne (hbe : be ≤ F.emax) (h0 : be ≠ 0) (h : fr < 2 ^ F.Fb) :
    F.sig (F.pack s be (F.leadingOne fr)) = 2 ^ F.Fb + fr := by
  rw [sig_of_wellFormed (wellFormed_pack_leadingOne hbe h0 h), bexp_pack hbe, if_neg h0, frac_pack_leadingOne h]

theorem val_pack_leadingOne (hbe : be < F.emax) (h0 : be ≠ 0) (h : fr < 2 ^ F.Fb) :
    F.val (F.pack s be (F.leadingOne fr)) = .finite ((if s then -1 else 1) *
      (((2 ^ F.Fb + fr : Nat) : Rat) * (2 : Rat) ^ ((be : Int) - F.bias - F.Fb))) := by
  have hb : F.bexp (F.pack s be (F.leadingOne fr)) = be := bexp_pack hbe.le
  rw [val_of_isFinite, finiteVal_of_bexp_ne_zero (hb.trans_ne h0), sgn_pack, sig_pack_leadingOne hbe.le h0 h, hb,
    mul_assoc]
  rw [isFinite_iff_bexp, hb]
  exact hbe.ne

theorem wellFormed_inf : F.wellFormed (F.inf s) = true :=
  wellFormed_pack_leadingOne le_rfl F.emax_ne_zero (Nat.two_pow_pos _)

theorem wellFormed_zero : F.wellFormed (F.zero s) = true := wellFormed_pack_zero (Nat.two_pow_pos _)

theorem wellFormed_qnan : F.wellFormed F.qnan = true :=
  wellFormed_pack_leadingOne le_rfl F.emax_ne_zero
    (Nat.pow_lt_pow_right one_lt_two (Nat.sub_lt F.Fb_pos one_pos))

end

/-! Patterns of a format. -/

/-- A well-formed pattern with zeros above the width of its format. -/
def IsPattern (F : Format) (p : Scalar) : Prop := F.wellFormed p = true ∧ F.low p = p

theorem isPattern_inf (s : Bool) : F.IsPattern (F.inf s) := ⟨wellFormed_inf, low_pack⟩

theorem isPattern_zero (s : Bool) : F.IsPattern (F.zero s) := ⟨wellFormed_zero, low_pack⟩

theorem isPattern_qnan : F.IsPattern F.qnan := ⟨wellFormed_qnan, low_pack⟩

end Format

end Sys2Proof.Machine

/-! SUPPORT. Rounding (R21): the nearest integer, the exponent of a quotient, and `rnd` as the rounding of the exact
number it is given. -/

namespace Sys2Proof.Machine

/-! The integer nearest to a quotient. -/

/-- `k` is an integer nearest to `q`, the even one at a tie (R21). -/
def IsNearestEven (q : Rat) (k : Nat) : Prop :=
  |q - k| ≤ 1 / 2 ∧ (|q - k| = 1 / 2 → Even k)

theorem nearestEven_cases (n d : Nat) :
    (nearestEven n d = n / d ∧ 2 * (n % d) ≤ d ∧ (2 * (n % d) = d → Even (n / d))) ∨
      (nearestEven n d = n / d + 1 ∧ d ≤ 2 * (n % d) ∧ (2 * (n % d) = d → Even (n / d + 1))) := by
  simp only [nearestEven, Nat.even_iff]
  split_ifs <;> omega

theorem isNearestEven_nearestEven {n d : Nat} (hd : 0 < d) : IsNearestEven (n / d) (nearestEven n d) := by
  have hd' : (0 : Rat) < d := by exact_mod_cast hd
  have hsplit : (n : Rat) / d = (n / d : Nat) + (n % d : Nat) / d := by
    rw [div_eq_iff hd'.ne', add_mul, div_mul_cancel₀ _ hd'.ne', mul_comm]
    exact_mod_cast (Nat.div_add_mod n d).symm
  have hmod : (n % d : Nat) ≤ (d : Rat) := by exact_mod_cast (Nat.mod_lt n hd).le
  obtain ⟨hk, hle, heven⟩ | ⟨hk, hle, heven⟩ := nearestEven_cases n d
  · have hdist : |(n : Rat) / d - nearestEven n d| = (n % d : Nat) / d := by
      rw [hk, hsplit, add_sub_cancel_left, abs_of_nonneg (by positivity)]
    rw [IsNearestEven, hdist, hk, div_le_div_iff₀ hd' two_pos, div_eq_div_iff hd'.ne' two_ne_zero]
    exact ⟨by norm_cast; omega, fun h => heven (by norm_cast at h; omega)⟩
  · have hdist : |(n : Rat) / d - nearestEven n d| = (d - (n % d : Nat)) / d := by
      rw [hk, hsplit, Nat.cast_succ, add_sub_add_left_eq_sub, abs_sub_comm, sub_div, div_self hd'.ne',
        abs_of_nonneg (sub_nonneg.mpr (div_le_one_of_le₀ hmod hd'.le))]
    have hle' : (d : Rat) ≤ 2 * (n % d : Nat) := by exact_mod_cast hle
    rw [IsNearestEven, hdist, hk, div_le_div_iff₀ hd' two_pos, div_eq_div_iff hd'.ne' two_ne_zero]
    exact ⟨by linarith, fun h => heven (by exact_mod_cast (by linarith : (2 : Rat) * (n % d : Nat) = d))⟩

section

variable {q : Rat} {k N : Nat}

theorem IsNearestEven.le_of_le (h : IsNearestEven q k) (hq : (N : Rat) ≤ q) : N ≤ k := by
  have := (abs_le.mp h.1).2
  have : (N : Rat) < k + 1 := by linarith
  exact Nat.lt_succ_iff.mp (by exact_mod_cast this)

theorem IsNearestEven.ge_of_le (h : IsNearestEven q k) (hq : q ≤ N) : k ≤ N := by
  have := (abs_le.mp h.1).1
  have : (k : Rat) < N + 1 := by linarith
  exact Nat.lt_succ_iff.mp (by exact_mod_cast this)

theorem IsNearestEven.eq_zero_of_lt (h : IsNearestEven q k) (hq : q < 1 / 2) : k = 0 := by
  have := (abs_le.mp h.1).1
  have : (k : Rat) < 1 := by linarith
  exact Nat.lt_one_iff.mp (by exact_mod_cast this)

end

/-! The binary exponent of a quotient. -/

theorem intLog_eq {r : Rat} {z : Int} (hlo : (2 : Rat) ^ z ≤ r) (hhi : r < (2 : Rat) ^ (z + 1)) :
    Int.log 2 r = z := by
  have hr : 0 < r := (zpow_pos two_pos z).trans_le hlo
  have h1 := (Int.zpow_le_iff_le_log (b := 2) one_lt_two hr).mp hlo
  have h2 := (Int.lt_zpow_iff_log_lt (b := 2) one_lt_two hr).mp hhi
  omega

theorem zpow_intLog_le {r : Rat} (hr : 0 < r) : (2 : Rat) ^ Int.log 2 r ≤ r :=
  Int.zpow_log_le_self one_lt_two hr

theorem lt_zpow_intLog_add_one (r : Rat) : r < (2 : Rat) ^ (Int.log 2 r + 1) :=
  Int.lt_zpow_succ_log_self one_lt_two r

theorem intLog_mul_zpow {r : Rat} (hr : 0 < r) (x : Int) : Int.log 2 (r * 2 ^ x) = Int.log 2 r + x := by
  have hx : (0 : Rat) < 2 ^ x := zpow_pos two_pos x
  apply intLog_eq
  · rw [zpow_add₀ two_ne_zero]
    exact mul_le_mul_of_nonneg_right (zpow_intLog_le hr) hx.le
  · rw [add_right_comm, zpow_add₀ two_ne_zero]
    exact mul_lt_mul_of_pos_right (lt_zpow_intLog_add_one r) hx

/-- A quotient scaled by shifting its numerator or its denominator. -/
theorem shiftLeft_div_shiftLeft (n d : Nat) (t : Int) :
    ((n <<< t.toNat : Nat) : Rat) / ((d <<< (-t).toNat : Nat) : Rat) = n / d * 2 ^ t := by
  have ht : t = (t.toNat : Int) - ((-t).toNat : Int) := by omega
  conv_rhs => rw [ht, zpow_sub₀ two_ne_zero, zpow_natCast, zpow_natCast]
  rw [Nat.shiftLeft_eq, Nat.shiftLeft_eq]
  push_cast
  rw [div_mul_div_comm]

theorem shiftLeft_pos {d : Nat} (hd : 0 < d) (k : Nat) : 0 < d <<< k := by
  rw [Nat.shiftLeft_eq]
  exact Nat.mul_pos hd (Nat.two_pow_pos _)

theorem zpow_le_div_iff {n d : Nat} (hd : 0 < d) (g : Int) :
    d <<< g.toNat ≤ n <<< (-g).toNat ↔ (2 : Rat) ^ g ≤ n / d := by
  have h := shiftLeft_div_shiftLeft n d (-g)
  have hpos : (0 : Rat) < ((d <<< g.toNat : Nat) : Rat) := by exact_mod_cast shiftLeft_pos hd _
  rw [neg_neg] at h
  rw [← Nat.cast_le (α := Rat), ← one_le_div hpos, h, zpow_neg, ← div_eq_mul_inv, one_le_div (zpow_pos two_pos g)]

theorem floorLog2_eq {n d : Nat} (hn : 0 < n) (hd : 0 < d) : floorLog2 n d = Int.log 2 ((n : Rat) / d) := by
  have hd' : (0 : Rat) < d := by exact_mod_cast hd
  have hnlo : (2 : Rat) ^ (n.log2 : Int) ≤ n := by exact_mod_cast Nat.log2_self_le hn.ne'
  have hnhi : (n : Rat) < 2 ^ (n.log2 + 1 : Int) := by exact_mod_cast Nat.lt_log2_self
  have hdlo : (2 : Rat) ^ (d.log2 : Int) ≤ d := by exact_mod_cast Nat.log2_self_le hd.ne'
  have hdhi : (d : Rat) < 2 ^ (d.log2 + 1 : Int) := by exact_mod_cast Nat.lt_log2_self
  symm
  simp only [floorLog2, zpow_le_div_iff hd]
  split
  · next h =>
    apply intLog_eq h
    rw [div_lt_iff₀ hd']
    calc (n : Rat) < 2 ^ (n.log2 + 1 : Int) := hnhi
      _ = 2 ^ ((n.log2 : Int) - d.log2 + 1) * 2 ^ (d.log2 : Int) := by
        rw [← zpow_add₀ two_ne_zero]; congr 1; ring
      _ ≤ _ := mul_le_mul_of_nonneg_left hdlo (zpow_nonneg two_pos.le _)
  · next h =>
    apply intLog_eq
    · rw [le_div_iff₀ hd']
      calc (2 : Rat) ^ ((n.log2 : Int) - d.log2 - 1) * d
          ≤ 2 ^ ((n.log2 : Int) - d.log2 - 1) * 2 ^ (d.log2 + 1 : Int) :=
            mul_le_mul_of_nonneg_left hdhi.le (zpow_nonneg two_pos.le _)
        _ = 2 ^ (n.log2 : Int) := by rw [← zpow_add₀ two_ne_zero]; congr 1; ring
        _ ≤ n := hnlo
    · rw [sub_add_cancel]
      exact not_le.mp h

/-! A magnitude in a format. -/

namespace Format

/-- `p` is the pattern of sign `s` and magnitude `v`, or the infinity of that sign when `v` is out of range (R21). -/
def Represents (F : Format) (s : Bool) (v : Rat) (p : Scalar) : Prop :=
  if (2 : Rat) ^ (F.bias + 1) ≤ v then p = F.inf s
  else F.val p = .finite ((if s then -1 else 1) * v) ∧ F.sgn p = s ∧ F.wellFormed p = true ∧ F.low p = p

/-- The exponent R21 gives a number: that of its leading one, and no less than the least of the format. -/
def roundExp (F : Format) (r : Rat) : Int := max (Int.log 2 |r|) (1 - F.bias)

theorem isRounding_iff {F : Format} {r : Rat} {p : Scalar} :
    F.IsRounding r p ↔ ∃ k : Nat, IsNearestEven (|r| / 2 ^ (F.roundExp r - F.Fb)) k ∧
      F.Represents (decide (r < 0)) (k * 2 ^ (F.roundExp r - F.Fb)) p := by
  simp only [IsRounding, roundExp, IsNearestEven, Represents, and_assoc, decide_eq_true_eq]

variable {F : Format} {s : Bool}

theorem Represents.isPattern {v : Rat} {p : Scalar} (h : F.Represents s v p) : F.IsPattern p := by
  unfold Represents at h
  split at h
  · exact h ▸ isPattern_inf s
  · exact h.2.2

theorem IsRounding.isPattern {r : Rat} {p : Scalar} (h : F.IsRounding r p) : F.IsPattern p := by
  obtain ⟨k, -, hp⟩ := isRounding_iff.mp h
  exact hp.isPattern

theorem represents_pack_zero {k : Nat} (hk : k < 2 ^ F.Fb) :
    F.Represents s (k * 2 ^ (1 - F.bias - F.Fb : Int)) (F.pack s 0 k) := by
  have hlt : (k : Rat) * 2 ^ (1 - F.bias - F.Fb : Int) < 2 ^ (F.bias + 1) :=
    calc (k : Rat) * 2 ^ (1 - F.bias - F.Fb : Int)
        < 2 ^ (F.Fb : Int) * 2 ^ (1 - F.bias - F.Fb : Int) :=
          mul_lt_mul_of_pos_right (by exact_mod_cast hk) (zpow_pos two_pos _)
      _ = 2 ^ (1 - F.bias : Int) := by rw [← zpow_add₀ two_ne_zero]; congr 1; ring
      _ ≤ 2 ^ ((F.bias + 1 : Nat) : Int) := zpow_le_zpow_right₀ one_le_two (by omega)
      _ = 2 ^ (F.bias + 1) := zpow_natCast _ _
  rw [Represents, if_neg hlt.not_ge]
  exact ⟨val_pack_zero hk, sgn_pack, wellFormed_pack_zero hk, low_pack⟩

/-- The range of the numbers with significand `m` and exponent `e`. -/
theorem overflow_iff {m : Nat} {e : Int} (hlo : 2 ^ F.Fb ≤ m) (hhi : m < 2 ^ (F.Fb + 1)) :
    (2 : Rat) ^ (F.bias + 1) ≤ m * 2 ^ (e - F.Fb) ↔ (F.bias : Int) < e := by
  have hpos : (0 : Rat) < 2 ^ (e - F.Fb) := zpow_pos two_pos _
  have hge : (2 : Rat) ^ e ≤ m * 2 ^ (e - F.Fb) :=
    calc (2 : Rat) ^ e = 2 ^ (F.Fb : Int) * 2 ^ (e - F.Fb) := by rw [← zpow_add₀ two_ne_zero]; congr 1; ring
      _ ≤ _ := mul_le_mul_of_nonneg_right (by exact_mod_cast hlo) hpos.le
  have hlt : m * (2 : Rat) ^ (e - F.Fb) < 2 ^ (e + 1) :=
    calc m * (2 : Rat) ^ (e - F.Fb) < 2 ^ (F.Fb + 1 : Int) * 2 ^ (e - F.Fb) :=
          mul_lt_mul_of_pos_right (by exact_mod_cast hhi) hpos
      _ = 2 ^ (e + 1) := by rw [← zpow_add₀ two_ne_zero]; congr 1; ring
  rw [← zpow_natCast, Nat.cast_succ]
  constructor
  · intro h
    have := (zpow_lt_zpow_iff_right₀ (one_lt_two (α := Rat))).mp (h.trans_lt hlt)
    omega
  · intro h
    exact (zpow_le_zpow_right₀ one_le_two (by omega)).trans hge

theorem represents_of_leadingOne {m : Nat} {e : Int} (hlo : 2 ^ F.Fb ≤ m) (hhi : m < 2 ^ (F.Fb + 1))
    (he : 1 - (F.bias : Int) ≤ e) :
    F.Represents s (m * 2 ^ (e - F.Fb))
      (if (F.bias : Int) < e then F.inf s else F.pack s (e + F.bias).toNat (F.leadingOne (m - 2 ^ F.Fb))) := by
  have hmax := F.emax_eq
  simp only [Represents, overflow_iff hlo hhi]
  split
  · rfl
  · have hfr : m - 2 ^ F.Fb < 2 ^ F.Fb := by rw [pow_succ] at hhi; omega
    have hexp : ((e + F.bias).toNat : Int) - F.bias - F.Fb = e - F.Fb := by omega
    have hval := val_pack_leadingOne (s := s) (be := (e + F.bias).toNat) (by omega) (by omega) hfr
    rw [hexp, Nat.add_sub_of_le hlo] at hval
    exact ⟨hval, sgn_pack, wellFormed_pack_leadingOne (by omega) (by omega) hfr, low_pack⟩

theorem represents_ofUnits {k : Nat} {e : Int} (hk : k ≤ 2 ^ (F.Fb + 1)) (he : 1 - (F.bias : Int) ≤ e)
    (hlo : e = 1 - F.bias ∨ 2 ^ F.Fb ≤ k) : F.Represents s (k * 2 ^ (e - F.Fb)) (F.ofUnits s k e) := by
  unfold ofUnits
  split
  case isTrue hsmall =>
    obtain rfl : e = 1 - F.bias := hlo.resolve_right hsmall.not_ge
    exact represents_pack_zero hsmall
  case isFalse hlarge =>
    by_cases hcarry : k = 2 ^ (F.Fb + 1)
    · subst hcarry
      have hv : ((2 ^ (F.Fb + 1) : Nat) : Rat) * 2 ^ (e - F.Fb) = (2 ^ F.Fb : Nat) * 2 ^ (e + 1 - F.Fb) := by
        rw [add_sub_right_comm, zpow_add_one₀ two_ne_zero]; push_cast; ring
      have h := represents_of_leadingOne (s := s) (F := F) (m := 2 ^ F.Fb) (e := e + 1) le_rfl
        (Nat.pow_lt_pow_right one_lt_two (Nat.lt_succ_self _)) (by omega)
      rw [Nat.sub_self] at h
      simpa only [hv, beq_self_eq_true, if_true] using h
    · have h := represents_of_leadingOne (s := s) (not_lt.mp hlarge) (lt_of_le_of_ne hk hcarry) he
      simpa only [beq_eq_false_iff_ne.mpr hcarry, Bool.false_eq_true, if_false] using h

/-! `rnd` (R21). -/

theorem abs_signed {v : Rat} (hv : 0 < v) : |(if s then -1 else 1) * v| = v := by
  cases s <;> simp [abs_of_pos hv]

theorem signed_neg_iff {v : Rat} (hv : 0 < v) : decide ((if s then -1 else 1) * v < 0) = s := by
  cases s <;> simp [hv, hv.le]

/-- In the unit of its rounding a number is at most `2^(Fb+1)`. -/
theorem abs_div_unit_le (r : Rat) : |r| / 2 ^ (F.roundExp r - F.Fb) ≤ (2 ^ (F.Fb + 1) : Nat) := by
  have hexp : Int.log 2 |r| ≤ F.roundExp r := le_max_left _ _
  rw [div_le_iff₀ (zpow_pos two_pos _)]
  calc |r| ≤ 2 ^ (Int.log 2 |r| + 1) := (lt_zpow_intLog_add_one _).le
    _ ≤ 2 ^ (F.roundExp r + 1) := zpow_le_zpow_right₀ one_le_two (by omega)
    _ = 2 ^ (F.Fb + 1 : Int) * 2 ^ (F.roundExp r - F.Fb) := by rw [← zpow_add₀ two_ne_zero]; congr 1; ring
    _ = _ := by norm_cast

/-- In the unit of its rounding a number is at least `2^Fb`, unless its exponent is below the format's least one. -/
theorem le_abs_div_unit {r : Rat} (hr : r ≠ 0) (h : F.roundExp r = Int.log 2 |r|) :
    ((2 ^ F.Fb : Nat) : Rat) ≤ |r| / 2 ^ (F.roundExp r - F.Fb) := by
  rw [le_div_iff₀ (zpow_pos two_pos _)]
  calc ((2 ^ F.Fb : Nat) : Rat) * 2 ^ (F.roundExp r - F.Fb) = 2 ^ (F.Fb : Int) * 2 ^ (F.roundExp r - F.Fb) := by
        norm_cast
    _ = 2 ^ Int.log 2 |r| := by rw [← zpow_add₀ two_ne_zero, h]; congr 1; ring
    _ ≤ |r| := zpow_intLog_le (abs_pos.mpr hr)

theorem isRounding_ofUnits {r : Rat} {k : Nat} (hr : r ≠ 0)
    (hk : IsNearestEven (|r| / 2 ^ (F.roundExp r - F.Fb)) k) :
    F.IsRounding r (F.ofUnits (decide (r < 0)) k (F.roundExp r)) := by
  refine isRounding_iff.mpr ⟨k, hk, represents_ofUnits (hk.ge_of_le (abs_div_unit_le r)) (le_max_right _ _) ?_⟩
  obtain h | h := max_choice (Int.log 2 |r|) (1 - F.bias)
  · exact .inr (hk.le_of_le (le_abs_div_unit hr h))
  · exact .inl h

theorem isRounding_rnd {n d : Nat} {x : Int} {r : Rat} (hn : 0 < n) (hd : 0 < d)
    (hr : r = (if s then -1 else 1) * ((n : Rat) / d * 2 ^ x)) : F.IsRounding r (F.rnd s n d x) := by
  have hnd : (0 : Rat) < (n : Rat) / d := div_pos (by exact_mod_cast hn) (by exact_mod_cast hd)
  have hv : (0 : Rat) < (n : Rat) / d * 2 ^ x := mul_pos hnd (zpow_pos two_pos x)
  have habs : |r| = (n : Rat) / d * 2 ^ x := hr ▸ abs_signed hv
  have hsgn : decide (r < 0) = s := hr ▸ signed_neg_iff hv
  have hexp : max (floorLog2 n d + x) (1 - F.bias) = F.roundExp r := by
    rw [roundExp, habs, intLog_mul_zpow hnd, floorLog2_eq hn hd]
  rw [rnd, hexp, ← hsgn]
  refine isRounding_ofUnits (abs_pos.mp (habs ▸ hv)) ?_
  have hscale : |r| / 2 ^ (F.roundExp r - F.Fb) = (n : Rat) / d * 2 ^ (x - (F.roundExp r - F.Fb)) := by
    rw [habs, zpow_sub₀ two_ne_zero x, mul_div_assoc]
  rw [hscale, ← shiftLeft_div_shiftLeft]
  exact isNearestEven_nearestEven (shiftLeft_pos hd _)

theorem isPattern_rnd {n d : Nat} (hn : 0 < n) (hd : 0 < d) (s : Bool) (x : Int) : F.IsPattern (F.rnd s n d x) :=
  (isRounding_rnd hn hd rfl).isPattern

end Format

end Sys2Proof.Machine

/-! SUPPORT. The six functions of the arithmetic (R22): what each can answer, the exact number each rounds, and that
each answers a pattern of the format. -/

namespace Sys2Proof.Machine

namespace Format

variable {F : Format} {a b : Scalar}

/-! The exact value of a finite pattern as a scaled integer. -/

theorem signed_mul (s t : Bool) :
    (if s then -1 else 1 : Rat) * (if t then -1 else 1) = if (s ^^ t) then -1 else 1 := by
  cases s <;> cases t <;> simp

theorem signed_div (s t : Bool) :
    (if s then -1 else 1 : Rat) / (if t then -1 else 1) = if (s ^^ t) then -1 else 1 := by
  cases s <;> cases t <;> simp

theorem cast_signedInt (s : Bool) (m : Nat) : ((signedInt s m : Int) : Rat) = (if s then -1 else 1) * m := by
  cases s <;> simp [signedInt]

/-- Moving the unit of a finite pattern down leaves its value. -/
theorem signedInt_shiftLeft_mul_zpow {e : Int} (h : e ≤ F.unitExp a) :
    ((signedInt (F.sgn a) (F.sig a <<< (F.unitExp a - e).toNat) : Int) : Rat) * 2 ^ e = F.finiteVal a := by
  have hshift : (2 : Rat) ^ F.unitExp a = 2 ^ (F.unitExp a - e).toNat * 2 ^ e := by
    rw [← zpow_natCast, ← zpow_add₀ two_ne_zero]; congr 1; omega
  rw [cast_signedInt, Nat.shiftLeft_eq, finiteVal, hshift]
  push_cast
  ring

theorem finiteVal_mul (a b : Scalar) : F.finiteVal a * F.finiteVal b =
    (if (F.sgn a ^^ F.sgn b) then -1 else 1) *
      (((F.sig a * F.sig b : Nat) : Rat) / (1 : Nat) * 2 ^ (F.unitExp a + F.unitExp b)) := by
  rw [← signed_mul, finiteVal, finiteVal, zpow_add₀ two_ne_zero]
  push_cast
  ring

theorem finiteVal_div (a b : Scalar) : F.finiteVal a / F.finiteVal b =
    (if (F.sgn a ^^ F.sgn b) then -1 else 1) * ((F.sig a : Rat) / F.sig b * 2 ^ (F.unitExp a - F.unitExp b)) := by
  rw [← signed_div, finiteVal, finiteVal, zpow_sub₀ two_ne_zero, mul_div_mul_comm, mul_div_mul_comm, mul_assoc]

theorem finiteVal_mul_zpow (a : Scalar) (q : Int) : F.finiteVal a * 2 ^ q =
    (if F.sgn a then -1 else 1) * ((F.sig a : Rat) / (1 : Nat) * 2 ^ (F.unitExp a + q)) := by
  rw [finiteVal, zpow_add₀ two_ne_zero]
  push_cast
  ring

/-- The size of a finite pattern's unit. -/
theorem le_unitExp (a : Scalar) : 1 - (F.bias : Int) - F.Fb ≤ F.unitExp a := by
  unfold unitExp
  split <;> omega

theorem unitExp_le (h : F.isFinite a = true) : F.unitExp a ≤ F.bias - F.Fb := by
  have hle := F.bexp_le a
  have hne := isFinite_iff_bexp.mp h
  have hmax := F.emax_eq
  have hpos := F.bias_pos
  unfold unitExp
  split <;> omega

theorem isFinite_of_isFiniteNonzero (h : F.isFiniteNonzero a = true) : F.isFinite a = true :=
  isFinite_iff.mpr (.inr h)

/-! The inverted sign. -/

theorem neg_eq_pack (b : Scalar) : F.neg b = F.pack (!F.sgn b) (F.bexp b) (F.man b) := by
  have hlow : (b.setWidth (F.W - 1)).toNat = F.bexp b * 2 ^ (F.Fb + F.J) + F.man b := by
    rw [BitVec.toNat_setWidth, two_pow_W_sub_one, Nat.mul_comm (2 ^ F.E), Nat.mod_mul, bexp_eq, man_eq]
    ring
  have hlt : 1 + (F.W - 1) ≤ 128 := by have := F.W_le; have := F.W_sub_one; have := F.Fb_pos; omega
  apply BitVec.eq_of_toNat_eq
  rw [neg, withSign, BitVec.toNat_setWidth,
    Nat.mod_eq_of_lt ((BitVec.isLt _).trans_le (Nat.pow_le_pow_right two_pos hlt)), BitVec.toNat_append,
    BitVec.toNat_ofBool, ← Nat.shiftLeft_add_eq_or_of_lt (BitVec.isLt _), Nat.shiftLeft_eq, hlow, toNat_pack,
    Nat.mod_eq_of_lt (F.bexp_lt b), Nat.mod_eq_of_lt (F.man_lt b), Nat.add_assoc]

@[simp] theorem sgn_neg : F.sgn (F.neg b) = !F.sgn b := by rw [neg_eq_pack, sgn_pack]

@[simp] theorem bexp_neg : F.bexp (F.neg b) = F.bexp b := by rw [neg_eq_pack, bexp_pack (F.bexp_le b)]

@[simp] theorem man_neg : F.man (F.neg b) = F.man b := by rw [neg_eq_pack, man_pack (F.man_lt b)]

@[simp] theorem frac_neg : F.frac (F.neg b) = F.frac b := by rw [frac_eq_man_mod, man_neg, ← frac_eq_man_mod]

@[simp] theorem classOf_neg : F.classOf (F.neg b) = F.classOf b := by
  simp only [classOf, bexp_neg, man_neg, frac_neg]

@[simp] theorem sig_neg : F.sig (F.neg b) = F.sig b := by simp only [sig, bexp_neg, man_neg, frac_neg]

@[simp] theorem unitExp_neg : F.unitExp (F.neg b) = F.unitExp b := by simp only [unitExp, bexp_neg]

@[simp] theorem isFinite_neg : F.isFinite (F.neg b) = F.isFinite b := by simp only [isFinite, classOf_neg]

@[simp] theorem finiteVal_neg : F.finiteVal (F.neg b) = -F.finiteVal b := by
  rw [finiteVal, finiteVal, sgn_neg, sig_neg, unitExp_neg]
  cases F.sgn b <;> simp

@[simp] theorem wellFormed_neg : F.wellFormed (F.neg b) = F.wellFormed b := by
  rw [Bool.eq_iff_iff, wellFormed_iff, wellFormed_iff, man_neg, bexp_neg]

/-! Sums. -/

/-- The exact sum of two finite patterns, in units of the smaller of their two units. -/
def sumUnits (F : Format) (a b : Scalar) : Int :=
  signedInt (F.sgn a) (F.sig a <<< (F.unitExp a - min (F.unitExp a) (F.unitExp b)).toNat) +
    signedInt (F.sgn b) (F.sig b <<< (F.unitExp b - min (F.unitExp a) (F.unitExp b)).toNat)

theorem addFinite_eq (a b : Scalar) : F.addFinite a b =
    if F.sumUnits a b = 0 then F.zero (F.sgn a && F.sgn b)
    else F.rnd (decide (F.sumUnits a b < 0)) (F.sumUnits a b).natAbs 1 (min (F.unitExp a) (F.unitExp b)) := rfl

theorem sumUnits_comm (a b : Scalar) : F.sumUnits a b = F.sumUnits b a := by
  rw [sumUnits, sumUnits, min_comm, add_comm]

theorem addFinite_comm (a b : Scalar) : F.addFinite a b = F.addFinite b a := by
  rw [addFinite_eq, addFinite_eq, sumUnits_comm, min_comm, Bool.and_comm]

theorem sumUnits_mul_zpow (a b : Scalar) :
    (F.sumUnits a b : Rat) * 2 ^ min (F.unitExp a) (F.unitExp b) = F.finiteVal a + F.finiteVal b := by
  rw [sumUnits, Int.cast_add, add_mul, signedInt_shiftLeft_mul_zpow (min_le_left _ _),
    signedInt_shiftLeft_mul_zpow (min_le_right _ _)]

theorem sumUnits_eq_zero_iff (a b : Scalar) : F.sumUnits a b = 0 ↔ F.finiteVal a + F.finiteVal b = 0 := by
  rw [← sumUnits_mul_zpow, mul_eq_zero_iff_right (zpow_ne_zero _ two_ne_zero), Int.cast_eq_zero]

/-- An integer as a sign and a magnitude. -/
theorem signed_natAbs (r : Int) : (r : Rat) = (if decide (r < 0) then -1 else 1) * ((r.natAbs : Rat) / (1 : Nat)) := by
  obtain h | h := lt_or_ge r 0
  · simp [h, abs_of_neg (Int.cast_lt_zero.mpr h), Nat.cast_natAbs]
  · simp [h.not_gt, abs_of_nonneg (Int.cast_nonneg h), Nat.cast_natAbs]

theorem isRounding_addFinite (h : F.finiteVal a + F.finiteVal b ≠ 0) :
    F.IsRounding (F.finiteVal a + F.finiteVal b) (F.addFinite a b) := by
  have hr : F.sumUnits a b ≠ 0 := (sumUnits_eq_zero_iff a b).not.mpr h
  rw [addFinite_eq, if_neg hr]
  apply isRounding_rnd (Int.natAbs_pos.mpr hr) one_pos
  rw [← mul_assoc, ← signed_natAbs, sumUnits_mul_zpow]

theorem addFinite_of_sum_eq_zero (h : F.finiteVal a + F.finiteVal b = 0) :
    F.addFinite a b = F.zero (F.sgn a && F.sgn b) := by
  rw [addFinite_eq, if_pos ((sumUnits_eq_zero_iff a b).mpr h)]

theorem isPattern_addFinite (a b : Scalar) : F.IsPattern (F.addFinite a b) := by
  rw [addFinite_eq]
  split
  · exact isPattern_zero _
  · next hr => exact isPattern_rnd (Int.natAbs_pos.mpr hr) one_pos _ _

theorem fadd_of_isFinite (ha : F.isFinite a = true) (hb : F.isFinite b = true) : F.fadd a b = F.addFinite a b := by
  obtain ha | ha | ha := classOf_of_isFinite ha <;> obtain hb | hb | hb := classOf_of_isFinite hb <;>
    simp only [fadd, ha, hb]

/-- What a sum can be. -/
theorem fadd_cases (a b : Scalar) :
    F.fadd a b = F.qnan ∨ (∃ s, F.fadd a b = F.inf s) ∨ F.fadd a b = F.addFinite a b := by
  unfold fadd
  split
  case h_3 => split <;> simp
  all_goals simp

theorem isPattern_fadd (a b : Scalar) : F.IsPattern (F.fadd a b) := by
  obtain h | ⟨s, h⟩ | h := F.fadd_cases a b <;> rw [h]
  · exact isPattern_qnan
  · exact isPattern_inf s
  · exact isPattern_addFinite a b

theorem fadd_comm (a b : Scalar) : F.fadd a b = F.fadd b a := by
  unfold fadd
  cases F.classOf a <;> cases F.classOf b <;> simp only [addFinite_comm a b]
  case infinite.infinite =>
    by_cases hs : F.sgn a = F.sgn b
    · rw [hs]
    · rw [if_neg hs, if_neg (Ne.symm hs)]

/-! Products. -/

/-- What a product can be. -/
theorem fmul_cases (a b : Scalar) :
    F.fmul a b = F.qnan ∨ F.fmul a b = F.inf (F.sgn a ^^ F.sgn b) ∨ F.fmul a b = F.zero (F.sgn a ^^ F.sgn b) ∨
      (F.isFiniteNonzero a = true ∧ F.isFiniteNonzero b = true ∧ F.fmul a b =
        F.rnd (F.sgn a ^^ F.sgn b) (F.sig a * F.sig b) 1 (F.unitExp a + F.unitExp b)) := by
  unfold fmul isFiniteNonzero isFinite
  cases F.classOf a <;> cases F.classOf b <;> simp

theorem fmul_of_isFiniteNonzero (ha : F.isFiniteNonzero a = true) (hb : F.isFiniteNonzero b = true) :
    F.fmul a b = F.rnd (F.sgn a ^^ F.sgn b) (F.sig a * F.sig b) 1 (F.unitExp a + F.unitExp b) := by
  rw [isFiniteNonzero_iff] at ha hb
  obtain ha | ha := ha <;> obtain hb | hb := hb <;> simp only [fmul, ha, hb]

theorem isRounding_fmul (hwa : F.wellFormed a = true) (hwb : F.wellFormed b = true)
    (ha : F.isFiniteNonzero a = true) (hb : F.isFiniteNonzero b = true) :
    F.IsRounding (F.finiteVal a * F.finiteVal b) (F.fmul a b) := by
  rw [fmul_of_isFiniteNonzero ha hb]
  exact isRounding_rnd (Nat.mul_pos (sig_pos hwa ha) (sig_pos hwb hb)) one_pos (finiteVal_mul a b)

theorem isPattern_fmul (hwa : F.wellFormed a = true) (hwb : F.wellFormed b = true) : F.IsPattern (F.fmul a b) := by
  obtain h | h | h | ⟨ha, hb, -⟩ := F.fmul_cases a b
  · exact h ▸ isPattern_qnan
  · exact h ▸ isPattern_inf _
  · exact h ▸ isPattern_zero _
  · exact (isRounding_fmul hwa hwb ha hb).isPattern

theorem fmul_comm (a b : Scalar) : F.fmul a b = F.fmul b a := by
  unfold fmul
  rw [Bool.xor_comm, Nat.mul_comm, Int.add_comm]
  cases F.classOf a <;> cases F.classOf b <;> rfl

/-! Quotients. -/

/-- What a quotient can be. -/
theorem fdiv_cases (a b : Scalar) :
    F.fdiv a b = F.qnan ∨ F.fdiv a b = F.inf (F.sgn a ^^ F.sgn b) ∨ F.fdiv a b = F.zero (F.sgn a ^^ F.sgn b) ∨
      (F.isFiniteNonzero a = true ∧ F.isFiniteNonzero b = true ∧ F.fdiv a b =
        F.rnd (F.sgn a ^^ F.sgn b) (F.sig a) (F.sig b) (F.unitExp a - F.unitExp b)) := by
  unfold fdiv isFiniteNonzero isFinite
  cases F.classOf a <;> cases F.classOf b <;> simp

theorem fdiv_of_isFiniteNonzero (ha : F.isFiniteNonzero a = true) (hb : F.isFiniteNonzero b = true) :
    F.fdiv a b = F.rnd (F.sgn a ^^ F.sgn b) (F.sig a) (F.sig b) (F.unitExp a - F.unitExp b) := by
  rw [isFiniteNonzero_iff] at ha hb
  obtain ha | ha := ha <;> obtain hb | hb := hb <;> simp only [fdiv, ha, hb]

theorem isRounding_fdiv (hwa : F.wellFormed a = true) (hwb : F.wellFormed b = true)
    (ha : F.isFiniteNonzero a = true) (hb : F.isFiniteNonzero b = true) :
    F.IsRounding (F.finiteVal a / F.finiteVal b) (F.fdiv a b) := by
  rw [fdiv_of_isFiniteNonzero ha hb]
  exact isRounding_rnd (sig_pos hwa ha) (sig_pos hwb hb) (finiteVal_div a b)

theorem isPattern_fdiv (hwa : F.wellFormed a = true) (hwb : F.wellFormed b = true) : F.IsPattern (F.fdiv a b) := by
  obtain h | h | h | ⟨ha, hb, -⟩ := F.fdiv_cases a b
  · exact h ▸ isPattern_qnan
  · exact h ▸ isPattern_inf _
  · exact h ▸ isPattern_zero _
  · exact (isRounding_fdiv hwa hwb ha hb).isPattern

/-! Conversion. -/

theorem isRounding_i2f {i : Word32} (h : i.toInt ≠ 0) : F.IsRounding (i.toInt : Rat) (F.i2f i) := by
  rw [i2f, if_neg h]
  apply isRounding_rnd (Int.natAbs_pos.mpr h) one_pos
  rw [zpow_zero, mul_one, ← signed_natAbs]

theorem isPattern_i2f (i : Word32) : F.IsPattern (F.i2f i) := by
  by_cases h : i.toInt = 0
  · rw [i2f, if_pos h]
    exact isPattern_zero _
  · exact (isRounding_i2f h).isPattern

/-! Roundings beyond either end of the range. -/

theorem IsRounding.eq_inf {r : Rat} {p : Scalar} (h : F.IsRounding r p) (hr : (2 : Rat) ^ (F.bias + 1) ≤ |r|) :
    p = F.inf (decide (r < 0)) := by
  obtain ⟨k, hk, hp⟩ := isRounding_iff.mp h
  have hpos : 0 < |r| := (pow_pos two_pos _).trans_le hr
  have hlog : ((F.bias + 1 : Nat) : Int) ≤ Int.log 2 |r| :=
    (Int.zpow_le_iff_le_log (b := 2) one_lt_two hpos).mp (by exact_mod_cast hr)
  have hexp : F.roundExp r = Int.log 2 |r| := max_eq_left (by omega)
  have hle : 2 ^ F.Fb ≤ k := hk.le_of_le (le_abs_div_unit (abs_pos.mp hpos) hexp)
  rw [Represents, if_pos] at hp
  · exact hp
  calc (2 : Rat) ^ (F.bias + 1) = 2 ^ ((F.bias + 1 : Nat) : Int) := (zpow_natCast _ _).symm
    _ ≤ 2 ^ F.roundExp r := zpow_le_zpow_right₀ one_le_two (hexp ▸ hlog)
    _ = (2 ^ F.Fb : Nat) * 2 ^ (F.roundExp r - F.Fb) := by
      rw [Nat.cast_pow, Nat.cast_two, ← zpow_natCast, ← zpow_add₀ two_ne_zero]; congr 1; ring
    _ ≤ k * 2 ^ (F.roundExp r - F.Fb) :=
      mul_le_mul_of_nonneg_right (by exact_mod_cast hle) (zpow_nonneg two_pos.le _)

theorem eq_zero_of_represents {s : Bool} {p : Scalar} (h : F.Represents s 0 p) : p = F.zero s := by
  rw [Represents, if_neg (not_le.mpr (pow_pos two_pos _)), mul_zero] at h
  obtain ⟨hval, hsgn, hwf, hlow⟩ := h
  rw [val_eq_finite_iff, finiteVal, mul_eq_zero_iff_right (zpow_ne_zero _ two_ne_zero)] at hval
  have hsig : F.sig p = 0 := by cases hs : F.sgn p <;> simpa [hs] using hval.2
  obtain ⟨hbexp, hman⟩ := (sig_eq_zero_iff hwf).mp hsig
  rw [← hlow, ← pack_fields, hsgn, hbexp, hman, zero]

theorem IsRounding.eq_zero {r : Rat} {p : Scalar} (h : F.IsRounding r p)
    (hr : |r| < (2 : Rat) ^ (-F.bias - F.Fb : Int)) : p = F.zero (decide (r < 0)) := by
  obtain ⟨k, hk, hp⟩ := isRounding_iff.mp h
  have hu : (0 : Rat) < 2 ^ (F.roundExp r - F.Fb) := zpow_pos two_pos _
  have hexp : 1 - (F.bias : Int) ≤ F.roundExp r := le_max_right _ _
  have hk0 : k = 0 := hk.eq_zero_of_lt <| by
    rw [div_lt_iff₀ hu]
    calc |r| < 2 ^ (-F.bias - F.Fb : Int) := hr
      _ ≤ 2 ^ (F.roundExp r - F.Fb - 1) := zpow_le_zpow_right₀ one_le_two (by omega)
      _ = 1 / 2 * 2 ^ (F.roundExp r - F.Fb) := by rw [zpow_sub_one₀ two_ne_zero]; ring
  rw [hk0, Nat.cast_zero, zero_mul] at hp
  exact eq_zero_of_represents hp

/-! Scaling. -/

/-- The exact scaled value that `fscale` rounds. -/
theorem isRounding_rnd_scale (hw : F.wellFormed a = true) (ha : F.isFiniteNonzero a = true) (q : Int) :
    F.IsRounding (F.finiteVal a * 2 ^ q) (F.rnd (F.sgn a) (F.sig a) 1 (F.unitExp a + q)) :=
  isRounding_rnd (sig_pos hw ha) one_pos (finiteVal_mul_zpow a q)

theorem abs_finiteVal_mul_zpow (hw : F.wellFormed a = true) (ha : F.isFiniteNonzero a = true) (q : Int) :
    |F.finiteVal a * 2 ^ q| = F.sig a * 2 ^ (F.unitExp a + q) ∧ decide (F.finiteVal a * 2 ^ q < 0) = F.sgn a := by
  have hpos : (0 : Rat) < F.sig a / (1 : Nat) * 2 ^ (F.unitExp a + q) := by
    have : (0 : Rat) < F.sig a := by exact_mod_cast sig_pos hw ha
    positivity
  rw [finiteVal_mul_zpow]
  exact ⟨by rw [abs_signed hpos, Nat.cast_one, div_one], signed_neg_iff hpos⟩

theorem rnd_scale_of_large (hw : F.wellFormed a = true) (ha : F.isFiniteNonzero a = true) {q : Int}
    (hq : 2 * F.bias + F.Fb ≤ q) : F.rnd (F.sgn a) (F.sig a) 1 (F.unitExp a + q) = F.inf (F.sgn a) := by
  obtain ⟨habs, hsgn⟩ := abs_finiteVal_mul_zpow hw ha q
  have hunit := F.le_unitExp a
  have hsig : (1 : Rat) ≤ F.sig a := by exact_mod_cast sig_pos hw ha
  rw [(isRounding_rnd_scale hw ha q).eq_inf, hsgn]
  calc (2 : Rat) ^ (F.bias + 1) = 2 ^ ((F.bias + 1 : Nat) : Int) := (zpow_natCast _ _).symm
    _ ≤ 2 ^ (F.unitExp a + q) := zpow_le_zpow_right₀ one_le_two (by omega)
    _ ≤ F.sig a * 2 ^ (F.unitExp a + q) := le_mul_of_one_le_left (zpow_nonneg two_pos.le _) hsig
    _ = |F.finiteVal a * 2 ^ q| := habs.symm

theorem rnd_scale_of_small (hw : F.wellFormed a = true) (ha : F.isFiniteNonzero a = true) {q : Int}
    (hq : q ≤ -(2 * F.bias + F.Fb + 1)) :
    F.rnd (F.sgn a) (F.sig a) 1 (F.unitExp a + q) = F.zero (F.sgn a) := by
  obtain ⟨habs, hsgn⟩ := abs_finiteVal_mul_zpow hw ha q
  have hunit := unitExp_le (isFinite_of_isFiniteNonzero ha)
  have hsig : (F.sig a : Rat) < 2 ^ (F.Fb + 1 : Int) := by exact_mod_cast sig_lt hw
  rw [(isRounding_rnd_scale hw ha q).eq_zero, hsgn]
  calc |F.finiteVal a * 2 ^ q| = F.sig a * 2 ^ (F.unitExp a + q) := habs
    _ < 2 ^ (F.Fb + 1 : Int) * 2 ^ (F.unitExp a + q) := mul_lt_mul_of_pos_right hsig (zpow_pos two_pos _)
    _ = 2 ^ (F.Fb + 1 + (F.unitExp a + q)) := (zpow_add₀ two_ne_zero _ _).symm
    _ ≤ 2 ^ (-F.bias - F.Fb : Int) := zpow_le_zpow_right₀ one_le_two (by omega)

theorem fscale_of_isFiniteNonzero (ha : F.isFiniteNonzero a = true) (q : Int) :
    F.fscale a q = F.rnd (F.sgn a) (F.sig a) 1 (F.unitExp a + F.clampScale q) := by
  obtain h | h := isFiniteNonzero_iff.mp ha <;> simp only [fscale, h]

theorem fscale_of_large (hw : F.wellFormed a = true) (ha : F.isFiniteNonzero a = true) {q : Int}
    (hq : 2 * F.bias + F.Fb ≤ q) : F.fscale a q = F.inf (F.sgn a) := by
  rw [fscale_of_isFiniteNonzero ha, rnd_scale_of_large hw ha]
  unfold clampScale
  omega

theorem fscale_of_small (hw : F.wellFormed a = true) (ha : F.isFiniteNonzero a = true) {q : Int}
    (hq : q ≤ -(2 * F.bias + F.Fb + 1)) : F.fscale a q = F.zero (F.sgn a) := by
  rw [fscale_of_isFiniteNonzero ha, rnd_scale_of_small hw ha]
  unfold clampScale
  omega

/-- The clamp of `q` changes no result: beyond it the rounding is the infinity or the zero that the clamped scale
gives. -/
theorem fscale_eq_rnd (hw : F.wellFormed a = true) (ha : F.isFiniteNonzero a = true) (q : Int) :
    F.fscale a q = F.rnd (F.sgn a) (F.sig a) 1 (F.unitExp a + q) := by
  by_cases hlarge : 2 * F.bias + F.Fb ≤ q
  · rw [fscale_of_large hw ha hlarge, rnd_scale_of_large hw ha hlarge]
  by_cases hsmall : q ≤ -(2 * F.bias + F.Fb + 1)
  · rw [fscale_of_small hw ha hsmall, rnd_scale_of_small hw ha hsmall]
  have hq : F.clampScale q = q := by unfold clampScale; omega
  rw [fscale_of_isFiniteNonzero ha, hq]

theorem isRounding_fscale (hw : F.wellFormed a = true) (ha : F.isFiniteNonzero a = true) (q : Int) :
    F.IsRounding (F.finiteVal a * 2 ^ q) (F.fscale a q) := by
  rw [fscale_eq_rnd hw ha]
  exact isRounding_rnd_scale hw ha q

theorem isPattern_fscale (h : F.IsPattern a) (q : Int) : F.IsPattern (F.fscale a q) := by
  by_cases ha : F.isFiniteNonzero a = true
  · exact (isRounding_fscale h.1 ha q).isPattern
  rw [isFiniteNonzero_iff, not_or] at ha
  unfold fscale
  split
  case h_1 => exact isPattern_qnan
  case h_2 => exact h
  case h_3 => exact h
  case h_4 hc => exact absurd hc ha.1
  case h_5 hc => exact absurd hc ha.2

end Format

end Sys2Proof.Machine

/-! SUPPORT. What a legal command does, said once for all commands: it is the execution template of R56 at its format,
with the destinations and sources of R53. -/

namespace Sys2Proof.Machine

/-! The legality checks of a legal command. -/

theorem withTable_of_hasTable {s : State} {p : Fmt} {F : Format} {tbl : RomId} (k : Format → Table → State)
    (hF : formatOf s.cfg.ldLayout p = some F) (h : s.cfg.hasTable p tbl = true) :
    ∃ t, tableAt s.cfg p tbl = some t ∧ s.withTable p tbl k = k F t := by
  rw [← tableAt_isSome, Option.isSome_iff_exists] at h
  obtain ⟨t, ht⟩ := h
  exact ⟨t, ht, by simp only [State.withTable, withFormat_of_some _ hF, ht]⟩

theorem hasPoly_iff (c : Config) (p : Fmt) (cset : RomId) :
    c.hasPoly p cset = true ↔ ∃ a, coeffsAt c p cset = some (.poly a) := by
  unfold Config.hasPoly coeffsAt
  cases c.coeffs.find? (·.id == cset) with
  | none => simp
  | some rom =>
    simp only [Option.any_some, memberAt_eq_member]
    split <;> simp_all

theorem hasRational_iff (c : Config) (p : Fmt) (cset : RomId) :
    c.hasRational p cset = true ↔ ∃ a b, coeffsAt c p cset = some (.rational a b) := by
  unfold Config.hasRational coeffsAt
  cases c.coeffs.find? (·.id == cset) with
  | none => simp
  | some rom =>
    simp only [Option.any_some, memberAt_eq_member]
    split <;> simp_all

theorem withPoly_of_hasPoly {s : State} {p : Fmt} {F : Format} {cset : RomId} (k : Format → Poly → State)
    (hF : formatOf s.cfg.ldLayout p = some F) (h : s.cfg.hasPoly p cset = true) :
    ∃ a, coeffsAt s.cfg p cset = some (.poly a) ∧ s.withPoly p cset k = k F (a.atFormat F) := by
  obtain ⟨a, ha⟩ := (hasPoly_iff _ _ _).mp h
  exact ⟨a, ha, by simp only [State.withPoly, withFormat_of_some _ hF, ha]⟩

theorem withRational_of_hasRational {s : State} {p : Fmt} {F : Format} {cset : RomId}
    (k : Format → Poly → Poly → State)
    (hF : formatOf s.cfg.ldLayout p = some F) (h : s.cfg.hasRational p cset = true) :
    ∃ a b, coeffsAt s.cfg p cset = some (.rational a b) ∧
      s.withRational p cset k = k F (a.atFormat F) (b.atFormat F) := by
  obtain ⟨a, b, hab⟩ := (hasRational_iff _ _ _).mp h
  exact ⟨a, b, hab, by simp only [State.withRational, withFormat_of_some _ hF, hab]⟩

/-! The template. -/

/-- A command with one scalar destination, as the template runs it. -/
def RunsScalar (i : Instr) (s : State) (F : Format) : Prop :=
  ∃ d rom v, i.scalarDsts = [d] ∧ i.integerDsts = [] ∧
    exec i s = .next (s.finishF F d i.scalarSrcs i.integerSrcs rom v)

/-- A command with one integer destination, as the template runs it. -/
def RunsInteger (i : Instr) (s : State) (F : Format) : Prop :=
  ∃ d v, i.scalarDsts = [] ∧ i.integerDsts = [d] ∧
    exec i s = .next (s.finishN F d i.scalarSrcs i.integerSrcs [] v)

/-- `DECOMP`, with a destination of each kind, as the template runs it. -/
def RunsBoth (i : Instr) (s : State) (F : Format) : Prop :=
  ∃ d e v w, i.scalarDsts = [d] ∧ i.integerDsts = [e] ∧
    exec i s = .next (s.finishFN F d e i.scalarSrcs i.integerSrcs v w)

/-- Every legal command runs as the template of R56. -/
theorem exec_of_wellFormed {i : Instr} {s : State} {F : Format} (hi : i.wellFormed s.cfg = true)
    (hF : formatOf s.cfg.ldLayout i.fmt = some F) : RunsScalar i s F ∨ RunsInteger i s F ∨ RunsBoth i s F := by
  replace hi := (Bool.and_eq_true_iff.mp hi).2
  cases i with
  | xman p d a | recadd p d a b c | recmul p d a b c | newton3 p d a b | sgncpy p d a b | sgnclr p d a
  | recomp p d a b => exact .inl ⟨_, _, _, rfl, rfl, congrArg _ (withFormat_of_some _ hF)⟩
  | xsign p d a | xexp p d a | isnan p d a | isinf p d a | isnaninf p d a | issubz p d a =>
    exact .inr (.inl ⟨_, _, rfl, rfl, congrArg _ (withFormat_of_some _ hF)⟩)
  | decomp p d e a => exact .inr (.inr ⟨_, _, _, _, rfl, rfl, congrArg _ (withFormat_of_some _ hF)⟩)
  | tload p d a t | resdiv p d a b t | ressub p d a b t | resmul p d a b t =>
    obtain ⟨T, -, h⟩ := withTable_of_hasTable _ hF hi
    exact .inl ⟨_, _, _, rfl, rfl, congrArg _ h⟩
  | tindex p d a t =>
    obtain ⟨T, -, h⟩ := withTable_of_hasTable _ hF hi
    exact .inr (.inl ⟨_, _, rfl, rfl, congrArg _ h⟩)
  | horner p d a k | hornersq p d a k =>
    obtain ⟨c, -, h⟩ := withPoly_of_hasPoly _ hF hi
    exact .inl ⟨_, _, _, rfl, rfl, congrArg _ h⟩
  | rational p d a k =>
    obtain ⟨c, c', -, h⟩ := withRational_of_hasRational _ hF hi
    exact .inl ⟨_, _, _, rfl, rfl, congrArg _ h⟩

/-! What the template leaves in a scalar destination: a pattern of the format's width, a free one too. -/

theorem putF_fReg_lt (s : State) (F : Format) (ok : Bool) (r : RegNum) (v : Scalar) :
    ((s.putF F ok r v).fReg r).toNat < 2 ^ F.W := by
  obtain ⟨-, h⟩ | ⟨-, h⟩ := putF_cases s F ok r v <;> simp [h, Format.toNat_low_lt]

@[simp] theorem putN_fReg (s : State) (ok : Bool) (r j : RegNum) (v : Word32) :
    (s.putN ok r v).fReg j = s.fReg j := by
  obtain ⟨-, h⟩ | ⟨-, h⟩ := putN_cases s ok r v <;> simp [h]

theorem finishF_fReg_lt (s : State) (F : Format) (d : RegNum) (fs ns : List RegNum) (rom : List Scalar)
    (v : Scalar) : ((s.finishF F (.reg d) fs ns rom v).fReg d).toNat < 2 ^ F.W :=
  putF_fReg_lt _ _ _ _ _

theorem finishFN_fReg_lt (s : State) (F : Format) (d e : RegNum) (fs ns : List RegNum) (v : Scalar) (w : Word32) :
    ((s.finishFN F (.reg d) (.reg e) fs ns v w).fReg d).toNat < 2 ^ F.W := by
  simp only [State.finishFN, putN_fReg]
  exact putF_fReg_lt _ _ _ _ _

end Sys2Proof.Machine

/-! The statements about the formats and the arithmetic (`00_scope.md`), settled. -/

namespace Sys2Proof.Machine

open Format

/-- Settles O12: a legal command is the execution template, whose scalar write keeps the low bits alone. -/
theorem upperBitsWrittenZero : Obligations.UpperBitsWrittenZero := by
  intro i s t F d hi hnull hF hd ht
  obtain ⟨d', rom, v, hsd, -, hex⟩ | ⟨d', v, hsd, -, -⟩ | ⟨d', e, v, w, hsd, hid, hex⟩ := exec_of_wellFormed hi hF
  · obtain rfl : .reg d = d' := by simpa [hsd] using hd
    rw [hex, Host.Outcome.next.injEq] at ht
    exact ht ▸ finishF_fReg_lt _ _ _ _ _ _ _
  · simp [hsd] at hd
  · obtain rfl : .reg d = d' := by simpa [hsd] using hd
    rw [hex, Host.Outcome.next.injEq] at ht
    cases e with
    | null => simp [Instr.dsts, hid] at hnull
    | reg q => exact ht ▸ finishFN_fReg_lt _ _ _ _ _ _ _ _

/-- Settles O22: the table of R12 by the cases of its definitions. -/
theorem formatTable : Obligations.FormatTable := by
  refine ⟨fun F => ?_, fun l => ⟨rfl, rfl⟩, rfl, rfl, rfl, rfl⟩
  cases F <;> rfl

/-- Settles O23: each accessor as arithmetic on the pattern, and the packer as the sum of its fields. -/
theorem fieldsOfPattern : Obligations.FieldsOfPattern := fun F b =>
  ⟨rfl, F.bexp_eq b, F.frac_eq b, rfl, F.man_eq b, F.pack_fields b, F.toNat_pack⟩

/-- Settles O24: by the class of the pattern. -/
theorem valueOfPattern : Obligations.ValueOfPattern := by
  intro F b hw
  refine ⟨fun h => ?nan, fun h => ?zero, fun h => ?infinite, fun h => ?subnormal, fun h => ⟨?unit, ?fraction⟩⟩
  case nan => simp only [val, h]
  case infinite => simp only [val, h]
  case zero => simp only [val, h, finiteVal_of_zero hw h]
  case subnormal => simp only [val, h, finiteVal_of_bexp_eq_zero (classOf_eq_subnormal_iff.mp h).1]
  case unit => simp only [val, h, finiteVal_of_bexp_ne_zero (classOf_eq_normal_iff.mp h).1]
  case fraction => simp only [val, h, finiteVal_of_normal hw h]

/-- Settles O25: `rnd` is the rounding of the number it is given; the quiet NaNs are evaluated. -/
theorem roundingRule : Obligations.RoundingRule := by
  refine ⟨fun F s n d x hn hd => isRounding_rnd hn hd (mul_assoc _ _ _), by decide, by decide, by decide,
    by decide, fun F => ?_⟩
  cases F <;> decide

/-- Settles O26: by the classes of the operands; two finite ones give the sum in units of the smaller unit. -/
theorem sumRule : Obligations.SumRule := by
  intro F a b _ _
  refine ⟨?nan, ?infinities, ?infinity_left, ?infinity_right, ?finite, rfl, ?neg⟩
  case nan =>
    rintro (h | h)
    · simp only [fadd, h]
    · cases ha : F.classOf a <;> simp only [fadd, ha, h]
  case infinities => intro ha hb; simp only [fadd, ha, hb]
  case infinity_left =>
    intro ha hb
    obtain hb | hb | hb := classOf_of_isFinite hb <;> simp only [fadd, ha, hb]
  case infinity_right =>
    intro ha hb
    obtain ha | ha | ha := classOf_of_isFinite ha <;> simp only [fadd, ha, hb]
  case finite =>
    intro ha hb
    rw [fadd_of_isFinite ha hb]
    refine ⟨isRounding_addFinite, fun h => (addFinite_of_sum_eq_zero h).trans (congrArg _ ?_)⟩
    cases F.sgn a <;> cases F.sgn b <;> rfl
  case neg => exact fun hb => ⟨finiteVal_neg, isFinite_neg.trans hb⟩

/-- Settles O27: by the classes of the operands. -/
theorem productRule : Obligations.ProductRule := by
  intro F a b hwa hwb
  simp only [isFinite_iff, isFiniteNonzero_iff]
  refine ⟨?nan, ?invalid, ?infinite, ?zero, fun ha hb =>
    isRounding_fmul hwa hwb (isFiniteNonzero_iff.mpr ha) (isFiniteNonzero_iff.mpr hb)⟩
  case nan =>
    rintro (h | h)
    · simp only [fmul, h]
    · cases ha : F.classOf a <;> simp only [fmul, ha, h]
  case invalid => rintro (⟨ha, hb⟩ | ⟨ha, hb⟩) <;> simp only [fmul, ha, hb]
  case infinite => rintro (⟨ha, hb | hb | hb⟩ | ⟨ha | ha, hb⟩) <;> simp only [fmul, ha, hb]
  case zero => rintro (⟨ha, hb | hb | hb⟩ | ⟨ha | ha | ha, hb⟩) <;> simp only [fmul, ha, hb]

/-- Settles O28: by the classes of the operands. -/
theorem quotientRule : Obligations.QuotientRule := by
  intro F a b hwa hwb
  simp only [isFinite_iff, isFiniteNonzero_iff]
  refine ⟨?nan, ?invalid, ?infinite, ?zero, fun ha hb =>
    isRounding_fdiv hwa hwb (isFiniteNonzero_iff.mpr ha) (isFiniteNonzero_iff.mpr hb)⟩
  case nan =>
    rintro (h | h)
    · simp only [fdiv, h]
    · cases ha : F.classOf a <;> simp only [fdiv, ha, h]
  case invalid => rintro (⟨ha, hb⟩ | ⟨ha, hb⟩) <;> simp only [fdiv, ha, hb]
  case infinite => rintro (⟨ha, hb | hb | hb⟩ | ⟨ha | ha, hb⟩) <;> simp only [fdiv, ha, hb]
  case zero => rintro (⟨ha, (hb | hb) | hb⟩ | ⟨ha | ha, hb⟩) <;> simp only [fdiv, ha, hb]

/-- Settles O29: beyond the two limits the rounding of the exact scaled value is the infinity or the zero. -/
theorem conversionAndScalingRule : Obligations.ConversionAndScalingRule := by
  refine ⟨fun F i => ⟨fun h => if_pos h, isRounding_i2f⟩, fun F a q hw => ⟨?nan, ?special, ?rounded, ?large, ?small⟩⟩
  case nan => intro h; simp only [fscale, h]
  case special => rintro (h | h) <;> simp only [fscale, h]
  case rounded => exact fun ha => isRounding_fscale hw ha q
  case large => exact fun ha hq => fscale_of_large hw ha hq
  case small => exact fun ha hq => fscale_of_small hw ha hq

/-- Settles O30: each function answers a special pattern or a rounding. -/
theorem arithmeticResultsWellFormed : Obligations.ArithmeticResultsWellFormed := by
  intro F a b i q hwa hwb hlow
  simp only [List.forall_mem_cons]
  exact ⟨isPattern_fadd a b, isPattern_fadd a (F.neg b), isPattern_fmul hwa hwb, isPattern_fdiv hwa hwb,
    isPattern_i2f i, isPattern_fscale ⟨hwa, hlow⟩ q, by simp⟩

/-- Settles O31: exact sums and products commute, and so do their roundings. -/
theorem sumAndProductCommute : Obligations.SumAndProductCommute :=
  fun _ a b => ⟨fadd_comm a b, fmul_comm a b⟩

end Sys2Proof.Machine

/-! SUPPORT. Legality as the machine decides it: an illegal command and an illegal word do what R107 says, a legal command
has what it does fixed by its sources alone. -/

namespace Sys2Proof.Machine

/-! The legality checks (R54). -/

theorem withTable_of_some {s : State} {p : Fmt} {F : Format} {tbl : RomId} {T : Table} (k : Format → Table → State)
    (hF : formatOf s.cfg.ldLayout p = some F) (hT : tableAt s.cfg p tbl = some T) : s.withTable p tbl k = k F T := by
  simp only [State.withTable, withFormat_of_some _ hF, hT]

theorem withPoly_of_some {s : State} {p : Fmt} {F : Format} {cset : RomId} {c : Poly} (k : Format → Poly → State)
    (hF : formatOf s.cfg.ldLayout p = some F) (hc : coeffsAt s.cfg p cset = some (.poly c)) :
    s.withPoly p cset k = k F (c.atFormat F) := by
  simp only [State.withPoly, withFormat_of_some _ hF, hc]

theorem withRational_of_some {s : State} {p : Fmt} {F : Format} {cset : RomId} {c d : Poly}
    (k : Format → Poly → Poly → State)
    (hF : formatOf s.cfg.ldLayout p = some F) (hc : coeffsAt s.cfg p cset = some (.rational c d)) :
    s.withRational p cset k = k F (c.atFormat F) (d.atFormat F) := by
  simp only [State.withRational, withFormat_of_some _ hF, hc]

theorem allowsFmt_of_formatOf {c : Config} {p : Fmt} {F : Format} (hF : formatOf c.ldLayout p = some F) :
    c.allowsFmt p = true := by
  rw [← formatOf_isSome, hF, Option.isSome_some]

theorem exists_formatOf {i : Instr} {c : Config} (hi : i.wellFormed c = true) :
    ∃ F, formatOf c.ldLayout i.fmt = some F := by
  rw [← Option.isSome_iff_exists, formatOf_isSome]
  exact (Bool.and_eq_true_iff.mp hi).1

/-- A command that fails a check of R54 sets `ILL` and does nothing else (R107). -/
theorem exec_of_not_wellFormed {i : Instr} {s : State} (hi : i.wellFormed s.cfg = false) :
    exec i s = .next s.raiseIllegal := by
  replace hi := Bool.and_eq_false_imp.mp hi
  cases i with
  | xman p d a | recadd p d a b c | recmul p d a b c | newton3 p d a b | sgncpy p d a b | sgnclr p d a
  | recomp p d a b | xsign p d a | xexp p d a | isnan p d a | isinf p d a | isnaninf p d a | issubz p d a
  | decomp p d e a =>
    refine congrArg _ ((withFormat_cases s p _).resolve_left ?_).2
    rintro ⟨F, hF, -⟩
    exact absurd (hi (allowsFmt_of_formatOf hF)) (by simp)
  | tload p d a t | resdiv p d a b t | ressub p d a b t | resmul p d a b t | tindex p d a t =>
    refine congrArg _ ((withTable_cases s p t _).resolve_left ?_).2
    rintro ⟨F, T, hF, hT, -⟩
    exact absurd (hi (allowsFmt_of_formatOf hF)) (by simp [← tableAt_isSome, hT])
  | horner p d a k | hornersq p d a k =>
    refine congrArg _ ((withPoly_cases s p k _).resolve_left ?_).2
    rintro ⟨F, c, hF, hc, -⟩
    exact absurd (hi (allowsFmt_of_formatOf hF)) (by simp [hasPoly_iff, hc])
  | rational p d a k =>
    refine congrArg _ ((withRational_cases s p k _).resolve_left ?_).2
    rintro ⟨F, c, c', hF, hc, -⟩
    exact absurd (hi (allowsFmt_of_formatOf hF)) (by simp [hasRational_iff, hc])

theorem issue_of_legalWord {w : Command} {s : State} (hw : legalWord s.cfg w = true) :
    ∃ i, i.wellFormed s.cfg = true ∧ issue w s = exec i s := by
  obtain ⟨i, hd, h⟩ | ⟨r, hd, -⟩ := issue_cases w s
  · exact ⟨i, by simpa only [legalWord, hd] using hw, h⟩
  · simp [legalWord, hd] at hw

/-- A word that is no legal command sets `ILL` and does nothing else (R107). -/
theorem issue_of_not_legalWord {w : Command} {s : State} (hw : legalWord s.cfg w = false) :
    issue w s = .next s.raiseIllegal := by
  obtain ⟨i, hd, h⟩ | ⟨r, -, h⟩ := issue_cases w s
  · exact h.trans (exec_of_not_wellFormed (by simpa only [legalWord, hd] using hw))
  · exact h

/-! What a legal command does, as data. -/

/-- What the template of R56 has left to do once the sources are read: the destinations, the results, and the ROM
patterns computed with. -/
inductive Effect where
  | scalar (d : Dst) (rom : List Scalar) (v : Scalar)
  | integer (d : Dst) (v : Word32)
  | both (d e : Dst) (v : Scalar) (w : Word32)

namespace Effect

/-- The effect in a state, of a command at format `F` with sources `fs` and `ns`. -/
def run (F : Format) (fs ns : List RegNum) (s : State) : Effect → State
  | .scalar d rom v => s.finishF F d fs ns rom v
  | .integer d v => s.finishN F d fs ns [] v
  | .both d e v w => s.finishFN F d e fs ns v w

/-- The destinations in the scalar file. -/
def scalarDsts : Effect → List Dst
  | .scalar d _ _ | .both d _ _ _ => [d]
  | .integer _ _ => []

/-- The destinations in the integer file. -/
def integerDsts : Effect → List Dst
  | .integer d _ | .both _ d _ _ => [d]
  | .scalar _ _ _ => []

/-- Every destination. -/
def dsts (x : Effect) : List Dst := x.scalarDsts ++ x.integerDsts

end Effect

/-- Two states with one configuration in which a command of format `F` reads the same from its sources. -/
structure SameSources (i : Instr) (F : Format) (s u : State) : Prop where
  cfg : u.cfg = s.cfg
  scalars : ∀ r ∈ i.scalarSrcs, u.fr F r = s.fr F r
  integers : ∀ r ∈ i.integerSrcs, u.nReg r = s.nReg r

theorem SameSources.refl (i : Instr) (F : Format) (s : State) : SameSources i F s s :=
  ⟨rfl, fun _ _ => rfl, fun _ _ => rfl⟩

/-- A legal command has one effect in all states in which it reads the same from its sources. The effect is the one it has
in `s`; elsewhere its results are the same functions of the same operands. -/
theorem exec_effect {i : Instr} {s : State} {F : Format} (hi : i.wellFormed s.cfg = true)
    (hF : formatOf s.cfg.ldLayout i.fmt = some F) :
    ∃ x : Effect, x.scalarDsts = i.scalarDsts ∧ x.integerDsts = i.integerDsts ∧
      ∀ u, SameSources i F s u → exec i u = .next (x.run F i.scalarSrcs i.integerSrcs u) := by
  suffices h : ∃ x : Effect, x.scalarDsts = i.scalarDsts ∧ x.integerDsts = i.integerDsts ∧
      exec i s = .next (x.run F i.scalarSrcs i.integerSrcs s) ∧
      ∀ u, SameSources i F s u → exec i u = .next (x.run F i.scalarSrcs i.integerSrcs u) from
    h.imp fun x ⟨hs, hn, _, hu⟩ => ⟨hs, hn, hu⟩
  replace hi := (Bool.and_eq_true_iff.mp hi).2
  cases i with
  | xman p d a | recadd p d a b c | recmul p d a b c | newton3 p d a b | sgncpy p d a b | sgnclr p d a
  | recomp p d a b =>
    refine ⟨.scalar d _ _, rfl, rfl, congrArg _ (withFormat_of_some _ hF), fun u ⟨hc, hf, hn⟩ =>
      (congrArg _ (withFormat_of_some (F := F) _ (hc ▸ hF))).trans ?_⟩
    simp_all [Effect.run, Instr.scalarSrcs, Instr.integerSrcs]
  | xsign p d a | xexp p d a | isnan p d a | isinf p d a | isnaninf p d a | issubz p d a =>
    refine ⟨.integer d _, rfl, rfl, congrArg _ (withFormat_of_some _ hF), fun u ⟨hc, hf, hn⟩ =>
      (congrArg _ (withFormat_of_some (F := F) _ (hc ▸ hF))).trans ?_⟩
    simp_all [Effect.run, Instr.scalarSrcs, Instr.integerSrcs]
  | decomp p d e a =>
    refine ⟨.both d e _ _, rfl, rfl, congrArg _ (withFormat_of_some _ hF), fun u ⟨hc, hf, hn⟩ =>
      (congrArg _ (withFormat_of_some (F := F) _ (hc ▸ hF))).trans ?_⟩
    simp_all [Effect.run, Instr.scalarSrcs, Instr.integerSrcs]
  | tload p d a t | resdiv p d a b t | ressub p d a b t | resmul p d a b t =>
    obtain ⟨T, hT, h⟩ := withTable_of_hasTable _ hF hi
    refine ⟨.scalar d _ _, rfl, rfl, congrArg _ h, fun u ⟨hc, hf, hn⟩ =>
      (congrArg _ (withTable_of_some _ (hc ▸ hF) (hc ▸ hT))).trans ?_⟩
    simp_all [Effect.run, Instr.scalarSrcs, Instr.integerSrcs]
  | tindex p d a t =>
    obtain ⟨T, hT, h⟩ := withTable_of_hasTable _ hF hi
    refine ⟨.integer d _, rfl, rfl, congrArg _ h, fun u ⟨hc, hf, hn⟩ =>
      (congrArg _ (withTable_of_some _ (hc ▸ hF) (hc ▸ hT))).trans ?_⟩
    simp_all [Effect.run, Instr.scalarSrcs, Instr.integerSrcs]
  | horner p d a k | hornersq p d a k =>
    obtain ⟨A, hA, h⟩ := withPoly_of_hasPoly _ hF hi
    refine ⟨.scalar d _ _, rfl, rfl, congrArg _ h, fun u ⟨hc, hf, hn⟩ =>
      (congrArg _ (withPoly_of_some _ (hc ▸ hF) (hc ▸ hA))).trans ?_⟩
    simp_all [Effect.run, Instr.scalarSrcs, Instr.integerSrcs]
  | rational p d a k =>
    obtain ⟨A, B, hA, h⟩ := withRational_of_hasRational _ hF hi
    refine ⟨.scalar d _ _, rfl, rfl, congrArg _ h, fun u ⟨hc, hf, hn⟩ =>
      (congrArg _ (withRational_of_some _ (hc ▸ hF) (hc ▸ hA))).trans ?_⟩
    simp_all [Effect.run, Instr.scalarSrcs, Instr.integerSrcs]

end Sys2Proof.Machine

/-! SUPPORT. What the effect of a legal command leaves, and what every step keeps: a relation between two states that the
updates keep when both sides make them, and a property of one state that they keep. -/

namespace Sys2Proof.Machine

/-! The template with a `NULL` destination, and its record of reads (R56; log 2). -/

@[simp] theorem putN_unwrittenRead (s : State) (ok : Bool) (r : RegNum) (v : Word32) :
    (s.putN ok r v).unwrittenRead = s.unwrittenRead := by
  obtain ⟨-, h⟩ | ⟨-, h⟩ := putN_cases s ok r v <;> simp [h]

@[simp] theorem putF_unwrittenRead (s : State) (F : Format) (ok : Bool) (r : RegNum) (v : Scalar) :
    (s.putF F ok r v).unwrittenRead = s.unwrittenRead := by
  obtain ⟨-, h⟩ | ⟨-, h⟩ := putF_cases s F ok r v <;> simp [h]

namespace Effect

variable {x : Effect} {F : Format} {fs ns : List RegNum} {s : State}

/-- With a `NULL` destination nothing is read and nothing changes (R49, R63). -/
theorem run_of_null (h : Dst.null ∈ x.dsts) : x.run F fs ns s = s := by
  cases x with
  | scalar d rom v => cases d <;> simp_all [run, dsts, scalarDsts, integerDsts, State.finishF]
  | integer d v => cases d <;> simp_all [run, dsts, scalarDsts, integerDsts, State.finishN]
  | both d e v w => cases d <;> cases e <;> simp_all [run, dsts, scalarDsts, integerDsts, State.finishFN]

theorem run_unwrittenRead (h : Dst.null ∉ x.dsts) :
    (x.run F fs ns s).unwrittenRead = (s.unwrittenRead || !s.allWritten fs ns) := by
  cases x with
  | scalar d rom v => cases d <;> simp_all [run, dsts, scalarDsts, integerDsts, State.finishF]
  | integer d v => cases d <;> simp_all [run, dsts, scalarDsts, integerDsts, State.finishN]
  | both d e v w => cases d <;> cases e <;> simp_all [run, dsts, scalarDsts, integerDsts, State.finishFN]

end Effect

theorem exec_of_null {i : Instr} {s : State} (hi : i.wellFormed s.cfg = true) (h : Dst.null ∈ i.dsts) :
    exec i s = .next s := by
  obtain ⟨F, hF⟩ := exists_formatOf hi
  obtain ⟨x, hsd, hid, hx⟩ := exec_effect hi hF
  rw [hx s (.refl i F s), Effect.run_of_null (by rwa [Effect.dsts, hsd, hid])]

theorem exec_unwrittenRead {i : Instr} {s t : State} (hi : i.wellFormed s.cfg = true) (h : Dst.null ∉ i.dsts)
    (ht : exec i s = .next t) : t.unwrittenRead = (s.unwrittenRead || !s.allWritten i.scalarSrcs i.integerSrcs) := by
  obtain ⟨F, hF⟩ := exists_formatOf hi
  obtain ⟨x, hsd, hid, hx⟩ := exec_effect hi hF
  rw [hx s (.refl i F s), Host.Outcome.next.injEq] at ht
  rw [← ht, Effect.run_unwrittenRead (by rwa [Effect.dsts, hsd, hid])]

/-! A relation that the updates keep. -/

/-- The scalar operands are the same, so their well-formedness is. -/
theorem operandsOk_congr {s u : State} {F : Format} {fs : List RegNum} (rom : List Scalar)
    (h : ∀ r ∈ fs, u.fr F r = s.fr F r) : u.operandsOk F fs rom = s.operandsOk F fs rom := by
  rw [State.operandsOk, List.map_congr_left h, State.operandsOk]

/-- Kept when a legal command makes the same update on both sides. The counts of free values used are the same, so that
the next free value is. -/
structure KeptByUpdates (R : State → State → Prop) : Prop where
  freeCount : ∀ {s u}, R s u → u.freeCount = s.freeCount
  noteReads : ∀ {s u} fs ns, R s u → R (s.noteReads fs ns) (u.noteReads fs ns)
  writeF : ∀ {s u} i v, R s u → R (s.writeF i v) (u.writeF i v)
  writeN : ∀ {s u} i v, R s u → R (s.writeN i v) (u.writeN i v)
  useFree : ∀ {s u}, R s u → R s.useFree u.useFree

namespace KeptByUpdates

variable {R : State → State → Prop} {s u : State}

theorem putN (hR : KeptByUpdates R) (h : R s u) (ok : Bool) (r : RegNum) (v : Word32) :
    R (s.putN ok r v) (u.putN ok r v) := by
  cases ok with
  | true => exact hR.writeN r v h
  | false =>
    simp only [State.putN, hR.freeCount h]
    exact hR.useFree (hR.writeN r _ h)

theorem putF (hR : KeptByUpdates R) (h : R s u) (F : Format) (ok : Bool) (r : RegNum) (v : Scalar) :
    R (s.putF F ok r v) (u.putF F ok r v) := by
  cases ok with
  | true => exact hR.writeF r _ h
  | false =>
    simp only [State.putF, hR.freeCount h]
    exact hR.useFree (hR.writeF r _ h)

theorem run {F : Format} {fs : List RegNum} (hR : KeptByUpdates R) (h : R s u)
    (hfs : ∀ r ∈ fs, u.fr F r = s.fr F r) (x : Effect) (ns : List RegNum) :
    R (x.run F fs ns s) (x.run F fs ns u) := by
  have hread : R (s.noteReads fs ns) (u.noteReads fs ns) := hR.noteReads _ _ h
  cases x with
  | scalar d rom v =>
    cases d with
    | null => exact h
    | reg r => simpa only [Effect.run, State.finishF, operandsOk_congr _ hfs] using hR.putF hread _ _ _ _
  | integer d v =>
    cases d with
    | null => exact h
    | reg r => simpa only [Effect.run, State.finishN, operandsOk_congr _ hfs] using hR.putN hread _ _ _
  | both d e v w =>
    cases d with
    | null => exact h
    | reg r =>
      cases e with
      | null => exact h
      | reg q =>
        simpa only [Effect.run, State.finishFN, operandsOk_congr _ hfs] using
          hR.putN (hR.putF hread _ _ _ _) _ _ _

/-- A legal command that reads the same on both sides keeps what its updates keep. -/
theorem exec {i : Instr} {F : Format} {t t' : State} (hR : KeptByUpdates R) (h : R s u)
    (hi : i.wellFormed s.cfg = true) (hF : formatOf s.cfg.ldLayout i.fmt = some F) (hsrc : SameSources i F s u)
    (ht : exec i s = .next t) (ht' : Machine.exec i u = .next t') : R t t' := by
  obtain ⟨x, -, -, hx⟩ := exec_effect hi hF
  rw [hx s (.refl i F s), Host.Outcome.next.injEq] at ht
  rw [hx u hsrc, Host.Outcome.next.injEq] at ht'
  exact ht ▸ ht' ▸ hR.run h hsrc.scalars x _

end KeptByUpdates

/-! A property that the updates keep. -/

/-- Kept by every update that a legal command makes. -/
structure KeptByCommands (P : State → Prop) : Prop where
  noteReads : ∀ {s} fs ns, P s → P (s.noteReads fs ns)
  writeF : ∀ {s} i v, P s → P (s.writeF i v)
  writeN : ∀ {s} i v, P s → P (s.writeN i v)
  useFree : ∀ {s}, P s → P s.useFree

/-- Kept by every update that a step makes. -/
structure KeptByMoves (P : State → Prop) : Prop extends KeptByCommands P where
  raiseIllegal : ∀ {s}, P s → P s.raiseIllegal
  answer : ∀ {s} a, P s → P (s.answer a)
  resetBlock : ∀ {s}, P s → P s.resetBlock
  takeMove : ∀ {s} rest, P s → P { s with host := rest }

section Property

variable {P : State → Prop} {s t : State}

/-- A property of one state as a relation: two equal states that have it. -/
theorem KeptByCommands.keptByUpdates (hP : KeptByCommands P) : KeptByUpdates fun s u => P s ∧ u = s where
  freeCount := fun ⟨_, e⟩ => e ▸ rfl
  noteReads := fun fs ns ⟨h, e⟩ => ⟨hP.noteReads fs ns h, e ▸ rfl⟩
  writeF := fun i v ⟨h, e⟩ => ⟨hP.writeF i v h, e ▸ rfl⟩
  writeN := fun i v ⟨h, e⟩ => ⟨hP.writeN i v h, e ▸ rfl⟩
  useFree := fun ⟨h, e⟩ => ⟨hP.useFree h, e ▸ rfl⟩

theorem KeptByCommands.exec {i : Instr} (hP : KeptByCommands P) (hi : i.wellFormed s.cfg = true) (h : P s)
    (ht : exec i s = .next t) : P t := by
  obtain ⟨F, hF⟩ := exists_formatOf hi
  exact (hP.keptByUpdates.exec ⟨h, rfl⟩ hi hF (.refl i F s) ht ht).1

theorem KeptByCommands.issue {w : Command} (hP : KeptByCommands P) (hw : legalWord s.cfg w = true) (h : P s)
    (ht : issue w s = .next t) : P t := by
  obtain ⟨i, hi, e⟩ := issue_of_legalWord hw
  exact hP.exec hi h (e ▸ ht)

theorem KeptByMoves.hostMove {m : HostMove} (hP : KeptByMoves P) (h : P s) (ht : hostMove m s = .next t) : P t := by
  cases m with
  | issue w =>
    cases hw : legalWord s.cfg w with
    | true => exact hP.issue hw h ht
    | false =>
      cases (issue_of_not_legalWord hw).symm.trans ht
      exact hP.raiseIllegal h
  | writeF i v => cases ht; exact hP.writeF _ _ h
  | writeN i v => cases ht; exact hP.writeN _ _ h
  | readF i => cases ht; exact hP.answer _ (hP.noteReads _ _ h)
  | readN i => cases ht; exact hP.answer _ (hP.noteReads _ _ h)
  | readStatus => cases ht; exact hP.answer _ h
  | readConfig => cases ht; exact hP.answer _ h
  | reset => cases ht; exact hP.resetBlock h

/-- What every update keeps, every step keeps. -/
theorem KeptByMoves.step (hP : KeptByMoves P) (h : P s) (ht : step s = .next t) : P t := by
  obtain ⟨-, e⟩ | ⟨m, rest, -, e⟩ := step_cases s
  · cases e.symm.trans ht
    exact h
  · exact hP.hostMove (hP.takeMove rest h) (e ▸ ht)

end Property

end Sys2Proof.Machine

/-! SUPPORT. What the statements about the state (`10_state.md`) speak of, under each update of the state. -/

namespace Sys2Proof.Machine

/-! `STATUS` and `CONFIG` (R27, R28). -/

@[simp] theorem raiseIllegal_ill (s : State) : s.raiseIllegal.ill = true := by
  simp [State.ill, setIll]

@[simp] theorem resetBlock_ill (s : State) : s.resetBlock.ill = false := by
  simp [State.ill]

/-- Setting `ILL` leaves the reserved bits of `STATUS`. -/
theorem setIll_reserved (v : Word32) : (setIll v).extractLsb' 1 31 = v.extractLsb' 1 31 := by
  rw [setIll, BitVec.extractLsb'_or]
  exact BitVec.or_zero

/-- A legal command leaves `STATUS`, as each of its updates does. -/
theorem status_keptByCommands (v : Word32) : KeptByCommands fun s => s.status = v where
  noteReads := fun _ _ h => h
  writeF := fun _ _ h => h
  writeN := fun _ _ h => h
  useFree := fun h => h

theorem issue_ill {w : Command} {s t : State} (ht : issue w s = .next t) :
    t.ill = (s.ill || !legalWord s.cfg w) := by
  cases hw : legalWord s.cfg w with
  | true =>
    have hst : t.status = s.status := (status_keptByCommands s.status).issue hw rfl ht
    simp [State.ill, hst]
  | false =>
    cases (issue_of_not_legalWord hw).symm.trans ht
    simp

/-- No step changes the configuration, as no update does (R36). -/
theorem cfg_keptByMoves (c : Config) : KeptByMoves fun s => s.cfg = c where
  noteReads := fun _ _ h => h
  writeF := fun _ _ h => h
  writeN := fun _ _ h => h
  useFree := fun h => h
  raiseIllegal := fun h => h
  answer := fun _ h => h
  resetBlock := fun h => h
  takeMove := fun _ h => h

theorem step_cfg {s t : State} (h : step s = .next t) : t.cfg = s.cfg := (cfg_keptByMoves s.cfg).step rfl h

/-! Which registers count as written, and what the reset move leaves in them (R25, R32; log 1). -/

theorem writeF_fWritten_getElem (s : State) (i j : RegNum) (v : Scalar) :
    (s.writeF i v).fWritten[j.val] = if i = j then true else s.fWritten[j.val] := by
  simp only [writeF_fWritten, Vector.getElem_set, Fin.ext_iff]

theorem writeN_nWritten_getElem (s : State) (i j : RegNum) (v : Word32) :
    (s.writeN i v).nWritten[j.val] = if i = j then true else s.nWritten[j.val] := by
  simp only [writeN_nWritten, Vector.getElem_set, Fin.ext_iff]

@[simp] theorem resetBlock_fReg (s : State) (i : RegNum) :
    s.resetBlock.fReg i = Config.unwrittenScalar (s.epoch + 1) i := by
  simp [State.fReg]

@[simp] theorem resetBlock_nReg (s : State) (i : RegNum) :
    s.resetBlock.nReg i = Config.unwrittenInteger (s.epoch + 1) i := by
  simp [State.nReg]

theorem blockInvariant_keptByMoves : KeptByMoves State.blockInvariant where
  noteReads := fun _ _ h => h
  writeF := fun {s} i v ⟨hst, ha, hf, hn⟩ => by
    refine ⟨hst, ha, fun j hj => ?_, hn⟩
    rw [writeF_fWritten_getElem] at hj
    split at hj
    · contradiction
    · simp [*]
  writeN := fun {s} i v ⟨hst, ha, hf, hn⟩ => by
    refine ⟨hst, ha, hf, fun j hj => ?_⟩
    rw [writeN_nWritten_getElem] at hj
    split at hj
    · contradiction
    · simp [*]
  useFree := fun h => h
  raiseIllegal := fun ⟨hst, h⟩ => ⟨(setIll_reserved _).trans hst, h⟩
  answer := fun _ h => h
  resetBlock := fun {s} ⟨_, ha, _, _⟩ =>
    ⟨by simp, ha, fun i _ => resetBlock_fReg s i, fun i _ => resetBlock_nReg s i⟩
  takeMove := fun _ h => h

/-! Two states that differ only in what unwritten registers hold (R25, R119). -/

section Agreement

variable {s s' t t' : State}

theorem agreeOnWritten_keptByUpdates : KeptByUpdates State.agreeOnWritten where
  freeCount := fun ⟨_, _, _, _, _, _, _, _, _, _, hfree⟩ => hfree
  noteReads := fun fs ns ⟨hf, hn, hfw, hnw, hst, hcfg, hhost, hans, hread, hrest⟩ =>
    ⟨hf, hn, hfw, hnw, hst, hcfg, hhost, hans, by simp [State.allWritten, hread, hfw, hnw], hrest⟩
  writeF := fun {s u} i v ⟨hf, hn, hfw, hrest⟩ => by
    refine ⟨fun j hj => ?_, hn, by simp only [writeF_fWritten, hfw], hrest⟩
    rw [writeF_fWritten_getElem] at hj
    rw [writeF_fReg, writeF_fReg]
    split <;> simp_all
  writeN := fun {s u} i v ⟨hf, hn, hfw, hnw, hrest⟩ => by
    refine ⟨hf, fun j hj => ?_, hfw, by simp only [writeN_nWritten, hnw], hrest⟩
    rw [writeN_nWritten_getElem] at hj
    rw [writeN_nReg, writeN_nReg]
    split <;> simp_all
  useFree := fun ⟨hf, hn, hfw, hnw, hst, hcfg, hhost, hans, hread, hepoch, hfree⟩ =>
    ⟨hf, hn, hfw, hnw, hst, hcfg, hhost, hans, hread, hepoch, by simp only [useFree_freeCount, hfree]⟩

theorem agreeOnWritten_raiseIllegal (h : s.agreeOnWritten s') : s.raiseIllegal.agreeOnWritten s'.raiseIllegal := by
  obtain ⟨hf, hn, hfw, hnw, hst, hrest⟩ := h
  exact ⟨hf, hn, hfw, hnw, congrArg setIll hst, hrest⟩

theorem agreeOnWritten_answer (h : s.agreeOnWritten s') (a : Answer) :
    (s.answer a).agreeOnWritten (s'.answer a) := by
  obtain ⟨hf, hn, hfw, hnw, hst, hcfg, hhost, hans, hrest⟩ := h
  exact ⟨hf, hn, hfw, hnw, hst, hcfg, hhost, congrArg (a :: ·) hans, hrest⟩

theorem agreeOnWritten_resetBlock (h : s.agreeOnWritten s') : s.resetBlock.agreeOnWritten s'.resetBlock := by
  obtain ⟨-, -, -, -, -, hcfg, hhost, hans, hread, hepoch, hfree⟩ := h
  simp [State.agreeOnWritten, hcfg, hhost, hans, hread, hepoch, hfree]

theorem agreeOnWritten_takeMove (h : s.agreeOnWritten s') (rest : List HostMove) :
    { s with host := rest }.agreeOnWritten { s' with host := rest } := by
  obtain ⟨hf, hn, hfw, hnw, hst, hcfg, -, hrest⟩ := h
  exact ⟨hf, hn, hfw, hnw, hst, hcfg, rfl, hrest⟩

/-- A command all of whose sources are written reads the same on both sides. -/
theorem sameSources_of_allWritten {i : Instr} {F : Format} (h : s.agreeOnWritten s')
    (hw : s.allWritten i.scalarSrcs i.integerSrcs = true) : SameSources i F s s' := by
  obtain ⟨hf, hn, -, -, -, hcfg, -⟩ := h
  simp only [State.allWritten, Bool.and_eq_true, List.all_eq_true] at hw
  exact ⟨hcfg, fun r hr => congrArg F.low (hf r (hw.1 r hr)), fun r hr => hn r (hw.2 r hr)⟩

theorem exec_agreeOnWritten {i : Instr} (h : s.agreeOnWritten s') (ht : exec i s = .next t)
    (ht' : exec i s' = .next t') (hread : t.unwrittenRead = false) : t.agreeOnWritten t' := by
  obtain ⟨-, -, -, -, -, hcfg, -⟩ := id h
  cases hi : i.wellFormed s.cfg with
  | false =>
    cases (exec_of_not_wellFormed hi).symm.trans ht
    cases (exec_of_not_wellFormed (hcfg ▸ hi)).symm.trans ht'
    exact agreeOnWritten_raiseIllegal h
  | true =>
    by_cases hnull : Dst.null ∈ i.dsts
    · cases (exec_of_null hi hnull).symm.trans ht
      cases (exec_of_null (hcfg ▸ hi) hnull).symm.trans ht'
      exact h
    · obtain ⟨F, hF⟩ := exists_formatOf hi
      obtain ⟨-, hw⟩ : s.unwrittenRead = false ∧ s.allWritten i.scalarSrcs i.integerSrcs = true := by
        simpa [exec_unwrittenRead hi hnull ht] using hread
      exact agreeOnWritten_keptByUpdates.exec h hi hF (sameSources_of_allWritten h hw) ht ht'

theorem hostMove_agreeOnWritten {m : HostMove} (h : s.agreeOnWritten s') (ht : hostMove m s = .next t)
    (ht' : hostMove m s' = .next t') (hread : t.unwrittenRead = false) : t.agreeOnWritten t' := by
  obtain ⟨hf, hn, -, -, hst, hcfg, -⟩ := id h
  have hup := agreeOnWritten_keptByUpdates
  cases m with
  | issue w =>
    cases hd : decode w with
    | ok i =>
      simp only [hostMove, issue, hd] at ht ht'
      exact exec_agreeOnWritten h ht ht' hread
    | error r =>
      simp only [hostMove, issue, hd] at ht ht'
      cases ht
      cases ht'
      exact agreeOnWritten_raiseIllegal h
  | writeF i v => cases ht; cases ht'; exact hup.writeF i v h
  | writeN i v => cases ht; cases ht'; exact hup.writeN i v h
  | readF i =>
    cases ht
    cases ht'
    obtain ⟨-, hw⟩ : s.unwrittenRead = false ∧ s.fWritten[i.val] = true := by simpa [State.allWritten] using hread
    rw [hf i hw]
    exact agreeOnWritten_answer (hup.noteReads _ _ h) _
  | readN i =>
    cases ht
    cases ht'
    obtain ⟨-, hw⟩ : s.unwrittenRead = false ∧ s.nWritten[i.val] = true := by simpa [State.allWritten] using hread
    rw [hn i hw]
    exact agreeOnWritten_answer (hup.noteReads _ _ h) _
  | readStatus => cases ht; cases ht'; rw [hst]; exact agreeOnWritten_answer h _
  | readConfig => cases ht; cases ht'; rw [hcfg]; exact agreeOnWritten_answer h _
  | reset => cases ht; cases ht'; exact agreeOnWritten_resetBlock h

end Agreement

/-! Two states that differ only in what scalar registers hold (R23). -/

/-- Every field but the scalar registers is the same. -/
def State.sameButScalars (s u : State) : Prop := ∃ g, u = { s with f := g }

theorem sameButScalars_keptByUpdates : KeptByUpdates State.sameButScalars where
  freeCount := by rintro s u ⟨g, rfl⟩; rfl
  noteReads := fun _ _ ⟨g, e⟩ => ⟨g, e ▸ rfl⟩
  writeF := by rintro s u i v ⟨g, rfl⟩; exact ⟨g.set i.val v, rfl⟩
  writeN := fun _ _ ⟨g, e⟩ => ⟨g, e ▸ rfl⟩
  useFree := fun ⟨g, e⟩ => ⟨g, e ▸ rfl⟩

/-- The low `W` bits are what a command reads (R16, R23). -/
theorem fr_eq_of_low_bits {s u : State} {F : Format} {r : RegNum}
    (h : (u.fReg r).toNat % 2 ^ F.W = (s.fReg r).toNat % 2 ^ F.W) : u.fr F r = s.fr F r :=
  BitVec.eq_of_toNat_eq (by simp only [State.fr, Format.toNat_low, h])

theorem putF_fReg_congr {s u : State} (h : u.freeCount = s.freeCount) (F : Format) (ok : Bool) (r : RegNum)
    (v : Scalar) : (u.putF F ok r v).fReg r = (s.putF F ok r v).fReg r := by
  cases ok <;> simp [State.putF, h]

/-- What a command leaves in its scalar destination does not depend on what stood there. -/
theorem Effect.run_fReg_congr {x : Effect} {F : Format} {fs ns : List RegNum} {s u : State} {d : RegNum}
    (hnull : Dst.null ∉ x.dsts) (hd : Dst.reg d ∈ x.scalarDsts) (hfree : u.freeCount = s.freeCount)
    (hfs : ∀ r ∈ fs, u.fr F r = s.fr F r) : (x.run F fs ns u).fReg d = (x.run F fs ns s).fReg d := by
  have hread : (u.noteReads fs ns).freeCount = (s.noteReads fs ns).freeCount := hfree
  cases x with
  | integer e v => simp [scalarDsts] at hd
  | scalar e rom v =>
    obtain rfl : .reg d = e := by simpa [scalarDsts] using hd
    simp only [run, State.finishF, operandsOk_congr _ hfs]
    exact putF_fReg_congr hread F _ d v
  | both e q v w =>
    obtain rfl : .reg d = e := by simpa [scalarDsts] using hd
    cases q with
    | null => simp [dsts, integerDsts] at hnull
    | reg q =>
      simp only [run, State.finishFN, operandsOk_congr _ hfs, putN_fReg]
      exact putF_fReg_congr hread F _ d v

end Sys2Proof.Machine

/-! The statements about the state (`10_state.md`), settled. -/

namespace Sys2Proof.Machine

/-- Settles O16: each update of the state keeps the invariant; the writes mark the register they change, and the reset
move puts the values of its own epoch. -/
theorem stepKeepsInvariant : Obligations.StepKeepsInvariant :=
  fun _ _ h ht => blockInvariant_keptByMoves.step h ht

/-- Settles O8: a legal word leaves `STATUS`, an illegal one and the reset move say what they leave in it. -/
theorem illBitAfterStep : Obligations.IllBitAfterStep := by
  intro s t ht
  obtain ⟨hs, e⟩ | ⟨m, rest, hs, e⟩ := step_cases s
  · cases e.symm.trans ht
    simp only [hs]
  · replace ht := e.symm.trans ht
    simp only [hs]
    cases m with
    | issue w => exact issue_ill (s := { s with host := rest }) ht
    | reset => cases ht; exact resetBlock_ill _
    | _ => cases ht; rfl

/-- Settles O13: the sources are read at their low bits alone, so the effect is one on both sides. -/
theorem upperBitsNotRead : Obligations.UpperBitsNotRead := by
  intro i s s' t t' F hi hnull hF hs hlow ht ht'
  obtain ⟨g, rfl⟩ : s.sameButScalars s' := ⟨_, hs⟩
  have hsrc : SameSources i F s { s with f := g } :=
    ⟨rfl, fun r _ => fr_eq_of_low_bits (hlow r), fun _ _ => rfl⟩
  refine ⟨fun d hd => ?written, ?others⟩
  case others =>
    obtain ⟨g', rfl⟩ := sameButScalars_keptByUpdates.exec ⟨g, rfl⟩ hi hF hsrc ht ht'
    rfl
  case written =>
    obtain ⟨x, hsd, hid, hx⟩ := exec_effect hi hF
    rw [hx s (.refl i F s), Host.Outcome.next.injEq] at ht
    rw [hx _ hsrc, Host.Outcome.next.injEq] at ht'
    rw [← ht, ← ht']
    exact Effect.run_fReg_congr (by rwa [Effect.dsts, hsd, hid]) (hsd ▸ hd) rfl hsrc.scalars

/-- Settles O18: a step that reads only written registers reads the same on both sides. -/
theorem unwrittenValuesDoNotMatter : Obligations.UnwrittenValuesDoNotMatter := by
  intro s s' t t' h ht ht' hread
  obtain ⟨-, -, -, -, -, -, hhost, -⟩ := id h
  cases hs : s.host with
  | nil =>
    simp only [step, hhost, hs, Host.Outcome.next.injEq] at ht ht'
    exact ht ▸ ht' ▸ h
  | cons m rest =>
    simp only [step, hhost, hs] at ht ht'
    exact hostMove_agreeOnWritten (agreeOnWritten_takeMove h rest) ht ht' hread

/-- Settles O19: by the fields of the reset state and of the reset move. -/
theorem resetLeaves : Obligations.ResetLeaves := by
  refine ⟨fun i => by simp [State.reset], rfl, rfl, fun s rest hs => ?_⟩
  refine ⟨{ s with host := rest }.resetBlock, by simp only [step, hs, hostMove], fun i => by simp, ?_⟩
  exact ⟨rfl, rfl, rfl, rfl, rfl, rfl⟩

/-- Settles O21: by the layout; no step changes the configuration. -/
theorem configFields : Obligations.ConfigFields := by
  intro c
  refine ⟨?ldl, ?pun, ?path, ?zeros, fun s t h => congrArg configWord (step_cfg h)⟩
  all_goals
    rw [configWord]
    cases c.ldLayout <;> decide

end Sys2Proof.Machine

/-! The statement about the memory spaces (`20_memory.md`), settled. -/

namespace Sys2Proof.Machine

/-- Settles O15: no update of the state touches the configuration, the reset move and an illegal word included
(`cfg_keptByMoves`), so every step keeps it. -/
theorem configurationNeverChanges : Obligations.ConfigurationNeverChanges :=
  fun _ _ ht => step_cfg ht

end Sys2Proof.Machine

/-! SUPPORT. The command encoding (`30_encoding.md`): fields of words, fields of commands, rows of the opcode map, and
what makes a word legal. -/

namespace Sys2Proof

/-! The fields of a word (R47). -/

namespace Fields

/-- The fields cover the word. -/
@[simp] theorem toWord_ofWord (w : Command) : (ofWord w).toWord = w := by
  simp (disch := decide) only [ofWord, toWord, BitVec.extractLsb'_append_extractLsb'_eq_extractLsb']
  exact BitVec.extractLsb'_eq_self

/-- Bits of a word as bits of the fields in a row, the width being their sum. -/
theorem extractLsb'_toWord (x : Fields) (start len : Nat) :
    x.toWord.extractLsb' start len =
      (x.op ++ x.fmt ++ x.da ++ x.db ++ x.sa ++ x.sb ++ x.sc ++ x.sel).extractLsb' start len := rfl

/-- No field overlaps another. -/
@[simp] theorem ofWord_toWord (x : Fields) : ofWord x.toWord = x := by
  simp (disch := decide) only [ofWord, extractLsb'_toWord, BitVec.extractLsb'_append_eq_of_le,
    BitVec.extractLsb'_append_eq_of_add_le, Nat.reduceSub, BitVec.extractLsb'_eq_self]

theorem toWord_eq_iff {x : Fields} {w : Command} : x.toWord = w ↔ x = ofWord w :=
  ⟨fun h => h ▸ (ofWord_toWord x).symm, fun h => h ▸ toWord_ofWord w⟩

end Fields

/-! The fields of a command, one by one (R48, R49, R50). -/

theorem fmtOfBits_eq_some_iff {b : BitVec 2} {p : Fmt} : fmtOfBits b = some p ↔ fmtBits p = b := by
  cases p <;> revert b <;> decide

theorem dstOfBits_eq_some_iff {b : BitVec 4} {d : Dst} : dstOfBits b = some d ↔ dstBits d = b := by
  cases d with
  | null => revert b; decide
  | reg r => revert b r; decide

@[simp] theorem regOfBits_regBits (r : RegNum) : regOfBits (regBits r) = r := by
  revert r; decide

@[simp] theorem regBits_regOfBits (b : BitVec 3) : regBits (regOfBits b) = b := by
  revert b; decide

/-! The decoder's answer (R54). -/

namespace Fields

variable {x : Fields} {u : Bool} {i : Instr}

theorem oneDst_eq_ok_iff {mk : Fmt → Dst → Instr} :
    x.oneDst u mk = .ok i ↔ u = true ∧ ∃ p d, fmtBits p = x.fmt ∧ dstBits d = x.da ∧ mk p d = i := by
  simp only [← fmtOfBits_eq_some_iff, ← dstOfBits_eq_some_iff, oneDst]
  cases u with
  | false => simp
  | true => cases fmtOfBits x.fmt <;> cases dstOfBits x.da <;> simp

theorem twoDst_eq_ok_iff {mk : Fmt → Dst → Dst → Instr} :
    x.twoDst u mk = .ok i ↔
      u = true ∧ ∃ p d e, fmtBits p = x.fmt ∧ dstBits d = x.da ∧ dstBits e = x.db ∧ mk p d e = i := by
  simp only [← fmtOfBits_eq_some_iff, ← dstOfBits_eq_some_iff, twoDst]
  cases u with
  | false => simp
  | true => cases fmtOfBits x.fmt <;> cases dstOfBits x.da <;> cases dstOfBits x.db <;> simp

theorem exists_oneDst_eq_ok {mk : Fmt → Dst → Instr} :
    (∃ i, x.oneDst u mk = .ok i) ↔ u = true ∧ (∃ p, fmtBits p = x.fmt) ∧ ∃ d, dstBits d = x.da := by
  simp only [oneDst_eq_ok_iff]
  exact ⟨fun ⟨_, hu, p, d, hp, hd, _⟩ => ⟨hu, ⟨p, hp⟩, d, hd⟩,
    fun ⟨hu, ⟨p, hp⟩, d, hd⟩ => ⟨_, hu, p, d, hp, hd, rfl⟩⟩

theorem exists_twoDst_eq_ok {mk : Fmt → Dst → Dst → Instr} :
    (∃ i, x.twoDst u mk = .ok i) ↔
      u = true ∧ (∃ p, fmtBits p = x.fmt) ∧ (∃ d, dstBits d = x.da) ∧ ∃ d, dstBits d = x.db := by
  simp only [twoDst_eq_ok_iff]
  exact ⟨fun ⟨_, hu, p, d, e, hp, hd, he, _⟩ => ⟨hu, ⟨p, hp⟩, ⟨d, hd⟩, e, he⟩,
    fun ⟨hu, ⟨p, hp⟩, ⟨d, hd⟩, e, he⟩ => ⟨_, hu, p, d, e, hp, hd, he, rfl⟩⟩

end Fields

/-- The fields a command's operation does not use are 0, and the decoder reads each of the others back. -/
theorem Instr.toInstr_fields (i : Instr) : i.fields.toInstr = .ok i := by
  cases i with
  | decomp p d e a =>
    exact Fields.twoDst_eq_ok_iff.mpr ⟨rfl, p, d, e, rfl, rfl, rfl, by simp only [fields, regOfBits_regBits]⟩
  | _ p d => exact Fields.oneDst_eq_ok_iff.mpr ⟨rfl, p, d, rfl, rfl, by simp only [fields, regOfBits_regBits]⟩

/-- The decoder reads every field: those the operation does not use were 0, as the command's are. -/
theorem Fields.fields_of_toInstr {x : Fields} {i : Instr} (h : x.toInstr = .ok i) : i.fields = x := by
  obtain ⟨op, fmt, da, db, sa, sb, sc, sel⟩ := x
  have hop : BitVec.ofNat 5 op.toNat = op := BitVec.eq_of_toNat_eq (by simp)
  simp only [toInstr] at h
  split at h
  case h_23 => contradiction
  case h_4 hk =>
    rw [hk] at hop
    obtain ⟨hu, p, d, e, rfl, rfl, rfl, rfl⟩ := twoDst_eq_ok_iff.mp h
    simp_all [onlyDbSa, Instr.fields]
  all_goals
    rename_i hk
    rw [hk] at hop
    obtain ⟨hu, p, d, rfl, rfl, rfl⟩ := oneDst_eq_ok_iff.mp h
    simp_all [onlySa, onlySaSel, onlySaSb, onlySaSbSel, onlySaSbSc, Instr.fields]

/-- A word decodes to a command exactly when its fields are the command's. -/
theorem decode_eq_ok_iff {w : Command} {i : Instr} : decode w = .ok i ↔ i.fields = Fields.ofWord w :=
  ⟨Fields.fields_of_toInstr, fun h => by rw [decode, ← h, Instr.toInstr_fields]⟩

theorem decode_encode (i : Instr) : decode (encode i) = .ok i :=
  decode_eq_ok_iff.mpr (Fields.ofWord_toWord _).symm

theorem encode_of_decode {w : Command} {i : Instr} (h : decode w = .ok i) : encode i = w :=
  Fields.toWord_eq_iff.mpr (decode_eq_ok_iff.mp h)

/-! The opcode map (R52). -/

/-- The operation a row is for. -/
def OpRow.op (r : OpRow) : BitVec 5 := r.fixed.extractLsb' 27 5

/-- A row fixes the fields that stand under its mask. -/
theorem OpRow.selects_iff (r : OpRow) (w : Command) :
    r.selects w = true ↔
      let x := Fields.ofWord w
      let m := Fields.ofWord r.mask
      (⟨x.op &&& m.op, x.fmt &&& m.fmt, x.da &&& m.da, x.db &&& m.db, x.sa &&& m.sa, x.sb &&& m.sb,
        x.sc &&& m.sc, x.sel &&& m.sel⟩ : Fields) = Fields.ofWord r.fixed := by
  rw [← Fields.toWord_eq_iff, ← Fields.toWord_and, Fields.toWord_ofWord, Fields.toWord_ofWord, selects, beq_iff_eq]

theorem op_of_selects {r : OpRow} {w : Command} (hr : r ∈ opcodeMap) (h : r.selects w = true) :
    (Fields.ofWord w).op = r.op := by
  have hmask : ∀ r ∈ opcodeMap, (Fields.ofWord r.mask).op = BitVec.allOnes 5 := by decide
  have h := congrArg Fields.op ((r.selects_iff w).mp h)
  rw [hmask r hr, BitVec.and_allOnes] at h
  exact h

/-- No two rows have one operation, so a word selects one row at most. -/
theorem selects_unique {r r' : OpRow} {w : Command} (hr : r ∈ opcodeMap) (hr' : r' ∈ opcodeMap)
    (h : r.selects w = true) (h' : r'.selects w = true) : r' = r := by
  have hnodup : (opcodeMap.map OpRow.op).Nodup := by decide
  exact List.inj_on_of_nodup_map hnodup hr' hr ((op_of_selects hr' h').symm.trans (op_of_selects hr h))

/-- Every command has a row (R52). -/
theorem Laws.selectsItsRow : ∀ i : Instr, SelectsItsRow.Statement i
  | .xsign p d a => SelectsItsRow.xsign p d a
  | .xexp p d a => SelectsItsRow.xexp p d a
  | .xman p d a => SelectsItsRow.xman p d a
  | .decomp p d e a => SelectsItsRow.decomp p d e a
  | .isnan p d a => SelectsItsRow.isnan p d a
  | .isinf p d a => SelectsItsRow.isinf p d a
  | .isnaninf p d a => SelectsItsRow.isnaninf p d a
  | .issubz p d a => SelectsItsRow.issubz p d a
  | .tindex p d a t => SelectsItsRow.tindex p d a t
  | .tload p d a t => SelectsItsRow.tload p d a t
  | .resdiv p d a b t => SelectsItsRow.resdiv p d a b t
  | .ressub p d a b t => SelectsItsRow.ressub p d a b t
  | .resmul p d a b t => SelectsItsRow.resmul p d a b t
  | .horner p d a k => SelectsItsRow.horner p d a k
  | .hornersq p d a k => SelectsItsRow.hornersq p d a k
  | .rational p d a k => SelectsItsRow.rational p d a k
  | .recadd p d a b c => SelectsItsRow.recadd p d a b c
  | .recmul p d a b c => SelectsItsRow.recmul p d a b c
  | .newton3 p d a b => SelectsItsRow.newton3 p d a b
  | .sgncpy p d a b => SelectsItsRow.sgncpy p d a b
  | .sgnclr p d a => SelectsItsRow.sgnclr p d a
  | .recomp p d a b => SelectsItsRow.recomp p d a b

theorem fields_fmt (i : Instr) : i.fields.fmt = fmtBits i.fmt := by
  cases i <;> rfl

/-- A row that a word selects leaves the decoder nothing to check but the format and the destinations. -/
theorem exists_toInstr_eq_ok {r : OpRow} {x : Fields} (hr : r ∈ opcodeMap) (hs : r.selects x.toWord = true)
    (hp : ∃ p, fmtBits p = x.fmt) (hd : ∃ d, dstBits d = x.da) (he : x.op = 4 → ∃ d, dstBits d = x.db) :
    ∃ i, x.toInstr = .ok i := by
  obtain ⟨op, fmt, da, db, sa, sb, sc, sel⟩ := x
  have and_op : ∀ v : BitVec 5, v &&& 31 = v := fun _ => BitVec.and_allOnes
  have and_dst : ∀ v : BitVec 4, v &&& 15 = v := fun _ => BitVec.and_allOnes
  have and_src : ∀ v : BitVec 3, v &&& 7 = v := fun _ => BitVec.and_allOnes
  have and_sel : ∀ v : BitVec 8, v &&& 255 = v := fun _ => BitVec.and_allOnes
  simp only [OpRow.selects_iff, Fields.ofWord_toWord] at hs
  fin_cases hr
  all_goals simp_all [Fields.ofWord, Fields.toInstr, Fields.exists_oneDst_eq_ok, Fields.exists_twoDst_eq_ok,
    Fields.onlySa, Fields.onlySaSel, Fields.onlySaSb, Fields.onlySaSbSel, Fields.onlySaSbSc, Fields.onlyDbSa]

/-- The fields of commands: they select a row, which fixes the operation and the fields it does not use, and their
format and destinations are legal (R54 checks 1 to 4). -/
theorem exists_fields_eq_iff {x : Fields} :
    (∃ i : Instr, i.fields = x) ↔
      (∃ r ∈ opcodeMap, r.selects x.toWord = true) ∧ (∃ p, fmtBits p = x.fmt) ∧ (∃ d, dstBits d = x.da) ∧
        (x.op = 4 → ∃ d, dstBits d = x.db) := by
  constructor
  · rintro ⟨i, rfl⟩
    obtain ⟨r, hr, -, hs⟩ := Laws.selectsItsRow i
    refine ⟨⟨r, hr, hs⟩, ⟨i.fmt, (fields_fmt i).symm⟩, ?_⟩
    cases i with
    | decomp p d e a => exact ⟨⟨d, rfl⟩, fun _ => ⟨e, rfl⟩⟩
    | _ p d => exact ⟨⟨d, rfl⟩, by simp [Instr.fields]⟩
  · rintro ⟨⟨r, hr, hs⟩, hp, hd, he⟩
    exact (exists_toInstr_eq_ok hr hs hp hd he).imp fun _ => Fields.fields_of_toInstr

/-! The conditions on a word (R48, R49, R54). -/

theorem fmtBits_inj {p q : Fmt} (h : fmtBits p = fmtBits q) : p = q :=
  Option.some.inj ((fmtOfBits_eq_some_iff.mpr h).symm.trans (fmtOfBits_eq_some_iff.mpr rfl))

/-- A format's number is its bits. -/
theorem toNat_eq_iff_fmtBits_eq {b : BitVec 2} {p : Fmt} {n : Nat} (hn : (fmtBits p).toNat = n) :
    b.toNat = n ↔ fmtBits p = b := by
  rw [← hn, BitVec.toNat_inj, eq_comm]

theorem exists_dstBits_eq_iff {b : BitVec 4} : (∃ d, dstBits d = b) ↔ b.toNat ≤ 7 ∨ b.toNat = 15 := by
  simp only [← dstOfBits_eq_some_iff, ← Option.isSome_iff_exists]
  revert b
  decide

theorem allowsFmt_iff {c : Config} {p : Fmt} : c.allowsFmt p = true ↔ (p = .L → c.ldLayout ≠ .doubledouble) := by
  cases p <;> simp [Config.allowsFmt]

/-- R54 checks 3, 5 and 6 on the fields of a command. -/
theorem wellFormed_iff {c : Config} {i : Instr} {x : Fields} (h : i.fields = x) :
    i.wellFormed c = true ↔
      (i.fmt = .L → c.ldLayout ≠ .doubledouble) ∧
        (x.op.toNat ∈ [0x09, 0x0A, 0x0B, 0x0C, 0x0D] → c.hasTable i.fmt x.sel = true) ∧
        (x.op.toNat ∈ [0x0E, 0x0F] → c.hasPoly i.fmt x.sel = true) ∧
        (x.op.toNat = 0x10 → c.hasRational i.fmt x.sel = true) := by
  subst h
  rw [Instr.wellFormed.eq_def, Bool.and_eq_true, allowsFmt_iff]
  refine and_congr_right fun _ => ?_
  cases i <;> simp [Instr.fields, Instr.fmt]

theorem legalWord_iff {c : Config} {w : Command} :
    Machine.legalWord c w = true ↔ ∃ i : Instr, i.fields = Fields.ofWord w ∧ i.wellFormed c = true := by
  simp only [← decode_eq_ok_iff, Machine.legalWord]
  cases decode w <;> simp

end Sys2Proof

/-! SUPPORT. Which registers a legal command leaves and which it writes (R53, R56), from the effect it has. -/

namespace Sys2Proof.Machine

/-! The writes of the template, of a free result too. -/

section Put

variable (s : State) (F : Format) (ok : Bool) (d r : RegNum)

@[simp] theorem putF_fWritten_getElem (v : Scalar) :
    (s.putF F ok d v).fWritten[r.val] = if d = r then true else s.fWritten[r.val] := by
  obtain ⟨-, h⟩ | ⟨-, h⟩ := putF_cases s F ok d v
  · rw [h, writeF_fWritten_getElem]
  · rw [h, useFree_fWritten, writeF_fWritten_getElem]

@[simp] theorem putN_nWritten_getElem (v : Word32) :
    (s.putN ok d v).nWritten[r.val] = if d = r then true else s.nWritten[r.val] := by
  obtain ⟨-, h⟩ | ⟨-, h⟩ := putN_cases s ok d v
  · rw [h, writeN_nWritten_getElem]
  · rw [h, useFree_nWritten, writeN_nWritten_getElem]

@[simp] theorem putF_nWritten (v : Scalar) : (s.putF F ok d v).nWritten = s.nWritten := by
  obtain ⟨-, h⟩ | ⟨-, h⟩ := putF_cases s F ok d v <;> simp [h]

@[simp] theorem putN_fWritten (v : Word32) : (s.putN ok d v).fWritten = s.fWritten := by
  obtain ⟨-, h⟩ | ⟨-, h⟩ := putN_cases s ok d v <;> simp [h]

@[simp] theorem putF_nReg (v : Scalar) : (s.putF F ok d v).nReg r = s.nReg r := by
  obtain ⟨-, h⟩ | ⟨-, h⟩ := putF_cases s F ok d v <;> simp [h]

variable {d r}

theorem putF_fReg_of_ne (hd : d ≠ r) (v : Scalar) : (s.putF F ok d v).fReg r = s.fReg r := by
  obtain ⟨-, h⟩ | ⟨-, h⟩ := putF_cases s F ok d v <;> simp [h, hd]

theorem putN_nReg_of_ne (hd : d ≠ r) (v : Word32) : (s.putN ok d v).nReg r = s.nReg r := by
  obtain ⟨-, h⟩ | ⟨-, h⟩ := putN_cases s ok d v <;> simp [h, hd]

end Put

/-! An effect on the registers: it writes its destinations and leaves the others. -/

namespace Effect

variable {x : Effect} {F : Format} {fs ns : List RegNum} {s : State} {r : RegNum}

/-- What an effect without a `NULL` destination does: its writes, in the state that records its reads. -/
theorem run_cases (hnull : Dst.null ∉ x.dsts) (F : Format) (fs ns : List RegNum) (s : State) :
    ∃ ok, (∃ d v, x.scalarDsts = [.reg d] ∧ x.integerDsts = [] ∧
          x.run F fs ns s = (s.noteReads fs ns).putF F ok d v) ∨
        (∃ e w, x.scalarDsts = [] ∧ x.integerDsts = [.reg e] ∧
          x.run F fs ns s = (s.noteReads fs ns).putN ok e w) ∨
        ∃ d v e w, x.scalarDsts = [.reg d] ∧ x.integerDsts = [.reg e] ∧
          x.run F fs ns s = ((s.noteReads fs ns).putF F ok d v).putN ok e w := by
  cases x with
  | scalar d rom v =>
    cases d with
    | null => exact absurd (.head _) hnull
    | reg d => exact ⟨_, .inl ⟨d, v, rfl, rfl, rfl⟩⟩
  | integer e w =>
    cases e with
    | null => exact absurd (.head _) hnull
    | reg e => exact ⟨_, .inr (.inl ⟨e, w, rfl, rfl, rfl⟩)⟩
  | both d e v w =>
    cases d with
    | null => exact absurd (.head _) hnull
    | reg d =>
      cases e with
      | null => exact absurd (.tail _ (.head _)) hnull
      | reg e => exact ⟨_, .inr (.inr ⟨d, v, e, w, rfl, rfl, rfl⟩)⟩

theorem run_fWritten (hnull : Dst.null ∉ x.dsts) :
    (x.run F fs ns s).fWritten[r.val] = (decide (Dst.reg r ∈ x.scalarDsts) || s.fWritten[r.val]) := by
  obtain ⟨ok, ⟨d, v, hs, -, h⟩ | ⟨e, w, hs, -, h⟩ | ⟨d, v, e, w, hs, -, h⟩⟩ := run_cases hnull F fs ns s
  · simp [hs, h, eq_comm (a := r)]
  · simp [hs, h]
  · simp [hs, h, eq_comm (a := r)]

theorem run_nWritten (hnull : Dst.null ∉ x.dsts) :
    (x.run F fs ns s).nWritten[r.val] = (decide (Dst.reg r ∈ x.integerDsts) || s.nWritten[r.val]) := by
  obtain ⟨ok, ⟨d, v, -, hn, h⟩ | ⟨e, w, -, hn, h⟩ | ⟨d, v, e, w, -, hn, h⟩⟩ := run_cases hnull F fs ns s
  · simp [hn, h]
  · simp [hn, h, eq_comm (a := r)]
  · simp [hn, h, eq_comm (a := r)]

theorem run_fReg_of_notMem (hnull : Dst.null ∉ x.dsts) (hr : Dst.reg r ∉ x.scalarDsts) :
    (x.run F fs ns s).fReg r = s.fReg r := by
  obtain ⟨ok, ⟨d, v, hs, -, h⟩ | ⟨e, w, -, -, h⟩ | ⟨d, v, e, w, hs, -, h⟩⟩ := run_cases hnull F fs ns s
  · simp_all [putF_fReg_of_ne, eq_comm (a := r)]
  · simp [h]
  · simp_all [putF_fReg_of_ne, eq_comm (a := r)]

theorem run_nReg_of_notMem (hnull : Dst.null ∉ x.dsts) (hr : Dst.reg r ∉ x.integerDsts) :
    (x.run F fs ns s).nReg r = s.nReg r := by
  obtain ⟨ok, ⟨d, v, -, -, h⟩ | ⟨e, w, -, hn, h⟩ | ⟨d, v, e, w, -, hn, h⟩⟩ := run_cases hnull F fs ns s
  · simp [h]
  · simp_all [putN_nReg_of_ne, eq_comm (a := r)]
  · simp_all [putN_nReg_of_ne, eq_comm (a := r)]

end Effect

/-- The state a legal command leaves is that of an effect with its destinations. -/
theorem exec_eq_run {i : Instr} {s t : State} (hi : i.wellFormed s.cfg = true) (ht : exec i s = .next t) :
    ∃ (F : Format) (x : Effect), x.scalarDsts = i.scalarDsts ∧ x.integerDsts = i.integerDsts ∧
      t = x.run F i.scalarSrcs i.integerSrcs s := by
  obtain ⟨F, hF⟩ := exists_formatOf hi
  obtain ⟨x, hsd, hid, hx⟩ := exec_effect hi hF
  exact ⟨F, x, hsd, hid, Host.Outcome.next.inj (ht.symm.trans (hx s (.refl i F s)))⟩

/-- The fields that no command touches and `STATUS`, which only an illegal command does. -/
theorem rest_keptByCommands (s : State) : KeptByCommands fun t =>
    t.cfg = s.cfg ∧ t.host = s.host ∧ t.answers = s.answers ∧ t.epoch = s.epoch ∧ t.status = s.status where
  noteReads := fun _ _ h => h
  writeF := fun _ _ h => h
  writeN := fun _ _ h => h
  useFree := fun h => h

/-- A legal command leaves every register that is no destination of it: nothing at all with a `NULL` destination. -/
theorem exec_registers_of_notMem {i : Instr} {s t : State} (hi : i.wellFormed s.cfg = true) (ht : exec i s = .next t) :
    (∀ r, Dst.reg r ∉ i.scalarDsts → t.fReg r = s.fReg r ∧ t.fWritten[r.val] = s.fWritten[r.val]) ∧
      ∀ r, Dst.reg r ∉ i.integerDsts → t.nReg r = s.nReg r ∧ t.nWritten[r.val] = s.nWritten[r.val] := by
  by_cases hnull : Dst.null ∈ i.dsts
  · cases (exec_of_null hi hnull).symm.trans ht
    exact ⟨fun _ _ => ⟨rfl, rfl⟩, fun _ _ => ⟨rfl, rfl⟩⟩
  · obtain ⟨F, x, hsd, hid, rfl⟩ := exec_eq_run hi ht
    rw [Instr.dsts, ← hsd, ← hid] at hnull
    rw [← hsd, ← hid]
    exact ⟨fun r hr => ⟨Effect.run_fReg_of_notMem hnull hr, by simp [Effect.run_fWritten hnull, hr]⟩,
      fun r hr => ⟨Effect.run_nReg_of_notMem hnull hr, by simp [Effect.run_nWritten hnull, hr]⟩⟩

end Sys2Proof.Machine

/-! The statements about the encoding (`30_encoding.md`), settled. -/

namespace Sys2Proof.Machine

/-- Settles O1: the fields of a word are those it was made of, and the decoder inverts each field. -/
theorem decodeOfEncode : Obligations.DecodeOfEncode := decode_encode

/-- Settles O2: a word that decodes has the fields of its command, and the fields cover the word. -/
theorem encodeOfDecode : Obligations.EncodeOfDecode := fun _ _ => encode_of_decode

/-- Settles O4: the word is the encoding of its command, which selects its row; another row has another operation. -/
theorem oneRowPerDecodedWord : Obligations.OneRowPerDecodedWord := by
  intro w i h
  obtain ⟨r, hr, hname, hs⟩ := Laws.selectsItsRow i
  rw [encode_of_decode h] at hs
  exact ⟨r, hr, hname, hs, fun r' hr' hs' => selects_unique hr hr' hs hs'⟩

/-- Settles O5: checks 1, 2 and 4 hold of a word exactly when its fields are a command's, the others are the command's
own, and the two sides name one format since its bits are the same. -/
theorem legalWordConditions : Obligations.LegalWordConditions := by
  intro c w
  have hop : (w.extractLsb' 27 5).toNat = 4 ↔ (Fields.ofWord w).op = 4 := BitVec.toNat_inj (y := 4)
  have hfields := exists_fields_eq_iff (x := Fields.ofWord w)
  rw [Fields.toWord_ofWord, exists_dstBits_eq_iff, exists_dstBits_eq_iff, ← hop] at hfields
  rw [legalWord_iff]
  constructor
  · rintro ⟨i, hx, hi⟩
    obtain ⟨hrow, -, hda, hdb⟩ := hfields.mp ⟨i, hx⟩
    obtain ⟨hlayout, hrom⟩ := (wellFormed_iff hx).mp hi
    have hfmt : fmtBits i.fmt = (Fields.ofWord w).fmt := hx ▸ (fields_fmt i).symm
    exact ⟨hrow, i.fmt, (toNat_eq_iff_fmtBits_eq (by cases i.fmt <;> rfl)).mpr hfmt, hlayout, hda, hdb, hrom⟩
  · rintro ⟨hrow, p, hp, hlayout, hda, hdb, hrom⟩
    have hfmt : fmtBits p = (Fields.ofWord w).fmt := (toNat_eq_iff_fmtBits_eq (by cases p <;> rfl)).mp hp
    obtain ⟨i, hx⟩ := hfields.mpr ⟨hrow, ⟨p, hfmt⟩, hda, hdb⟩
    obtain rfl : i.fmt = p := fmtBits_inj (by rw [← fields_fmt, hx, hfmt])
    exact ⟨i, hx, (wellFormed_iff hx).mpr ⟨hlayout, hrom⟩⟩

/-- Settles O10: an illegal command changes `STATUS` alone; a legal one has an effect with its destinations. -/
theorem frameOfEveryCommand : Obligations.FrameOfEveryCommand := by
  intro i s
  obtain ⟨t, ht⟩ := exec_next i s
  refine ⟨t, ht, ?_⟩
  cases hi : i.wellFormed s.cfg with
  | false =>
    cases (exec_of_not_wellFormed hi).symm.trans ht
    simp
  | true =>
    obtain ⟨hf, hn⟩ := exec_registers_of_notMem hi ht
    obtain ⟨hcfg, hhost, hans, hepoch, hstatus⟩ := (rest_keptByCommands s).exec hi ⟨rfl, rfl, rfl, rfl, rfl⟩ ht
    exact ⟨hf, hn, hcfg, hhost, hans, hepoch, fun _ => hstatus⟩

/-- Settles O11: the effect writes its destinations; the record of its reads is `exec_unwrittenRead`. -/
theorem writesAndReadsAreRecorded : Obligations.WritesAndReadsAreRecorded := by
  intro i s t hi hnull ht
  refine ⟨?scalars, ?integers, exec_unwrittenRead hi hnull ht⟩
  all_goals
    obtain ⟨F, x, hsd, hid, rfl⟩ := exec_eq_run hi ht
    rw [Instr.dsts, ← hsd, ← hid] at hnull
    intro r hr
  case scalars => simp [Effect.run_fWritten hnull, hsd, hr]
  case integers => simp [Effect.run_nWritten hnull, hid, hr]

/-- Settles O6: by the host's next move and the decoder's answer. -/
theorem stepRunsDecodedCommand : Obligations.StepRunsDecodedCommand := by
  intro s w rest hs
  have hstep : step s = issue w { s with host := rest } := by simp only [step, hs, hostMove]
  exact ⟨fun i hd => by rw [hstep, issue, hd], fun r hd => by rw [hstep, issue, hd]; rfl⟩

end Sys2Proof.Machine

/-! SUPPORT. The execution template on well-formed operands (R56): the result in its destination, and the frame. -/

namespace Sys2Proof.Machine

section Template

variable {s : State} {F : Format} {d e : RegNum} {fs ns : List RegNum} {rom : List Scalar}

theorem operandsOk_singleton (s : State) (F : Format) (r : RegNum) :
    s.operandsOk F [r] [] = F.wellFormed (s.fr F r) := by
  simp [State.operandsOk]

/-- A state with the scalar file of a write to `d` differs in that file at `d` alone, whatever its other fields are. -/
theorem onlyScalar_of_write {t : State} {v : Scalar} (hf : t.f = (s.writeF d v).f)
    (hw : t.fWritten = (s.writeF d v).fWritten) : s.onlyScalar t d := by
  simp only [State.onlyScalar, State.fReg, hf, hw]
  refine ⟨fun j hj => ⟨?_, ?_⟩, ?_⟩
  · exact (writeF_fReg s d j v).trans (if_neg hj.symm)
  · exact (writeF_fWritten_getElem s d j v).trans (if_neg hj.symm)
  · exact (writeF_fWritten_getElem s d d v).trans (if_pos rfl)

/-- The same for the integer file. -/
theorem onlyInteger_of_write {t : State} {w : Word32} (hn : t.n = (s.writeN d w).n)
    (hw : t.nWritten = (s.writeN d w).nWritten) : s.onlyInteger t d := by
  simp only [State.onlyInteger, State.nReg, hn, hw]
  refine ⟨fun j hj => ⟨?_, ?_⟩, ?_⟩
  · exact (writeN_nReg s d j w).trans (if_neg hj.symm)
  · exact (writeN_nWritten_getElem s d j w).trans (if_neg hj.symm)
  · exact (writeN_nWritten_getElem s d d w).trans (if_pos rfl)

theorem finishN_of_operandsOk (hok : s.operandsOk F fs rom = true) (v : Word32) :
    s.finishN F (.reg d) fs ns rom v = (s.noteReads fs ns).writeN d v := by
  simp only [State.finishN, State.putN, hok, if_true]

theorem finishF_of_operandsOk (hok : s.operandsOk F fs rom = true) (v : Scalar) :
    s.finishF F (.reg d) fs ns rom v = (s.noteReads fs ns).writeF d (F.low v) := by
  simp only [State.finishF, State.putF, hok, if_true]

theorem finishFN_of_operandsOk (hok : s.operandsOk F fs [] = true) (v : Scalar) (w : Word32) :
    s.finishFN F (.reg d) (.reg e) fs ns v w = ((s.noteReads fs ns).writeF d (F.low v)).writeN e w := by
  simp only [State.finishFN, State.putF, State.putN, hok, if_true]

/-- An integer result stands in its destination, and nothing else has changed. -/
theorem finishN_writesOnly (hok : s.operandsOk F fs rom = true) (v : Word32) :
    (s.finishN F (.reg d) fs ns rom v).nReg d = v ∧
      s.integerFrame (s.finishN F (.reg d) fs ns rom v) d fs ns := by
  rw [finishN_of_operandsOk hok]
  exact ⟨by simp, onlyInteger_of_write rfl rfl, rfl, rfl, rfl, rfl, rfl, rfl, rfl, rfl, rfl⟩

/-- A scalar result stands in its destination, and nothing else has changed. -/
theorem finishF_writesOnly (hok : s.operandsOk F fs rom = true) (v : Scalar) :
    (s.finishF F (.reg d) fs ns rom v).fReg d = F.low v ∧
      s.scalarFrame (s.finishF F (.reg d) fs ns rom v) d fs ns := by
  rw [finishF_of_operandsOk hok]
  exact ⟨by simp, onlyScalar_of_write rfl rfl, rfl, rfl, rfl, rfl, rfl, rfl, rfl, rfl, rfl⟩

/-- Both results stand in their destinations, and nothing else has changed. -/
theorem finishFN_writesOnly (hok : s.operandsOk F fs [] = true) (v : Scalar) (w : Word32) :
    ((s.finishFN F (.reg d) (.reg e) fs ns v w).fReg d = F.low v ∧
        (s.finishFN F (.reg d) (.reg e) fs ns v w).nReg e = w) ∧
      s.onlyScalar (s.finishFN F (.reg d) (.reg e) fs ns v w) d ∧
      s.onlyInteger (s.finishFN F (.reg d) (.reg e) fs ns v w) e ∧
      s.restOfBlock (s.finishFN F (.reg d) (.reg e) fs ns v w) fs ns := by
  rw [finishFN_of_operandsOk hok]
  exact ⟨⟨by simp, by simp⟩, onlyScalar_of_write rfl rfl, onlyInteger_of_write rfl rfl,
    rfl, rfl, rfl, rfl, rfl, rfl, rfl⟩

end Template

end Sys2Proof.Machine

/-! SUPPORT. The decomposer (`40_decompose.md`): its commands, the fields of a register, and the branches of R62. -/

namespace Sys2Proof.Machine

/-! The commands of the decomposer at their format record (R59 to R63). -/

section Commands

variable {s : State} {p : Fmt} {F : Format}

theorem exec_xsign (hF : formatOf s.cfg.ldLayout p = some F) (d : Dst) (fs : RegNum) :
    exec (.xsign p d fs) s =
      .next (s.finishN F d [fs] [] [] (BitVec.ofNat 32 (F.sgn (s.fr F fs)).toNat)) :=
  congrArg Host.Outcome.next (withFormat_of_some _ hF)

theorem exec_xexp (hF : formatOf s.cfg.ldLayout p = some F) (d : Dst) (fs : RegNum) :
    exec (.xexp p d fs) s = .next (s.finishN F d [fs] [] [] (BitVec.ofNat 32 (F.bexp (s.fr F fs)))) :=
  congrArg Host.Outcome.next (withFormat_of_some _ hF)

theorem exec_xman (hF : formatOf s.cfg.ldLayout p = some F) (d : Dst) (fs : RegNum) :
    exec (.xman p d fs) s = .next (s.finishF F d [fs] [] [] (BitVec.ofNat 128 (F.man (s.fr F fs)))) :=
  congrArg Host.Outcome.next (withFormat_of_some _ hF)

theorem exec_decomp (hF : formatOf s.cfg.ldLayout p = some F) (d e : Dst) (fs : RegNum) :
    exec (.decomp p d e fs) s =
      .next (s.finishFN F d e [fs] [] (F.decompose (s.fr F fs)).1 (BitVec.ofInt 32 (F.decompose (s.fr F fs)).2)) :=
  congrArg Host.Outcome.next (withFormat_of_some _ hF)

end Commands

namespace Format

variable {F : Format} {x : Scalar}

/-! The fields of a register do not see what stands above the width (R16, R18). -/

section Low

variable (F) (b : Scalar)

@[simp] theorem low_low : F.low (F.low b) = F.low b :=
  (F.low_eq_self_iff _).mpr (F.toNat_low_lt b)

@[simp] theorem sgn_low : F.sgn (F.low b) = F.sgn b := by
  rw [← pack_fields, sgn_pack]

@[simp] theorem bexp_low : F.bexp (F.low b) = F.bexp b := by
  rw [← pack_fields, bexp_pack (F.bexp_le b)]

@[simp] theorem man_low : F.man (F.low b) = F.man b := by
  rw [← pack_fields, man_pack (F.man_lt b)]

end Low

/-- A mantissa field fits the width as a number of its own (R61). -/
theorem toNat_low_ofNat_man (b : Scalar) : (F.low (BitVec.ofNat 128 (F.man b))).toNat = F.man b := by
  have hW : F.man b < 2 ^ F.W :=
    (F.man_lt b).trans_le (Nat.pow_le_pow_right two_pos (by simp only [W]; omega))
  have h128 : F.man b < 2 ^ 128 := hW.trans_le (Nat.pow_le_pow_right two_pos F.W_le)
  rw [toNat_low, BitVec.toNat_ofNat, Nat.mod_eq_of_lt h128, Nat.mod_eq_of_lt hW]

/-! The branches of the decomposition (R62). -/

theorem decompose_of_special (h : F.bexp x = F.emax ∨ F.bexp x = 0 ∧ F.man x = 0) : F.decompose x = (x, 0) := by
  obtain h | h := h
  · by_cases hfrac : F.frac x = 0
    · simp only [decompose, classOf_eq_infinite_iff.mpr ⟨h, hfrac⟩]
    · simp only [decompose, classOf_eq_nan_iff.mpr ⟨h, hfrac⟩]
  · simp only [decompose, classOf_eq_zero_iff.mpr h]

theorem decompose_of_normal (h0 : F.bexp x ≠ 0) (hmax : F.bexp x ≠ F.emax) :
    F.decompose x = (F.pack false F.bias (F.man x), (F.bexp x : Int) - F.bias) := by
  simp only [decompose, classOf_eq_normal_iff.mpr ⟨h0, hmax⟩]

/-- The mantissa field of a well-formed subnormal pattern is shifted until its leading one is at bit `Fb`. -/
theorem decompose_of_subnormal (hw : F.wellFormed x = true) (h0 : F.bexp x = 0) (hm : F.man x ≠ 0) :
    ∃ sh : Nat, 1 ≤ sh ∧ sh ≤ F.Fb ∧ 2 ^ F.Fb ≤ F.man x * 2 ^ sh ∧ F.man x * 2 ^ sh < 2 ^ (F.Fb + 1) ∧
      F.decompose x = (F.pack false F.bias (F.man x * 2 ^ sh), (1 : Int) - F.bias - sh) := by
  have hlt : F.man x < 2 ^ F.Fb := by
    rw [man_of_wellFormed hw, if_pos h0]
    exact F.frac_lt x
  have hlog : (F.man x).log2 < F.Fb := (Nat.log2_lt hm).mpr hlt
  have hsum : (F.man x).log2 + (F.Fb - (F.man x).log2) = F.Fb := by omega
  refine ⟨F.Fb - (F.man x).log2, by omega, by omega, ?lower, ?upper, ?eq⟩
  case lower =>
    calc 2 ^ F.Fb = 2 ^ (F.man x).log2 * 2 ^ (F.Fb - (F.man x).log2) := by rw [← pow_add, hsum]
      _ ≤ _ := Nat.mul_le_mul_right _ (Nat.log2_self_le hm)
  case upper =>
    calc _ < 2 ^ ((F.man x).log2 + 1) * 2 ^ (F.Fb - (F.man x).log2) :=
          Nat.mul_lt_mul_of_pos_right Nat.lt_log2_self (Nat.two_pow_pos _)
      _ = 2 ^ (F.Fb + 1) := by rw [← pow_add, Nat.add_right_comm, hsum]
  case eq => simp only [decompose, classOf_eq_subnormal_iff.mpr ⟨h0, hm⟩, Nat.shiftLeft_eq]

/-- One of the three branches applies. -/
theorem bexp_man_cases (F : Format) (x : Scalar) :
    (F.bexp x = F.emax ∨ F.bexp x = 0 ∧ F.man x = 0) ∨ (F.bexp x = 0 ∧ F.man x ≠ 0) ∨
      (F.bexp x ≠ 0 ∧ F.bexp x ≠ F.emax) := by
  tauto

/-- The mantissa of the decomposition has zeros above the width where its operand has. -/
theorem low_decompose (hw : F.wellFormed x = true) (hx : F.low x = x) :
    F.low (F.decompose x).1 = (F.decompose x).1 := by
  obtain h | ⟨h0, hm⟩ | ⟨h0, hmax⟩ := F.bexp_man_cases x
  · rw [decompose_of_special h, hx]
  · obtain ⟨sh, -, -, -, -, h⟩ := decompose_of_subnormal hw h0 hm
    rw [h, low_pack]
  · rw [decompose_of_normal h0 hmax, low_pack]

theorem decompose_exponent_mem (hw : F.wellFormed x = true) :
    (1 - F.bias - F.Fb : Int) ≤ (F.decompose x).2 ∧ (F.decompose x).2 ≤ F.bias := by
  have hbias := F.bias_pos
  have hle := F.bexp_le x
  have hemax := F.emax_eq
  obtain h | ⟨h0, hm⟩ | ⟨h0, hmax⟩ := F.bexp_man_cases x
  · simp only [decompose_of_special h]; omega
  · obtain ⟨sh, -, hsh, -, -, h⟩ := decompose_of_subnormal hw h0 hm
    simp only [h]; omega
  · simp only [decompose_of_normal h0 hmax]; omega

/-- The exponent is stored in 32 bits without loss. -/
theorem toInt_ofInt_decompose (hw : F.wellFormed x = true) :
    (BitVec.ofInt 32 (F.decompose x).2).toInt = (F.decompose x).2 := by
  obtain ⟨hlo, hhi⟩ := decompose_exponent_mem hw
  have hbias : F.bias < 2 ^ 15 := by cases F <;> decide
  have hFb : F.Fb < 2 ^ 15 := by cases F <;> decide
  exact BitVec.toInt_ofInt_eq_self (by decide) (by omega) (by omega)

end Format

end Sys2Proof.Machine

/-! The statements about the decomposition (`40_decompose.md`), settled. -/

namespace Sys2Proof.Machine

open Format

/-- Settles O9: a legal command is an effect with its destinations, and one with a `NULL` among them is none. -/
theorem nullDestinationIsNoOp : Obligations.NullDestinationIsNoOp := fun _ _ => exec_of_null

/-- Settles O33: the template writes the pair of `Format.decompose`, whose exponent 32 bits hold, by R62's branches. -/
theorem decompResults : Obligations.DecompResults := by
  intro s p F d e fs hF hw
  obtain ⟨⟨hmant, hexp⟩, hframe⟩ := finishFN_writesOnly (d := d) (e := e) (ns := [])
    ((operandsOk_singleton s F fs).trans hw) (F.decompose (s.fr F fs)).1 (BitVec.ofInt 32 (F.decompose (s.fr F fs)).2)
  rw [low_decompose hw (F.low_low _)] at hmant
  have hexpInt := (congrArg BitVec.toInt hexp).trans (toInt_ofInt_decompose hw)
  refine ⟨_, exec_decomp hF _ _ _, fun h => ?special, fun h0 hm => ?subnormal,
    fun h0 hmax => ?normal, hframe⟩
  case special =>
    have h := decompose_of_special h
    exact ⟨hmant.trans (by rw [h]), hexp.trans (by rw [h]; rfl)⟩
  case subnormal =>
    obtain ⟨sh, hpos, hle, hlo, hhi, h⟩ := decompose_of_subnormal hw h0 hm
    exact ⟨sh, hpos, hle, hlo, hhi, hmant.trans (by rw [h]), hexpInt.trans (by rw [h])⟩
  case normal =>
    have h := decompose_of_normal h0 hmax
    exact ⟨hmant.trans (by rw [h]), hexpInt.trans (by rw [h])⟩

/-- Settles O32: the template writes the field, which the low bits of the register have as the register has. -/
theorem fieldExtractionResults : Obligations.FieldExtractionResults := by
  intro s p F d fs hF hw
  have hok := (operandsOk_singleton s F fs).trans hw
  refine ⟨⟨_, exec_xsign hF _ _, ?sign⟩, ⟨_, exec_xexp hF _ _, ?exponent⟩, ⟨_, exec_xman hF _ _, ?mantissa⟩⟩
  case sign =>
    obtain ⟨hres, hframe⟩ := finishN_writesOnly (d := d) (ns := []) hok (BitVec.ofNat 32 (F.sgn (s.fr F fs)).toNat)
    refine ⟨hres.trans ?_, hframe⟩
    rw [State.fr, sgn_low, sgn]
    cases (s.fReg fs).getLsbD (F.W - 1) <;> rfl
  case exponent =>
    obtain ⟨hres, hframe⟩ := finishN_writesOnly (d := d) (ns := []) hok (BitVec.ofNat 32 (F.bexp (s.fr F fs)))
    refine ⟨(congrArg BitVec.toNat hres).trans ?_, hframe⟩
    have hE : 2 ^ F.E ≤ 2 ^ 32 := Nat.pow_le_pow_right two_pos (by cases F <;> decide)
    rw [State.fr, bexp_low, BitVec.toNat_ofNat, Nat.mod_eq_of_lt ((F.bexp_lt _).trans_le hE), bexp_eq]
  case mantissa =>
    obtain ⟨hres, hframe⟩ := finishF_writesOnly (d := d) (ns := []) hok (BitVec.ofNat 128 (F.man (s.fr F fs)))
    refine ⟨(congrArg BitVec.toNat hres).trans ?_, hframe⟩
    rw [toNat_low_ofNat_man, State.fr, man_low, man_eq]

end Sys2Proof.Machine

/-! SUPPORT. The predicates (`41_classify.md`): their commands, and their bit tests as conditions on the fields. -/

namespace Sys2Proof.Machine

/-! The commands of the predicates at their format record (R68 to R71). -/

section Commands

variable {s : State} {p : Fmt} {F : Format}

theorem exec_isnan (hF : formatOf s.cfg.ldLayout p = some F) (d : Dst) (fs : RegNum) :
    exec (.isnan p d fs) s = .next (s.finishN F d [fs] [] [] (truth (F.isNan (s.fr F fs)))) :=
  congrArg Host.Outcome.next (withFormat_of_some _ hF)

theorem exec_isinf (hF : formatOf s.cfg.ldLayout p = some F) (d : Dst) (fs : RegNum) :
    exec (.isinf p d fs) s = .next (s.finishN F d [fs] [] [] (truth (F.isInf (s.fr F fs)))) :=
  congrArg Host.Outcome.next (withFormat_of_some _ hF)

theorem exec_isnaninf (hF : formatOf s.cfg.ldLayout p = some F) (d : Dst) (fs : RegNum) :
    exec (.isnaninf p d fs) s = .next (s.finishN F d [fs] [] [] (truth (F.isNanOrInf (s.fr F fs)))) :=
  congrArg Host.Outcome.next (withFormat_of_some _ hF)

theorem exec_issubz (hF : formatOf s.cfg.ldLayout p = some F) (d : Dst) (fs : RegNum) :
    exec (.issubz p d fs) s = .next (s.finishN F d [fs] [] [] (truth (F.isSubnormalOrZero (s.fr F fs)))) :=
  congrArg Host.Outcome.next (withFormat_of_some _ hF)

end Commands

namespace Format

variable {F : Format} {x : Scalar}

@[simp] theorem frac_low (F : Format) (b : Scalar) : F.frac (F.low b) = F.frac b := by
  rw [frac_eq_man_mod, man_low, ← frac_eq_man_mod]

theorem isNan_iff : F.isNan x = true ↔ F.bexp x = F.emax ∧ F.frac x ≠ 0 := by
  rw [isNan, Bool.and_eq_true, beq_iff_eq, bne_iff_ne]

theorem isInf_iff : F.isInf x = true ↔ F.bexp x = F.emax ∧ F.frac x = 0 := by
  rw [isInf, Bool.and_eq_true, beq_iff_eq, beq_iff_eq]

theorem isNanOrInf_iff : F.isNanOrInf x = true ↔ F.bexp x = F.emax := beq_iff_eq

theorem isSubnormalOrZero_iff : F.isSubnormalOrZero x = true ↔ F.bexp x = 0 := beq_iff_eq

end Format

theorem truth_eq_ite {b : Bool} {P : Prop} [Decidable P] (h : b = true ↔ P) : truth b = if P then 1 else 0 :=
  if_congr h rfl rfl

/-- A command that writes the truth of a test on a well-formed operand gives 1 or 0 and changes nothing else. -/
theorem completes_of_exec_eq_truth {i : Instr} {s : State} {F : Format} {d fs : RegNum} {b : Bool} {P : Prop}
    [Decidable P] (hw : F.wellFormed (s.fr F fs) = true)
    (hexec : exec i s = .next (s.finishN F (.reg d) [fs] [] [] (truth b))) (hb : b = true ↔ P) :
    ∃ t, exec i s = .next t ∧ t.nReg d = (if P then 1 else 0) ∧ s.integerFrame t d [fs] [] := by
  obtain ⟨hres, hframe⟩ := finishN_writesOnly (d := d) (ns := []) ((operandsOk_singleton s F fs).trans hw) (truth b)
  exact ⟨_, hexec, hres.trans (truth_eq_ite hb), hframe⟩

end Sys2Proof.Machine

/-! The statement about the predicates (`41_classify.md`), settled. -/

namespace Sys2Proof.Machine

open Format

/-- Settles O37: each predicate is a test on the two fields, which the low bits of the register have as the register
has. -/
theorem predicateResults : Obligations.PredicateResults := by
  intro s p F d fs hF hw be fr hbe hfr
  obtain rfl : F.bexp (s.fr F fs) = be := by rw [hbe, State.fr, bexp_low, bexp_eq]
  obtain rfl : F.frac (s.fr F fs) = fr := by rw [hfr, State.fr, frac_low, frac_eq]
  exact ⟨completes_of_exec_eq_truth hw (exec_isnan hF _ _) isNan_iff,
    completes_of_exec_eq_truth hw (exec_isinf hF _ _) isInf_iff,
    completes_of_exec_eq_truth hw (exec_isnaninf hF _ _) isNanOrInf_iff,
    completes_of_exec_eq_truth hw (exec_issubz hF _ _) isSubnormalOrZero_iff⟩

end Sys2Proof.Machine

/-! SUPPORT. The table indexer (`42_table_index.md`): its commands, the top bits of a fraction, the masked index, and the
break-point. -/

namespace Sys2Proof.Machine

/-! The commands of the table indexer at their format record and table (R74, R77 to R80). -/

section Commands

variable {s : State} {p : Fmt} {F : Format} {tbl : RomId} {T : Table}

theorem exec_tindex (hF : formatOf s.cfg.ldLayout p = some F) (hT : tableAt s.cfg p tbl = some T) (d : Dst)
    (fs : RegNum) :
    exec (.tindex p d fs tbl) s =
      .next (s.finishN F d [fs] [] [] (BitVec.ofNat 32 (F.topBits T.bits.val (s.fr F fs)))) :=
  congrArg Host.Outcome.next (withTable_of_some _ hF hT)

theorem exec_tload (hF : formatOf s.cfg.ldLayout p = some F) (hT : tableAt s.cfg p tbl = some T) (d : Dst)
    (ns : RegNum) :
    exec (.tload p d ns tbl) s = .next (s.finishF F d [] [ns] [] (T.read F (T.idx (s.nReg ns)))) :=
  congrArg Host.Outcome.next (withTable_of_some _ hF hT)

theorem exec_resdiv (hF : formatOf s.cfg.ldLayout p = some F) (hT : tableAt s.cfg p tbl = some T) (d : Dst)
    (fm nk : RegNum) :
    exec (.resdiv p d fm nk tbl) s = .next (s.finishF F d [fm] [nk] []
      ((s.cfg.arithAt F).fdiv (s.fr F fm) (F.breakPoint T.bits.val (T.idx (s.nReg nk)).val))) :=
  congrArg Host.Outcome.next (withTable_of_some _ hF hT)

theorem exec_ressub (hF : formatOf s.cfg.ldLayout p = some F) (hT : tableAt s.cfg p tbl = some T) (d : Dst)
    (fm nk : RegNum) :
    exec (.ressub p d fm nk tbl) s = .next (s.finishF F d [fm] [nk] []
      ((s.cfg.arithAt F).fsub (s.fr F fm) (F.breakPoint T.bits.val (T.idx (s.nReg nk)).val))) :=
  congrArg Host.Outcome.next (withTable_of_some _ hF hT)

theorem exec_resmul (hF : formatOf s.cfg.ldLayout p = some F) (hT : tableAt s.cfg p tbl = some T) (d : Dst)
    (fm nk : RegNum) :
    exec (.resmul p d fm nk tbl) s = .next (s.finishF F d [fm] [nk] [T.read F (T.idx (s.nReg nk))]
      ((s.cfg.arithAt F).fmul (s.fr F fm) (T.read F (T.idx (s.nReg nk))))) :=
  congrArg Host.Outcome.next (withTable_of_some _ hF hT)

end Commands

/-- A command that writes one result of the arithmetic, from well-formed operands, completes and changes nothing else; the
decided arithmetic gives a result of the format's width, which the write does not cut. -/
theorem completes_of_exec_eq_arith {i : Instr} {s : State} {F : Format} {d : RegNum} {fs ns : List RegNum}
    {rom : List Scalar} (op : Arith → Scalar) (hok : s.operandsOk F fs rom = true)
    (hexec : exec i s = .next (s.finishF F (.reg d) fs ns rom (op (s.cfg.arithAt F))))
    (hlow : F.low (op F.arith) = op F.arith) :
    ∃ t, exec i s = .next t ∧ t.fReg d = F.low (op (s.cfg.arithAt F)) ∧
      (s.cfg.arith = .nearestEven → t.fReg d = op F.arith) ∧ s.scalarFrame t d fs ns := by
  obtain ⟨hres, hframe⟩ := finishF_writesOnly (d := d) (ns := ns) hok (op (s.cfg.arithAt F))
  exact ⟨_, hexec, hres, fun harith => by rw [hres, arithAt_nearestEven F harith, hlow], hframe⟩

theorem val_idx (T : Table) (v : Word32) : (T.idx v).val = v.toNat % 2 ^ T.bits.val := rfl

/-- The mask keeps an index that is already one (R76). -/
theorem idx_ofNat (T : Table) {k : Nat} (hk : k < 2 ^ T.bits.val) : (T.idx (BitVec.ofNat 32 k)).val = k := by
  have hbits : 2 ^ T.bits.val ≤ 2 ^ 32 := Nat.pow_le_pow_right two_pos (by omega)
  rw [val_idx, BitVec.toNat_ofNat, Nat.mod_eq_of_lt (hk.trans_le hbits), Nat.mod_eq_of_lt hk]

namespace Format

variable {F : Format} {L k : Nat}

/-- No table has more index bits than a fraction has bits (R9, R12). -/
theorem indexBits_le_Fb (F : Format) (hL : L ≤ 16) : L ≤ F.Fb :=
  hL.trans (by cases F <;> decide)

/-- The fraction field is the index bits and the bits below them. -/
theorem two_pow_mul_two_pow_Fb_sub (F : Format) (hL : L ≤ 16) : 2 ^ L * 2 ^ (F.Fb - L) = 2 ^ F.Fb := by
  rw [← pow_add, Nat.add_sub_cancel' (F.indexBits_le_Fb hL)]

/-! The top bits of a fraction (R74). -/

theorem topBits_eq (F : Format) (L : Nat) (x : Scalar) : F.topBits L x = F.frac x / 2 ^ (F.Fb - L) :=
  Nat.shiftRight_eq_div_pow _ _

theorem topBits_lt (F : Format) (hL : L ≤ 16) (x : Scalar) : F.topBits L x < 2 ^ L := by
  rw [topBits_eq, Nat.div_lt_iff_lt_mul (Nat.two_pow_pos _), F.two_pow_mul_two_pow_Fb_sub hL]
  exact F.frac_lt x

/-- What `TINDEX` writes is the index itself: 32 bits hold it (R74). -/
theorem toNat_ofNat_topBits (F : Format) (hL : L ≤ 16) (x : Scalar) :
    (BitVec.ofNat 32 (F.topBits L x)).toNat = F.topBits L x := by
  rw [BitVec.toNat_ofNat, Nat.mod_eq_of_lt]
  exact (F.topBits_lt hL x).trans_le (Nat.pow_le_pow_right two_pos (by omega))

/-! The break-point (R76). -/

theorem breakPoint_eq (F : Format) (L k : Nat) :
    F.breakPoint L k = F.pack false F.bias (F.leadingOne (k * 2 ^ (F.Fb - L))) := by
  rw [breakPoint, Nat.shiftLeft_eq]

theorem breakPoint_frac_lt (hL : L ≤ 16) (hk : k < 2 ^ L) : k * 2 ^ (F.Fb - L) < 2 ^ F.Fb := by
  rw [← F.two_pow_mul_two_pow_Fb_sub hL]
  exact Nat.mul_lt_mul_of_pos_right hk (Nat.two_pow_pos _)

theorem bias_lt_emax (F : Format) : F.bias < F.emax := by
  rw [emax_eq]; omega

theorem wellFormed_breakPoint (hL : L ≤ 16) (hk : k < 2 ^ L) : F.wellFormed (F.breakPoint L k) = true := by
  rw [breakPoint_eq]
  exact wellFormed_pack_leadingOne F.bias_lt_emax.le F.bias_pos.ne' (breakPoint_frac_lt hL hk)

/-- The fraction of the break-point, in units of the last place, is `k/T`. -/
theorem val_breakPoint (hL : L ≤ 16) (hk : k < 2 ^ L) :
    F.val (F.breakPoint L k) = .finite (1 + (k : Rat) / 2 ^ L) := by
  have hsplit : (2 : Rat) ^ F.Fb = 2 ^ L * 2 ^ (F.Fb - L) := by
    exact_mod_cast (F.two_pow_mul_two_pow_Fb_sub hL).symm
  rw [breakPoint_eq, val_pack_leadingOne F.bias_lt_emax F.bias_pos.ne' (breakPoint_frac_lt hL hk), sub_self, zero_sub,
    zpow_neg, zpow_natCast]
  push_cast
  rw [hsplit]
  congr 1
  field_simp

end Format

end Sys2Proof.Machine

/-! The statements about the table indexer (`42_table_index.md`), settled. -/

namespace Sys2Proof.Machine

open Format

/-- Settles O39: the template writes the top bits of the fraction, which the low bits of the register have as the register
has. -/
theorem tindexResult : Obligations.TindexResult := by
  intro s p F T d fs tbl hF hT hw
  have hL : T.bits.val ≤ 16 := Nat.le_of_lt_succ T.bits.isLt
  obtain ⟨hres, hframe⟩ := finishN_writesOnly (d := d) (ns := []) ((operandsOk_singleton s F fs).trans hw)
    (BitVec.ofNat 32 (F.topBits T.bits.val (s.fr F fs)))
  have hindex := (congrArg BitVec.toNat hres).trans (F.toNat_ofNat_topBits hL _)
  refine ⟨_, exec_tindex hF hT _ _, hindex.trans ?_, hindex.trans_lt (F.topBits_lt hL _), hframe⟩
  rw [topBits_eq, State.fr, frac_low, frac_eq]

/-- Settles O42: the mask is a remainder, which an index of `TINDEX` is below; the break-point is a packed pattern with a
leading one. -/
theorem maskedIndexAndBreakPoint : Obligations.MaskedIndexAndBreakPoint := by
  refine ⟨fun T v => ?mask, fun T F m => ?unchanged, fun F L k hL hk => ⟨F.breakPoint_eq L k, val_breakPoint hL hk⟩⟩
  case mask => rw [val_idx, BitVec.extractLsb'_toNat, Nat.shiftRight_zero]
  case unchanged => exact idx_ofNat T (F.topBits_lt (Nat.le_of_lt_succ T.bits.isLt) m)

/-- Settles O40: no operand is interpreted, and the entry has the format's width already. -/
theorem tloadResult : Obligations.TloadResult := by
  intro s p F T d ns tbl hF hT
  obtain ⟨hres, hframe⟩ := finishF_writesOnly (s := s) (F := F) (d := d) (fs := []) (ns := [ns]) (rom := []) rfl
    (T.read F (T.idx (s.nReg ns)))
  exact ⟨_, exec_tload hF hT _ _, hres.trans (F.low_low _), hframe⟩

/-- Settles O41: each residual is one result of the arithmetic, from the mantissa and a well-formed second operand. -/
theorem residualResults : Obligations.ResidualResults := by
  intro s p F T d fm nk tbl k hF hT hw hk
  obtain rfl : T.idx (s.nReg nk) = k := Fin.ext hk.symm
  have hbreak := wellFormed_breakPoint (F := F) (Nat.le_of_lt_succ T.bits.isLt) (T.idx (s.nReg nk)).isLt
  have hok := (operandsOk_singleton s F fm).trans hw
  refine ⟨?division, ?difference, fun hentry => ?product⟩
  case division =>
    exact completes_of_exec_eq_arith (·.fdiv _ _) hok (exec_resdiv hF hT _ _ _) (isPattern_fdiv hw hbreak).2
  case difference =>
    exact completes_of_exec_eq_arith (·.fsub _ _) hok (exec_ressub hF hT _ _ _) (isPattern_fadd _ _).2
  case product =>
    exact completes_of_exec_eq_arith (·.fmul _ _) (by simpa [State.operandsOk] using ⟨hw, hentry⟩)
      (exec_resmul hF hT _ _ _) (isPattern_fmul hw hentry).2

end Sys2Proof.Machine

/-! SUPPORT. The Horner evaluator (`43_evaluators.md`): its commands, the order of the evaluation, the width of its
result, and the square of a negation. -/

namespace Sys2Proof.Machine

/-! The commands of the evaluator at their format record and coefficients (R82 to R84). -/

section Commands

variable {s : State} {p : Fmt} {F : Format} {cset : RomId} {c q : Poly}

theorem exec_horner (hF : formatOf s.cfg.ldLayout p = some F) (hc : coeffsAt s.cfg p cset = some (.poly c)) (d : Dst)
    (fz : RegNum) :
    exec (.horner p d fz cset) s = .next (s.finishF F d [fz] [] (c.toList.map F.low)
      ((s.cfg.arithAt F).horner (c.atFormat F) (s.fr F fz))) :=
  congrArg Host.Outcome.next (withPoly_of_some _ hF hc)

theorem exec_hornersq (hF : formatOf s.cfg.ldLayout p = some F) (hc : coeffsAt s.cfg p cset = some (.poly c)) (d : Dst)
    (fa : RegNum) :
    exec (.hornersq p d fa cset) s = .next (s.finishF F d [fa] [] (c.toList.map F.low)
      ((s.cfg.arithAt F).horner (c.atFormat F) ((s.cfg.arithAt F).fmul (s.fr F fa) (s.fr F fa)))) :=
  congrArg Host.Outcome.next (withPoly_of_some _ hF hc)

theorem exec_rational (hF : formatOf s.cfg.ldLayout p = some F)
    (hc : coeffsAt s.cfg p cset = some (.rational c q)) (d : Dst) (fz : RegNum) :
    exec (.rational p d fz cset) s = .next (s.finishF F d [fz] [] ((c.toList ++ q.toList).map F.low)
      ((s.cfg.arithAt F).fdiv ((s.cfg.arithAt F).horner (c.atFormat F) (s.fr F fz))
        ((s.cfg.arithAt F).horner (q.atFormat F) (s.fr F fz)))) := by
  rw [List.map_append]
  exact congrArg Host.Outcome.next (withRational_of_some _ hF hc)

end Commands

theorem operandsOk_coeffs {s : State} {F : Format} {r : RegNum} {cs : List Scalar}
    (hr : F.wellFormed (s.fr F r) = true) (hcs : ∀ v ∈ cs, F.wellFormed (F.low v) = true) :
    s.operandsOk F [r] (cs.map F.low) = true := by
  simpa [State.operandsOk] using ⟨hr, hcs⟩

/-- The innermost bracket holds the last coefficient, so the evaluation runs through the coefficients from the last to
the first (R81). -/
theorem Arith.hornerFrom_eq_foldl (A : Arith) (z : Scalar) {c cn : Scalar} {cs lower : List Scalar}
    (h : (c :: cs).reverse = cn :: lower) :
    A.hornerFrom z c cs = lower.foldl (fun acc ci => A.fadd ci (A.fmul z acc)) cn := by
  induction cs generalizing c lower with
  | nil =>
    obtain ⟨rfl, rfl⟩ : c = cn ∧ lower = [] := by simpa [eq_comm] using h
    rfl
  | cons c' rest ih =>
    obtain ⟨cn', inner, hinner⟩ :=
      List.exists_cons_of_ne_nil (List.reverse_ne_nil_iff.mpr (List.cons_ne_nil c' rest))
    rw [List.reverse_cons, hinner, List.cons_append, List.cons.injEq] at h
    obtain ⟨rfl, rfl⟩ := h
    rw [Arith.hornerFrom, ih hinner, List.foldl_append, List.foldl_cons, List.foldl_nil]

namespace Format

variable {F : Format}

/-- A polynomial's value is its constant coefficient or a sum (R81), so a pattern of the format whatever the argument. -/
theorem isPattern_horner {c : Poly} (hc : F.wellFormed (F.low c.c0) = true) (z : Scalar) :
    F.IsPattern (F.arith.horner (c.atFormat F) z) := by
  obtain ⟨c0, _ | ⟨c1, rest⟩⟩ := c
  · exact ⟨hc, F.low_low c0⟩
  · exact isPattern_fadd _ _

/-- The signs of the factors cancel. -/
theorem fmul_neg_neg (a b : Scalar) : F.fmul (F.neg a) (F.neg b) = F.fmul a b := by
  simp only [fmul, sgn_neg, classOf_neg, sig_neg, unitExp_neg, Bool.not_xor_not]

end Format

end Sys2Proof.Machine

/-! The statements about the Horner evaluator (`43_evaluators.md`), settled. -/

namespace Sys2Proof.Machine

open Format

/-- Settles O46, by induction on the coefficients above the constant term. -/
theorem hornerIsTheLoop : Obligations.HornerIsTheLoop :=
  fun A _ z _ _ h => A.hornerFrom_eq_foldl z h

/-- Settles O48: the two commands hand the same square to the same polynomial. -/
theorem squareArgumentIsEven : Obligations.SquareArgumentIsEven := by
  intro s p F d a b cset t u hF hwa hneg hcoeffs hpoly harith ht hu
  obtain ⟨c, hc⟩ := (hasPoly_iff _ _ _).mp hpoly
  have hwb : F.wellFormed (s.fr F b) = true := by rw [hneg, wellFormed_neg, hwa]
  have hsquare : (s.cfg.arithAt F).fmul (s.fr F b) (s.fr F b) = (s.cfg.arithAt F).fmul (s.fr F a) (s.fr F a) := by
    obtain hdecided | hsame := harith
    · rw [arithAt_nearestEven F hdecided, hneg]
      exact fmul_neg_neg _ _
    · exact hsame
  rw [exec_hornersq hF hc, Host.Outcome.next.injEq] at ht hu
  rw [← ht, ← hu, (finishF_writesOnly (operandsOk_coeffs hwa (hcoeffs c hc)) _).1,
    (finishF_writesOnly (operandsOk_coeffs hwb (hcoeffs c hc)) _).1, hsquare]

/-- Settles O47: each evaluator is one result of the arithmetic, from a well-formed argument and coefficients. -/
theorem evaluatorResults : Obligations.EvaluatorResults := by
  intro s p F d fz cset hF hw
  refine ⟨fun c hc hcoeffs => ?polynomial, fun c q hc hcoeffs => ?quotient⟩
  case polynomial =>
    have hok := operandsOk_coeffs hw hcoeffs
    have hvalue := isPattern_horner (hcoeffs c.c0 List.mem_cons_self)
    exact ⟨completes_of_exec_eq_arith (·.horner _ _) hok (exec_horner hF hc _ _) (hvalue _).2,
      completes_of_exec_eq_arith (fun A => A.horner _ (A.fmul _ _)) hok (exec_hornersq hF hc _ _) (hvalue _).2⟩
  case quotient =>
    have hnumerator := isPattern_horner (hcoeffs c.c0 (List.mem_append_left _ List.mem_cons_self)) (s.fr F fz)
    have hdenominator := isPattern_horner (hcoeffs q.c0 (List.mem_append_right _ List.mem_cons_self)) (s.fr F fz)
    exact completes_of_exec_eq_arith (fun A => A.fdiv (A.horner _ _) (A.horner _ _)) (operandsOk_coeffs hw hcoeffs)
      (exec_rational hF hc _ _) (isPattern_fdiv hnumerator.1 hdenominator.1).2

end Sys2Proof.Machine

/-! SUPPORT. The recombiner (`44_recombine.md`): its commands, the floor division by 3, its constants, a pattern with
its sign bit replaced, and sums and products of zeros. -/

namespace Sys2Proof.Machine

/-! The floor division by 3 (R88). -/

theorem thirdQuot_eq {e q r : Int} (he : e = 3 * q + r) (h0 : 0 ≤ r) (h3 : r < 3) : thirdQuot e = q := by
  rw [thirdQuot, Int.fdiv_eq_ediv_of_nonneg e (by decide)]
  omega

theorem thirdRem_eq {e q r : Int} (he : e = 3 * q + r) (h0 : 0 ≤ r) (h3 : r < 3) : thirdRem e = r := by
  rw [thirdRem, thirdQuot_eq he h0 h3]
  omega

/-! The commands of the recombiner at their format record (R87 to R92). -/

section Commands

variable {s : State} {p : Fmt} {F : Format}

theorem exec_recadd (hF : formatOf s.cfg.ldLayout p = some F) (d : Dst) (ne fp ft : RegNum) :
    exec (.recadd p d ne fp ft) s = .next (s.finishF F d [fp, ft] [ne] [kLn2 s.cfg F p]
      ((s.cfg.arithAt F).recAdd (kLn2 s.cfg F p) (s.nReg ne) (s.fr F fp) (s.fr F ft))) :=
  congrArg Host.Outcome.next (withFormat_of_some _ hF)

/-- The exponent enters by its quotient and its remainder. -/
theorem exec_recmul (hF : formatOf s.cfg.ldLayout p = some F) (d : Dst) (fp ft : RegNum) {ne : RegNum} {q r : Int}
    (he : (s.nReg ne).toInt = 3 * q + r) (h0 : 0 ≤ r) (h3 : r < 3) :
    exec (.recmul p d ne fp ft) s = .next (s.finishF F d [fp, ft] [ne] [kCbrt2 s.cfg F p r]
      ((s.cfg.arithAt F).fscale ((s.cfg.arithAt F).fmul
        ((s.cfg.arithAt F).fmul (kCbrt2 s.cfg F p r) (s.fr F ft)) (s.fr F fp)) q)) := by
  rw [← thirdQuot_eq he h0 h3, ← thirdRem_eq he h0 h3]
  exact congrArg Host.Outcome.next (withFormat_of_some _ hF)

theorem exec_newton3 (hF : formatOf s.cfg.ldLayout p = some F) (d : Dst) (fy fx : RegNum) :
    exec (.newton3 p d fy fx) s = .next (s.finishF F d [fy, fx] [] []
      ((s.cfg.arithAt F).newton3 F.two F.three (s.fr F fy) (s.fr F fx))) :=
  congrArg Host.Outcome.next (withFormat_of_some _ hF)

theorem exec_sgncpy (hF : formatOf s.cfg.ldLayout p = some F) (d : Dst) (fr fx : RegNum) :
    exec (.sgncpy p d fr fx) s =
      .next (s.finishF F d [fr, fx] [] [] (F.withSign (F.sgn (s.fr F fx)) (s.fr F fr))) :=
  congrArg Host.Outcome.next (withFormat_of_some _ hF)

theorem exec_sgnclr (hF : formatOf s.cfg.ldLayout p = some F) (d : Dst) (fs : RegNum) :
    exec (.sgnclr p d fs) s = .next (s.finishF F d [fs] [] [] (F.withSign false (s.fr F fs))) :=
  congrArg Host.Outcome.next (withFormat_of_some _ hF)

theorem exec_recomp (hF : formatOf s.cfg.ldLayout p = some F) (d : Dst) (fm ne : RegNum) :
    exec (.recomp p d fm ne) s =
      .next (s.finishF F d [fm] [ne] [] ((s.cfg.arithAt F).fscale (s.fr F fm) (s.nReg ne).toInt)) :=
  congrArg Host.Outcome.next (withFormat_of_some _ hF)

end Commands

theorem operandsOk_iff (s : State) (F : Format) (fs : List RegNum) (rom : List Scalar) :
    s.operandsOk F fs rom = true ↔ ∀ v ∈ fs.map (s.fr F) ++ rom, F.wellFormed v = true :=
  List.all_eq_true

namespace Format

variable {F : Format} {b : Scalar}

/-! The constants (R88, R89). -/

theorem bias_add_one_lt_emax (F : Format) : F.bias + 1 < F.emax := by
  have := F.bias_pos
  rw [emax_eq]
  omega

/-- The value of a positive normal pattern whose leading one is worth `2^n`. -/
theorem val_pack_bias_add {n fr : Nat} (hn : F.bias + n < F.emax) (h : fr < 2 ^ F.Fb) :
    F.val (F.pack false (F.bias + n) (F.leadingOne fr)) = .finite ((1 + (fr : Rat) / 2 ^ F.Fb) * 2 ^ n) := by
  have hexp : ((F.bias + n : Nat) : Int) - F.bias - F.Fb = n - F.Fb := by omega
  have hbe : F.bias + n ≠ 0 := (Nat.add_pos_left F.bias_pos n).ne'
  rw [val_pack_leadingOne hn hbe h, hexp, zpow_sub₀ two_ne_zero, zpow_natCast, zpow_natCast]
  push_cast
  congr 1
  field_simp

theorem val_one (F : Format) : F.val F.one = .finite 1 :=
  (val_pack_bias_add (n := 0) F.bias_lt_emax (Nat.two_pow_pos _)).trans (by simp)

theorem val_two (F : Format) : F.val F.two = .finite 2 :=
  (val_pack_bias_add F.bias_add_one_lt_emax (Nat.two_pow_pos _)).trans (by simp)

theorem two_pow_Fb_sub_one_lt (F : Format) : 2 ^ (F.Fb - 1) < 2 ^ F.Fb :=
  Nat.pow_lt_pow_right one_lt_two (Nat.sub_lt F.Fb_pos one_pos)

/-- The top bit of the fraction is worth one half. -/
theorem val_three (F : Format) : F.val F.three = .finite 3 := by
  have hhalf : (2 : Rat) ^ F.Fb = 2 ^ (F.Fb - 1) * 2 := by rw [← pow_succ, Nat.sub_add_cancel F.Fb_pos]
  rw [three, val_pack_bias_add F.bias_add_one_lt_emax F.two_pow_Fb_sub_one_lt, hhalf]
  push_cast
  congr 1
  field_simp
  norm_num

theorem wellFormed_three (F : Format) : F.wellFormed F.three = true :=
  wellFormed_pack_leadingOne F.bias_add_one_lt_emax.le (Nat.succ_ne_zero _) F.two_pow_Fb_sub_one_lt

/-! A pattern with its sign bit replaced (R90, R91). -/

theorem W_pos (F : Format) : 0 < F.W := by
  simp only [W]
  omega

theorem two_pow_W_eq_add (F : Format) : 2 ^ F.W = 2 ^ (F.W - 1) + 2 ^ (F.W - 1) := by
  rw [← Nat.two_mul, ← Nat.pow_succ', Nat.succ_eq_add_one, Nat.sub_add_cancel F.W_pos]

theorem toNat_withSign (F : Format) (s : Bool) (b : Scalar) :
    (F.withSign s b).toNat = s.toNat * 2 ^ (F.W - 1) + b.toNat % 2 ^ (F.W - 1) := by
  have hW : 1 + (F.W - 1) ≤ 128 := by
    have := F.W_le
    have := F.W_pos
    omega
  rw [withSign, BitVec.toNat_setWidth,
    Nat.mod_eq_of_lt ((BitVec.isLt _).trans_le (Nat.pow_le_pow_right two_pos hW)), BitVec.toNat_append,
    ← Nat.shiftLeft_add_eq_or_of_lt (BitVec.isLt _), Nat.shiftLeft_eq, BitVec.toNat_ofBool, BitVec.toNat_setWidth]

@[simp] theorem low_withSign (F : Format) (s : Bool) (b : Scalar) : F.low (F.withSign s b) = F.withSign s b := by
  have hrest := Nat.mod_lt b.toNat (Nat.two_pow_pos (F.W - 1))
  have hsign := Nat.mul_le_mul_right (2 ^ (F.W - 1)) (Bool.toNat_le s)
  rw [low_eq_self_iff, toNat_withSign, two_pow_W_eq_add]
  omega

/-- The bits below the sign do not see what stands above the width (R16). -/
theorem toNat_low_mod (F : Format) (b : Scalar) : (F.low b).toNat % 2 ^ (F.W - 1) = b.toNat % 2 ^ (F.W - 1) := by
  rw [toNat_low, Nat.mod_mod_of_dvd _ (pow_dvd_pow 2 (Nat.sub_le _ _))]

/-! Sums and products of zeros (R22). -/

theorem classOf_zero (F : Format) (s : Bool) : F.classOf (F.zero s) = .zero :=
  classOf_eq_zero_iff.mpr ⟨bexp_pack_zero, man_pack (Nat.two_pow_pos _)⟩

theorem isFinite_zero (F : Format) (s : Bool) : F.isFinite (F.zero s) = true :=
  isFinite_iff.mpr (.inl (F.classOf_zero s))

theorem finiteVal_zero (F : Format) (s : Bool) : F.finiteVal (F.zero s) = 0 :=
  finiteVal_of_zero wellFormed_zero (F.classOf_zero s)

theorem fmul_zero_left (s : Bool) (hb : F.isFinite b = true) : F.fmul (F.zero s) b = F.zero (s ^^ F.sgn b) := by
  have hs : F.sgn (F.zero s) = s := sgn_pack
  obtain h | h | h := classOf_of_isFinite hb <;> simp only [fmul, classOf_zero, h, hs]

theorem fadd_zero_zero (s : Bool) : F.fadd (F.zero s) (F.zero s) = F.zero s := by
  have hs : F.sgn (F.zero s) = s := sgn_pack
  rw [fadd_of_isFinite (F.isFinite_zero s) (F.isFinite_zero s), addFinite_of_sum_eq_zero, hs, Bool.and_self]
  rw [finiteVal_zero, add_zero]

end Format

end Sys2Proof.Machine

/-! The statements about the recombiner (`44_recombine.md`), settled. -/

namespace Sys2Proof.Machine

open Format

/-- Settles O51: the quotient and the remainder are those of the statement, and scaling keeps the product's width. -/
theorem recmulResult : Obligations.RecmulResult := by
  intro s p F d ne fp ft q r hF he h0 h3 hw
  obtain ⟨hp, ht, hk⟩ : F.wellFormed (s.fr F fp) = true ∧ F.wellFormed (s.fr F ft) = true ∧
      F.wellFormed (kCbrt2 s.cfg F p r) = true := by simpa using hw
  have hresult := isPattern_fscale (isPattern_fmul (isPattern_fmul hk ht).1 hp) q
  exact ⟨completes_of_exec_eq_arith (fun A => A.fscale (A.fmul (A.fmul _ _) _) q) ((operandsOk_iff ..).mpr hw)
    (exec_recmul hF _ _ _ he h0 h3) hresult.2, F.val_one⟩

/-- Settles O53: the result is the sign bit above the low bits of the first register, and no wider than the format. -/
theorem signMoveResults : Obligations.SignMoveResults := by
  intro s p F d fr fx hF hr
  refine ⟨fun hx => ?copy, ?clear⟩
  case copy =>
    have hok : s.operandsOk F [fr, fx] [] = true := (operandsOk_iff ..).mpr (by simpa using ⟨hr, hx⟩)
    obtain ⟨hres, hframe⟩ := finishF_writesOnly (d := d) (ns := []) hok (F.withSign (F.sgn (s.fr F fx)) (s.fr F fr))
    refine ⟨_, exec_sgncpy hF _ _ _, ?_, hframe⟩
    rw [hres, low_withSign, toNat_withSign, State.fr, State.fr, toNat_low_mod, sgn_low, sgn]
  case clear =>
    obtain ⟨hres, hframe⟩ := finishF_writesOnly (d := d) (ns := []) ((operandsOk_singleton s F fr).trans hr)
      (F.withSign false (s.fr F fr))
    refine ⟨_, exec_sgnclr hF _ _, ?_, hframe⟩
    rw [hres, low_withSign, toNat_withSign, State.fr, toNat_low_mod, Bool.toNat_false, Nat.zero_mul, Nat.zero_add]

/-- Settles O55: the result is one scaling, of which R22's rule says what it is for each class of the mantissa. -/
theorem recompResult : Obligations.RecompResult := by
  intro s p F d fm ne hF hw
  obtain ⟨t, hexec, hres, hdecided, hframe⟩ := completes_of_exec_eq_arith (·.fscale _ _)
    ((operandsOk_singleton s F fm).trans hw) (exec_recomp hF (.reg d) fm ne)
    (isPattern_fscale ⟨hw, F.low_low _⟩ _).2
  obtain ⟨hnan, hspecial, hrounded, -, -⟩ := conversionAndScalingRule.2 F (s.fr F fm) (s.nReg ne).toInt hw
  refine ⟨t, hexec, hres, fun harith => ?_, hframe⟩
  rw [hdecided harith]
  exact ⟨hrounded, hspecial, hnan⟩

/-- Settles O49: the result is a sum of the arithmetic, and so of the format's width. -/
theorem recaddResult : Obligations.RecaddResult := by
  intro s p F d ne fp ft hF hw
  exact completes_of_exec_eq_arith (fun A => A.recAdd _ _ _ _) ((operandsOk_iff ..).mpr hw) (exec_recadd hF _ _ _ _)
    (isPattern_fadd _ _).2

/-- Settles O50: the product of `+0` and a positive finite number is `+0`, and so is a sum of such zeros. -/
theorem recaddOfZeros : Obligations.RecaddOfZeros := by
  intro F ln2 hfinite hsgn
  calc F.arith.recAdd ln2 0 (F.zero false) (F.zero false)
      = F.fadd (F.fadd (F.fmul (F.zero false) ln2) (F.zero false)) (F.zero false) := rfl
    _ = F.zero false := by rw [fmul_zero_left _ hfinite, hsgn, Bool.xor_self, fadd_zero_zero, fadd_zero_zero]

/-- Settles O52: the result is a quotient of the arithmetic, of a sum and the constant 3, both well formed. -/
theorem newton3Result : Obligations.Newton3Result := by
  intro s p F d fy fx hF hy hx
  exact ⟨completes_of_exec_eq_arith (fun A => A.newton3 _ _ _ _)
    ((operandsOk_iff ..).mpr (by simpa using ⟨hy, hx⟩)) (exec_newton3 hF _ _ _)
    (isPattern_fdiv (isPattern_fadd _ _).1 F.wellFormed_three).2, F.val_two, F.val_three⟩

end Sys2Proof.Machine

/-! SUPPORT. What a whole call needs of the patterns (`45_assembler_sequence.md`): a replaced sign bit, the classes and
the mantissa of a decomposed operand, and the sums that no rounding changes. -/

namespace Sys2Proof.Machine

namespace Format

variable {F : Format} {a b x : Scalar} {s t : Bool}

/-! A replaced sign bit leaves the other two fields (R18, R90, R91). -/

theorem withSign_eq_pack (F : Format) (s : Bool) (b : Scalar) : F.withSign s b = F.pack s (F.bexp b) (F.man b) := by
  have hrest : b.toNat % 2 ^ (F.W - 1) = F.bexp b * 2 ^ (F.Fb + F.J) + F.man b := by
    rw [two_pow_W_sub_one, Nat.mul_comm (2 ^ F.E), Nat.mod_mul, bexp_eq, man_eq]
    ring
  apply BitVec.eq_of_toNat_eq
  rw [toNat_withSign, hrest, toNat_pack, Nat.mod_eq_of_lt (F.bexp_lt b), Nat.mod_eq_of_lt (F.man_lt b), Nat.add_assoc]

@[simp] theorem sgn_withSign : F.sgn (F.withSign s b) = s := by rw [withSign_eq_pack, sgn_pack]

@[simp] theorem bexp_withSign : F.bexp (F.withSign s b) = F.bexp b := by rw [withSign_eq_pack, bexp_pack (F.bexp_le b)]

@[simp] theorem man_withSign : F.man (F.withSign s b) = F.man b := by rw [withSign_eq_pack, man_pack (F.man_lt b)]

@[simp] theorem frac_withSign : F.frac (F.withSign s b) = F.frac b := by
  rw [frac_eq_man_mod, man_withSign, ← frac_eq_man_mod]

@[simp] theorem classOf_withSign : F.classOf (F.withSign s b) = F.classOf b := by
  simp only [classOf, bexp_withSign, man_withSign, frac_withSign]

@[simp] theorem withSign_withSign : F.withSign t (F.withSign s b) = F.withSign t b := by
  rw [withSign_eq_pack F t, bexp_withSign, man_withSign, ← withSign_eq_pack]

theorem withSign_sgn (F : Format) (b : Scalar) : F.withSign (F.sgn b) b = F.low b := by
  rw [withSign_eq_pack, pack_fields]

theorem neg_withSign : F.neg (F.withSign s b) = F.withSign (!s) b := by
  rw [neg, sgn_withSign, withSign_withSign]

theorem IsPattern.withSign (h : F.IsPattern b) (s : Bool) : F.IsPattern (F.withSign s b) := by
  refine ⟨?_, F.low_withSign s b⟩
  rw [wellFormed_iff, man_withSign, bexp_withSign, ← wellFormed_iff]
  exact h.1

theorem isFiniteNonzero_withSign : F.isFiniteNonzero (F.withSign s b) = F.isFiniteNonzero b := by
  simp only [isFiniteNonzero, isFinite, classOf_withSign]

theorem decompose_withSign (h : F.isFiniteNonzero b = true) : F.decompose (F.withSign s b) = F.decompose b := by
  obtain h | h := isFiniteNonzero_iff.mp h <;> simp only [decompose, classOf_withSign, man_withSign, bexp_withSign, h]

/-- Clearing the sign bit gives the magnitude (R91). -/
theorem val_withSign_false {q : Rat} (h : F.val b = .finite q) : F.val (F.withSign false b) = .finite |q| := by
  obtain ⟨hfinite, rfl⟩ := val_eq_finite_iff.mp h
  have hmagnitude : (0 : Rat) ≤ F.sig b * 2 ^ F.unitExp b := by positivity
  rw [val_eq_finite_iff]
  refine ⟨by simpa only [isFinite, classOf_withSign] using hfinite, ?_⟩
  simp only [finiteVal, unitExp, sig, sgn_withSign, bexp_withSign, man_withSign, frac_withSign]
  rw [← sig, ← unitExp, mul_assoc, mul_assoc]
  cases F.sgn b <;> simp [abs_of_nonneg hmagnitude]

/-! The mantissa of a decomposed operand (R62). -/

theorem isPattern_decompose (hx : F.IsPattern x) : F.IsPattern (F.decompose x).1 := by
  obtain ⟨hw, hlow⟩ := hx
  refine ⟨?_, low_decompose hw hlow⟩
  obtain h | ⟨h0, hm⟩ | ⟨h0, hmax⟩ := F.bexp_man_cases x
  · rwa [decompose_of_special h]
  · obtain ⟨sh, -, -, hlo, hhi, h⟩ := decompose_of_subnormal hw h0 hm
    rw [h, wellFormed_iff, bexp_pack F.bias_lt_emax.le]
    exact fun hJ => iff_of_true ((man_pack (hJ ▸ hhi)).symm ▸ hlo) F.bias_pos.ne'
  · rw [wellFormed_iff] at hw
    rw [decompose_of_normal h0 hmax, wellFormed_iff, bexp_pack F.bias_lt_emax.le, man_pack (F.man_lt x)]
    exact fun hJ => iff_of_true ((hw hJ).mpr h0) F.bias_pos.ne'

/-- The mantissa is a zero for a zero alone: it is the operand itself or has the bias for its exponent. -/
theorem classOf_decompose_eq_zero_iff (hw : F.wellFormed x = true) :
    F.classOf (F.decompose x).1 = .zero ↔ F.classOf x = .zero := by
  rw [classOf_eq_zero_iff (b := x)]
  obtain h | ⟨h0, hm⟩ | ⟨h0, hmax⟩ := F.bexp_man_cases x
  · rw [decompose_of_special h, classOf_eq_zero_iff]
  · obtain ⟨sh, -, -, -, -, h⟩ := decompose_of_subnormal hw h0 hm
    rw [h, classOf_eq_zero_iff, bexp_pack F.bias_lt_emax.le]
    simp [F.bias_pos.ne', hm]
  · rw [decompose_of_normal h0 hmax, classOf_eq_zero_iff, bexp_pack F.bias_lt_emax.le]
    simp [F.bias_pos.ne', h0]

/-! A mantissa field as a number of its own (R61). -/

theorem toNat_ofNat_man (F : Format) (x : Scalar) : (BitVec.ofNat 128 (F.man x)).toNat = F.man x := by
  rw [BitVec.toNat_ofNat, Nat.mod_eq_of_lt]
  exact (F.toNat_low_ofNat_man x).symm.trans_lt (BitVec.isLt _)

theorem low_ofNat_man (F : Format) (x : Scalar) :
    F.low (BitVec.ofNat 128 (F.man x)) = BitVec.ofNat 128 (F.man x) :=
  BitVec.eq_of_toNat_eq ((F.toNat_low_ofNat_man x).trans (F.toNat_ofNat_man x).symm)

theorem ofNat_man_eq_zero_iff : BitVec.ofNat 128 (F.man x) = 0 ↔ F.man x = 0 := by
  rw [← BitVec.toNat_inj, toNat_ofNat_man]
  rfl

/-! The pattern of 1.0 (R62, R76). -/

theorem isPattern_one (F : Format) : F.IsPattern F.one :=
  ⟨wellFormed_pack_leadingOne F.bias_lt_emax.le F.bias_pos.ne' (Nat.two_pow_pos _), low_pack⟩

theorem bexp_one (F : Format) : F.bexp F.one = F.bias := bexp_pack F.bias_lt_emax.le

theorem decompose_one (F : Format) : F.decompose F.one = (F.one, 0) := by
  rw [decompose_of_normal (F.bexp_one.trans_ne F.bias_pos.ne') (F.bexp_one.trans_ne F.bias_lt_emax.ne), bexp_one,
    sub_self, one, man_pack (leadingOne_lt (Nat.two_pow_pos _))]

/-- Break-point 0 is 1.0 in every table. -/
theorem breakPoint_idx_zero (F : Format) (T : Table) : F.breakPoint T.bits.val (T.idx 0).val = F.one := by
  have hzero : (T.idx 0).val = 0 := Nat.zero_mod _
  rw [hzero, breakPoint_eq, Nat.zero_mul, one]

/-! Sums that no rounding changes (R21, R22). -/

/-- A number in range that is a multiple of a unit of the format, with few enough bits for the significand, is not
changed by rounding. -/
theorem IsRounding.val_eq_of_multiple {r : Rat} {p : Scalar} {n : Nat} {g : Int} (h : F.IsRounding r p) (hr : r ≠ 0)
    (habs : |r| = n * 2 ^ g) (hg : 1 - (F.bias : Int) - F.Fb ≤ g) (hbits : |r| < (2 : Rat) ^ (F.Fb + 1 + g))
    (hrange : |r| < (2 : Rat) ^ (F.bias + 1)) : F.val p = .finite r := by
  obtain ⟨k, hk, hp⟩ := isRounding_iff.mp h
  have hlog : Int.log 2 |r| < F.Fb + 1 + g := (Int.lt_zpow_iff_log_lt (b := 2) one_lt_two (abs_pos.mpr hr)).mp hbits
  have hexp : F.roundExp r ≤ g + F.Fb := max_le (by omega) (by omega)
  have hscaled : |r| / 2 ^ (F.roundExp r - F.Fb) = ((n * 2 ^ (g - (F.roundExp r - F.Fb)).toNat : Nat) : Rat) := by
    rw [habs, mul_div_assoc, ← zpow_sub₀ two_ne_zero]
    push_cast
    rw [← zpow_natCast, Int.toNat_of_nonneg (by omega)]
  have hexact : (k : Rat) * 2 ^ (F.roundExp r - F.Fb) = |r| := by
    rw [← le_antisymm (hk.le_of_le hscaled.ge) (hk.ge_of_le hscaled.le), ← hscaled,
      div_mul_cancel₀ _ (zpow_ne_zero _ two_ne_zero)]
  rw [Represents, hexact, if_neg hrange.not_ge] at hp
  rw [hp.1]
  obtain hneg | hnonneg := lt_or_ge r 0
  · simp [hneg, abs_of_neg hneg]
  · simp [hnonneg.not_gt, abs_of_nonneg hnonneg]

/-- A sum is exact when it is below `2^(Fb+1)` in the smaller unit of its operands. -/
theorem val_fadd_of_abs_lt (ha : F.isFinite a = true) (hb : F.isFinite b = true)
    (h : |F.finiteVal a + F.finiteVal b| < (2 : Rat) ^ (F.Fb + 1 + min (F.unitExp a) (F.unitExp b))) :
    F.val (F.fadd a b) = .finite (F.finiteVal a + F.finiteVal b) := by
  have hunit := unitExp_le ha
  rw [fadd_of_isFinite ha hb]
  by_cases hzero : F.finiteVal a + F.finiteVal b = 0
  · rw [addFinite_of_sum_eq_zero hzero, hzero, val_of_isFinite (F.isFinite_zero _), finiteVal_zero]
  · refine (isRounding_addFinite hzero).val_eq_of_multiple (n := (F.sumUnits a b).natAbs) hzero ?_
      (le_min (F.le_unitExp a) (F.le_unitExp b)) h (h.trans_le ?_)
    · rw [← sumUnits_mul_zpow, abs_mul, abs_zpow, abs_two, Nat.cast_natAbs, Int.cast_abs]
    · rw [← zpow_natCast]
      exact zpow_le_zpow_right₀ one_le_two (by push_cast; omega)

/-- Just below 1.0 the difference from 1.0 is exact (R97). -/
theorem val_fsub_one (hx : F.IsPattern x) (hfinite : F.isFinite x = true) (hlo : 1 / 2 ≤ F.finiteVal x)
    (hhi : F.finiteVal x < 1) : F.val (F.fsub x F.one) = .finite (F.finiteVal x - 1) := by
  obtain ⟨hone, hval⟩ := val_eq_finite_iff.mp F.val_one
  have hunitOne : F.unitExp F.one = -F.Fb := by
    rw [unitExp, bexp_one, if_neg F.bias_pos.ne', sub_self, zero_sub]
  have hunit : -(F.Fb : Int) - 1 ≤ F.unitExp x := by
    have hsig : (F.sig x : Rat) < 2 ^ (F.Fb + 1 : Int) := by exact_mod_cast sig_lt hx.1
    have hmagnitude : (2 : Rat) ^ (-1 : Int) < 2 ^ (F.Fb + 1 + F.unitExp x : Int) :=
      calc (2 : Rat) ^ (-1 : Int) = 1 / 2 := by norm_num
        _ ≤ |F.finiteVal x| := hlo.trans (le_abs_self _)
        _ = F.sig x * 2 ^ F.unitExp x := by
          rw [finiteVal, mul_assoc, abs_mul, abs_of_nonneg (by positivity : (0 : Rat) ≤ F.sig x * 2 ^ F.unitExp x)]
          cases F.sgn x <;> simp
        _ < 2 ^ (F.Fb + 1 : Int) * 2 ^ F.unitExp x := mul_lt_mul_of_pos_right hsig (zpow_pos two_pos _)
        _ = _ := (zpow_add₀ two_ne_zero _ _).symm
    have := (zpow_lt_zpow_iff_right₀ (one_lt_two (α := Rat))).mp hmagnitude
    omega
  have hdiff : F.finiteVal x + F.finiteVal (F.neg F.one) = F.finiteVal x - 1 := by
    rw [finiteVal_neg, hval, sub_eq_add_neg]
  rw [fsub, ← hdiff]
  apply val_fadd_of_abs_lt hfinite (by rwa [isFinite_neg])
  rw [hdiff, unitExp_neg, hunitOne]
  calc |F.finiteVal x - 1| ≤ 1 / 2 := abs_le.mpr ⟨by linarith, by linarith⟩
    _ < 1 := by norm_num
    _ ≤ 2 ^ (F.Fb + 1 + min (F.unitExp x) (-F.Fb) : Int) := one_le_zpow₀ one_le_two (by omega)

end Format

end Sys2Proof.Machine

/-! SUPPORT. The programs of the host (`45_assembler_sequence.md`), one rule per move and per command: what a call sees
of the block, and what each move makes of that. -/

namespace Sys2Proof.Machine

open Format

/-- What a program of the host can tell of a state: the configuration and the two register files. What it returns
depends on nothing else (R94). -/
structure View where
  cfg : Config
  f : RegNum → Scalar
  n : RegNum → Word32

/-- The view of a state. -/
def State.view (s : State) : View := ⟨s.cfg, s.fReg, s.nReg⟩

/-- The view after a write of a scalar register. -/
def View.writeF (σ : View) (i : RegNum) (v : Scalar) : View := { σ with f := Function.update σ.f i v }

/-- The view after a write of an integer register. -/
def View.writeN (σ : View) (i : RegNum) (v : Word32) : View := { σ with n := Function.update σ.n i v }

section Registers

variable (σ : View) (i j : RegNum) (v : Scalar) (w : Word32)

@[simp] theorem View.writeF_f : (σ.writeF i v).f j = if j = i then v else σ.f j := Function.update_apply ..

@[simp] theorem View.writeN_n : (σ.writeN i w).n j = if j = i then w else σ.n j := Function.update_apply ..

@[simp] theorem View.writeF_n : (σ.writeF i v).n = σ.n := rfl

@[simp] theorem View.writeN_f : (σ.writeN i w).f = σ.f := rfl

end Registers

theorem view_writeF (s : State) (i : RegNum) (v : Scalar) : (s.writeF i v).view = s.view.writeF i v := by
  simp only [State.view, View.writeF, View.mk.injEq]
  exact ⟨rfl, funext fun j => by simp [Function.update_apply, eq_comm], rfl⟩

theorem view_writeN (s : State) (i : RegNum) (v : Word32) : (s.writeN i v).view = s.view.writeN i v := by
  simp only [State.view, View.writeN, View.mk.injEq]
  exact ⟨rfl, rfl, funext fun j => by simp [Function.update_apply, eq_comm]⟩

/-- From every state of a view the program returns the value, leaves it in the result register and leaves `STATUS` as it
was. -/
def HostProgram.Returns (k : HostProgram) (σ : View) (v : Scalar) : Prop :=
  ∀ s : State, s.view = σ → ∃ t, k.run s = .next (t, v) ∧ t.fReg 5 = v ∧ t.status = s.status

/-- The command takes every state of one view to a state of the other and leaves `STATUS` as it was. -/
def Takes (i : Instr) (σ τ : View) : Prop :=
  ∀ s : State, s.view = σ → ∃ t, exec i s = .next t ∧ t.view = τ ∧ t.status = s.status

section Moves

variable {σ τ : View} {k : HostProgram} {v w : Scalar}

theorem returns_result (h : σ.f 5 = v := by simp) : HostProgram.result.Returns σ v := by
  subst h
  rintro s rfl
  exact ⟨_, rfl, rfl, rfl⟩

theorem returns_writeF {i : RegNum} (h : k.Returns (σ.writeF i w) v) :
    (HostProgram.move (.writeF i w) k).Returns σ v := by
  rintro s rfl
  exact h (s.writeF i w) (view_writeF s i w)

theorem returns_writeN {i : RegNum} {w : Word32} (h : k.Returns (σ.writeN i w) v) :
    (HostProgram.move (.writeN i w) k).Returns σ v := by
  rintro s rfl
  exact h (s.writeN i w) (view_writeN s i w)

theorem returns_readF {i : RegNum} {k : Scalar → HostProgram} (h : (k (σ.f i)).Returns σ v) :
    (HostProgram.readF i k).Returns σ v := by
  rintro s rfl
  exact h _ rfl

theorem returns_readN {i : RegNum} {k : Word32 → HostProgram} (h : (k (σ.n i)).Returns σ v) :
    (HostProgram.readN i k).Returns σ v := by
  rintro s rfl
  exact h _ rfl

theorem Takes.returns {i : Instr} (hi : Takes i σ τ) (h : k.Returns τ v) :
    (HostProgram.move (.issue (encode i)) k).Returns σ v := by
  intro s hs
  obtain ⟨t, ht, hview, hstatus⟩ := hi s hs
  obtain ⟨u, hu, hresult, hstatus'⟩ := h t hview
  refine ⟨u, ?_, hresult, hstatus'.trans hstatus⟩
  rw [run_move, hostMove, issue, decode_encode, ← hu]
  exact congrArg (andThen · k.run) ht

theorem returns_special : (HostProgram.special v).Returns σ v :=
  returns_writeF returns_result

theorem returns_ite {P : Prop} [Decidable P] {yes no : HostProgram} (hyes : P → yes.Returns σ v)
    (hno : ¬P → no.Returns σ v) : (if P then yes else no).Returns σ v := by
  split
  case isTrue h => exact hyes h
  case isFalse h => exact hno h

end Moves

/-! The values of an approximant (R82, R84). -/

section Approximants

variable {c : Config} {F : Format} {p : Fmt} {k : RomId} {r v : Scalar}

theorem approximantValue_poly_iff : approximantValue c F p false k r = some v ↔
    ∃ a, coeffsAt c p k = some (.poly a) ∧ Poly.wellFormed F a = true ∧ F.arith.horner (a.atFormat F) r = v := by
  unfold approximantValue
  split <;> simp_all

theorem approximantValue_rational_iff : approximantValue c F p true k r = some v ↔
    ∃ a b, coeffsAt c p k = some (.rational a b) ∧ Poly.wellFormed F a = true ∧ Poly.wellFormed F b = true ∧
      F.fdiv (F.arith.horner (a.atFormat F) r) (F.arith.horner (b.atFormat F) r) = v := by
  unfold approximantValue
  split <;> simp_all [and_assoc]

theorem isPattern_horner_of_wellFormed {a : Poly} (ha : Poly.wellFormed F a = true) (r : Scalar) :
    F.IsPattern (F.arith.horner (a.atFormat F) r) :=
  isPattern_horner (List.all_eq_true.mp ha _ List.mem_cons_self) r

theorem isPattern_approximantValue {rational : Bool} (h : approximantValue c F p rational k r = some v) :
    F.IsPattern v := by
  cases rational with
  | false =>
    obtain ⟨a, -, ha, rfl⟩ := approximantValue_poly_iff.mp h
    exact isPattern_horner_of_wellFormed ha r
  | true =>
    obtain ⟨a, b, -, ha, hb, rfl⟩ := approximantValue_rational_iff.mp h
    exact isPattern_fdiv (isPattern_horner_of_wellFormed ha r).1 (isPattern_horner_of_wellFormed hb r).1

end Approximants

/-! The results of the recombiner on patterns (R88, R89). -/

section Recombiner

variable {F : Format} {x y : Scalar}

theorem isPattern_recMul {k : Scalar} (hk : F.wellFormed k = true) (e : Int) (hx : F.IsPattern x)
    (hy : F.IsPattern y) : F.IsPattern (F.arith.recMul k e x y) :=
  isPattern_fscale (isPattern_fmul (isPattern_fmul hk hy.1).1 hx.1) _

theorem isPattern_newton3 (x y : Scalar) : F.IsPattern (F.arith.newton3 F.two F.three x y) :=
  isPattern_fdiv (isPattern_fadd _ _).1 F.wellFormed_three

end Recombiner

/-! The commands on patterns: each writes its result, and no free value is used (R56; log 3). -/

section Commands

variable {σ : View} {p : Fmt} {F : Format} {d e a b : RegNum} {i : Instr} {c : Config}
  {x y : Scalar}

/-- A register that holds a pattern is read as it is (R16). -/
theorem fr_of_isPattern {s : State} (h : F.IsPattern (s.view.f a)) : s.fr F a = s.view.f a := h.2

theorem operandsOk_of_isPattern {s : State} {fs : List RegNum} {rom : List Scalar}
    (hfs : ∀ r ∈ fs, F.IsPattern (s.view.f r)) (hrom : ∀ v ∈ rom, F.wellFormed v = true) :
    s.operandsOk F fs rom = true := by
  simp only [operandsOk_iff, List.mem_append, List.mem_map]
  rintro v (⟨r, hr, rfl⟩ | hv)
  · rw [fr_of_isPattern (hfs r hr)]
    exact (hfs r hr).1
  · exact hrom v hv

/-- The arithmetic a state of the view computes with (R13). -/
theorem arithAt_of_view {s : State} (harith : s.view.cfg.arith = .nearestEven) : s.cfg.arithAt F = F.arith :=
  arithAt_nearestEven F harith

/-- A command that writes a function of its source to an integer register. -/
theorem takes_of_finishN {ns : List RegNum} (g : Scalar → Word32) (hx : F.IsPattern x) (ha : σ.f a = x)
    (hc : σ.cfg = c)
    (hexec : ∀ s : State, s.cfg = c → exec i s = .next (s.finishN F (.reg d) [a] ns [] (g (s.fr F a)))) :
    Takes i σ (σ.writeN d (g x)) := by
  subst ha
  rintro s rfl
  have hok : s.operandsOk F [a] [] = true :=
    operandsOk_of_isPattern (List.forall_mem_singleton.mpr hx) (List.forall_mem_nil _)
  refine ⟨_, (hexec s hc).trans (congrArg _ (finishN_of_operandsOk hok _)), ?_, rfl⟩
  rw [fr_of_isPattern hx]
  exact view_writeN _ d _

theorem next_of_finishF {s : State} {fs ns : List RegNum} {rom : List Scalar} {w : Scalar}
    (hexec : exec i s = .next (s.finishF F (.reg d) fs ns rom w)) (hfs : ∀ r ∈ fs, F.IsPattern (s.view.f r))
    (hrom : ∀ v ∈ rom, F.wellFormed v = true) (hw : F.low w = w) :
    ∃ t, exec i s = .next t ∧ t.view = s.view.writeF d w ∧ t.status = s.status := by
  refine ⟨_, hexec.trans (congrArg _ (finishF_of_operandsOk (operandsOk_of_isPattern hfs hrom) w)), ?_, rfl⟩
  rw [hw]
  exact view_writeF _ d w

variable (hF : formatOf c.ldLayout p = some F)

include hF

section OneSource

variable (hx : F.IsPattern x)

include hx

theorem takes_isnan (ha : σ.f a = x := by simp) (hc : σ.cfg = c := by rfl) :
    Takes (.isnan p (.reg d) a) σ (σ.writeN d (truth (F.isNan x))) :=
  takes_of_finishN (truth <| F.isNan ·) hx ha hc fun _ hs => exec_isnan (hs.symm ▸ hF) _ _

theorem takes_isinf (ha : σ.f a = x := by simp) (hc : σ.cfg = c := by rfl) :
    Takes (.isinf p (.reg d) a) σ (σ.writeN d (truth (F.isInf x))) :=
  takes_of_finishN (truth <| F.isInf ·) hx ha hc fun _ hs => exec_isinf (hs.symm ▸ hF) _ _

theorem takes_isnaninf (ha : σ.f a = x := by simp) (hc : σ.cfg = c := by rfl) :
    Takes (.isnaninf p (.reg d) a) σ (σ.writeN d (truth (F.isNanOrInf x))) :=
  takes_of_finishN (truth <| F.isNanOrInf ·) hx ha hc fun _ hs => exec_isnaninf (hs.symm ▸ hF) _ _

theorem takes_issubz (ha : σ.f a = x := by simp) (hc : σ.cfg = c := by rfl) :
    Takes (.issubz p (.reg d) a) σ (σ.writeN d (truth (F.isSubnormalOrZero x))) :=
  takes_of_finishN (truth <| F.isSubnormalOrZero ·) hx ha hc fun _ hs => exec_issubz (hs.symm ▸ hF) _ _

theorem takes_xsign (ha : σ.f a = x := by simp) (hc : σ.cfg = c := by rfl) :
    Takes (.xsign p (.reg d) a) σ (σ.writeN d (truth (F.sgn x))) := by
  have hsign (b : Bool) : BitVec.ofNat 32 b.toNat = truth b := by cases b <;> rfl
  rw [← hsign]
  exact takes_of_finishN (fun x => BitVec.ofNat 32 (F.sgn x).toNat) hx ha hc fun _ hs => exec_xsign (hs.symm ▸ hF) _ _

theorem takes_xman (ha : σ.f a = x := by simp) (hc : σ.cfg = c := by rfl) :
    Takes (.xman p (.reg d) a) σ (σ.writeF d (BitVec.ofNat 128 (F.man x))) := by
  subst ha hc
  rintro s rfl
  have h := exec_xman hF (.reg d) a
  rw [fr_of_isPattern hx] at h
  exact next_of_finishF h (List.forall_mem_singleton.mpr hx) (List.forall_mem_nil _) (F.low_ofNat_man _)

theorem takes_decomp (ha : σ.f a = x := by simp) (hc : σ.cfg = c := by rfl) :
    Takes (.decomp p (.reg d) (.reg e) a) σ
      ((σ.writeF d (F.decompose x).1).writeN e (BitVec.ofInt 32 (F.decompose x).2)) := by
  subst ha hc
  rintro s rfl
  have hok : s.operandsOk F [a] [] = true :=
    operandsOk_of_isPattern (List.forall_mem_singleton.mpr hx) (List.forall_mem_nil _)
  refine ⟨_, (exec_decomp hF _ _ a).trans (congrArg _ (finishFN_of_operandsOk hok _ _)), ?_, rfl⟩
  rw [fr_of_isPattern hx, (isPattern_decompose hx).2, view_writeN, view_writeF]
  rfl

theorem takes_sgnclr (ha : σ.f a = x := by simp) (hc : σ.cfg = c := by rfl) :
    Takes (.sgnclr p (.reg d) a) σ (σ.writeF d (F.withSign false x)) := by
  subst ha hc
  rintro s rfl
  have h := exec_sgnclr hF (.reg d) a
  rw [fr_of_isPattern hx] at h
  exact next_of_finishF h (List.forall_mem_singleton.mpr hx) (List.forall_mem_nil _) (F.low_withSign _ _)

end OneSource

theorem takes_sgncpy (hx : F.IsPattern x) (hy : F.IsPattern y) (ha : σ.f a = x := by simp) (hb : σ.f b = y := by simp)
    (hc : σ.cfg = c := by rfl) :
    Takes (.sgncpy p (.reg d) a b) σ (σ.writeF d (F.withSign (F.sgn y) x)) := by
  subst ha hb hc
  rintro s rfl
  have h := exec_sgncpy hF (.reg d) a b
  rw [fr_of_isPattern hx, fr_of_isPattern hy] at h
  exact next_of_finishF h (by simpa using ⟨hx, hy⟩) (List.forall_mem_nil _) (F.low_withSign _ _)

section Tables

variable {tbl : RomId} {T : Table} {k : Word32} (hT : tableAt c p tbl = some T)

include hT

theorem takes_tindex (hx : F.IsPattern x) (ha : σ.f a = x := by simp) (hc : σ.cfg = c := by rfl) :
    Takes (.tindex p (.reg d) a tbl) σ (σ.writeN d (BitVec.ofNat 32 (F.topBits T.bits.val x))) :=
  takes_of_finishN (BitVec.ofNat 32 <| F.topBits T.bits.val ·) hx ha hc fun _ hs =>
    exec_tindex (hs.symm ▸ hF) (hs.symm ▸ hT) _ _

theorem takes_tload (hk : σ.n b = k := by simp) (hc : σ.cfg = c := by rfl) :
    Takes (.tload p (.reg d) b tbl) σ (σ.writeF d (T.read F (T.idx k))) := by
  subst hk hc
  rintro s rfl
  exact next_of_finishF (exec_tload hF hT (.reg d) b) (List.forall_mem_nil _) (List.forall_mem_nil _) (F.low_low _)

end Tables

/-! The commands that compute, with the decided arithmetic (R13). -/

variable (harith : c.arith = .nearestEven)

include harith

section Residuals

variable {tbl : RomId} {T : Table} {k : Word32} (hT : tableAt c p tbl = some T) (hx : F.IsPattern x)

include hT hx

theorem takes_resdiv (ha : σ.f a = x := by simp) (hk : σ.n b = k := by simp) (hc : σ.cfg = c := by rfl) :
    Takes (.resdiv p (.reg d) a b tbl) σ
      (σ.writeF d (F.fdiv x (F.breakPoint T.bits.val (T.idx k).val))) := by
  subst ha hk hc
  rintro s rfl
  have hbreak := wellFormed_breakPoint (F := F) (Nat.le_of_lt_succ T.bits.isLt) (T.idx (s.view.n b)).isLt
  have h := exec_resdiv hF hT (.reg d) a b
  rw [fr_of_isPattern hx, arithAt_of_view harith] at h
  exact next_of_finishF h (List.forall_mem_singleton.mpr hx) (List.forall_mem_nil _) (isPattern_fdiv hx.1 hbreak).2

theorem takes_ressub (ha : σ.f a = x := by simp) (hk : σ.n b = k := by simp) (hc : σ.cfg = c := by rfl) :
    Takes (.ressub p (.reg d) a b tbl) σ
      (σ.writeF d (F.fsub x (F.breakPoint T.bits.val (T.idx k).val))) := by
  subst ha hk hc
  rintro s rfl
  have h := exec_ressub hF hT (.reg d) a b
  rw [fr_of_isPattern hx, arithAt_of_view harith] at h
  exact next_of_finishF h (List.forall_mem_singleton.mpr hx) (List.forall_mem_nil _) (isPattern_fadd _ _).2

theorem takes_resmul (hentry : F.wellFormed (T.read F (T.idx k)) = true) (ha : σ.f a = x := by simp)
    (hk : σ.n b = k := by simp) (hc : σ.cfg = c := by rfl) :
    Takes (.resmul p (.reg d) a b tbl) σ (σ.writeF d (F.fmul x (T.read F (T.idx k)))) := by
  subst ha hk hc
  rintro s rfl
  have h := exec_resmul hF hT (.reg d) a b
  rw [fr_of_isPattern hx, arithAt_of_view harith] at h
  exact next_of_finishF h (List.forall_mem_singleton.mpr hx) (List.forall_mem_singleton.mpr hentry)
    (isPattern_fmul hx.1 hentry).2

end Residuals

section Evaluators

variable {cset : RomId} {v : Scalar} (hx : F.IsPattern x)

include hx

theorem takes_horner (hv : approximantValue c F p false cset x = some v) (ha : σ.f a = x := by simp)
    (hc : σ.cfg = c := by rfl) :
    Takes (.horner p (.reg d) a cset) σ (σ.writeF d v) := by
  subst ha hc
  rintro s rfl
  obtain ⟨P, hP, hcoeffs, rfl⟩ := approximantValue_poly_iff.mp hv
  have h := exec_horner hF hP (.reg d) a
  rw [fr_of_isPattern hx, arithAt_of_view harith] at h
  exact next_of_finishF h (List.forall_mem_singleton.mpr hx) (List.all_eq_true.mp hcoeffs)
    (isPattern_approximantValue hv).2

theorem takes_rational (hv : approximantValue c F p true cset x = some v) (ha : σ.f a = x := by simp)
    (hc : σ.cfg = c := by rfl) :
    Takes (.rational p (.reg d) a cset) σ (σ.writeF d v) := by
  subst ha hc
  rintro s rfl
  obtain ⟨P, Q, hPQ, hnumerator, hdenominator, rfl⟩ := approximantValue_rational_iff.mp hv
  have h := exec_rational hF hPQ (.reg d) a
  rw [fr_of_isPattern hx, arithAt_of_view harith, List.map_append] at h
  exact next_of_finishF h (List.forall_mem_singleton.mpr hx)
    (List.forall_mem_append.mpr ⟨List.all_eq_true.mp hnumerator, List.all_eq_true.mp hdenominator⟩)
    (isPattern_approximantValue hv).2

end Evaluators

section TwoSources

variable {w : Word32} (hx : F.IsPattern x) (hy : F.IsPattern y)

include hx hy

theorem takes_recadd (hln2 : F.wellFormed (kLn2 c F p) = true) (he : σ.n e = w := by simp) (ha : σ.f a = x := by simp)
    (hb : σ.f b = y := by simp) (hc : σ.cfg = c := by rfl) :
    Takes (.recadd p (.reg d) e a b) σ (σ.writeF d (F.arith.recAdd (kLn2 c F p) w x y)) := by
  subst he ha hb hc
  rintro s rfl
  have h := exec_recadd hF (.reg d) e a b
  rw [fr_of_isPattern hx, fr_of_isPattern hy, arithAt_of_view harith] at h
  exact next_of_finishF h (by simpa using ⟨hx, hy⟩) (List.forall_mem_singleton.mpr hln2) (isPattern_fadd _ _).2

theorem takes_recmul (hk : F.wellFormed (kCbrt2 c F p (thirdRem w.toInt)) = true) (he : σ.n e = w := by simp)
    (ha : σ.f a = x := by simp) (hb : σ.f b = y := by simp) (hc : σ.cfg = c := by rfl) :
    Takes (.recmul p (.reg d) e a b) σ
      (σ.writeF d (F.arith.recMul (kCbrt2 c F p (thirdRem w.toInt)) w.toInt x y)) := by
  subst he ha hb hc
  rintro s rfl
  have h : exec (.recmul p (.reg d) e a b) s = .next (s.finishF F (.reg d) [a, b] [e] _ _) :=
    congrArg Host.Outcome.next (withFormat_of_some _ hF)
  rw [fr_of_isPattern hx, fr_of_isPattern hy, arithAt_of_view harith] at h
  exact next_of_finishF h (by simpa using ⟨hx, hy⟩) (List.forall_mem_singleton.mpr hk)
    (isPattern_recMul hk _ hx hy).2

theorem takes_newton3 (ha : σ.f a = x := by simp) (hb : σ.f b = y := by simp) (hc : σ.cfg = c := by rfl) :
    Takes (.newton3 p (.reg d) a b) σ (σ.writeF d (F.arith.newton3 F.two F.three x y)) := by
  subst ha hb hc
  rintro s rfl
  have h := exec_newton3 hF (.reg d) a b
  rw [fr_of_isPattern hx, fr_of_isPattern hy, arithAt_of_view harith] at h
  exact next_of_finishF h (by simpa using ⟨hx, hy⟩) (List.forall_mem_nil _) (isPattern_newton3 _ _).2

end TwoSources

end Commands

end Sys2Proof.Machine

/-! SUPPORT. The calls of the logarithm and of the cube root (`45_assembler_sequence.md`), stage by stage: the
classification of the argument, the special results, and the reductions. -/

namespace Sys2Proof.Machine

open Format

/-! The classification of the argument, which every stage finds in `f0` (R94, R96). -/

/-- The block is in a call: it has the configuration, and `f0` holds the argument. -/
structure View.InCall (σ : View) (c : Config) (x : Scalar) : Prop where
  cfg : σ.cfg = c
  argument : σ.f 0 = x

theorem View.InCall.writeN {σ : View} {c : Config} {x : Scalar} (h : σ.InCall c x) (i : RegNum) (w : Word32) :
    (σ.writeN i w).InCall c x := ⟨h.cfg, h.argument⟩

theorem View.InCall.writeF {σ : View} {c : Config} {x : Scalar} (h : σ.InCall c x) {i : RegNum} (hi : i ≠ 0)
    (w : Scalar) : (σ.writeF i w).InCall c x where
  cfg := h.cfg
  argument := (Function.update_of_ne hi.symm _ _).trans h.argument

theorem truth_eq_one_iff {b : Bool} : truth b = 1 ↔ b = true := by
  cases b <;> decide

namespace Format

variable {F : Format} {x : Scalar}

/-- The case of R96 that an argument falls under: the first that applies. -/
def logCase (F : Format) (x : Scalar) : LogCase :=
  if F.classOf x = .nan then .nan
  else if F.classOf x = .zero then .zero
  else if F.sgn x = true then .negative
  else if F.classOf x = .infinite then .infinity
  else .general

theorem logCase_of_isFiniteNonzero (h : F.isFiniteNonzero x = true) (hsgn : F.sgn x = false) :
    F.logCase x = .general := by
  obtain h | h := isFiniteNonzero_iff.mp h <;> simp [logCase, h, hsgn]

end Format

section Calls

variable {c : Config} {p : Fmt} {F : Format} {x v : Scalar} {σ : View}

/-- A test ends with the host's decision on the bit it wrote. -/
theorem returns_test {i : Instr} {b : Bool} {P : Prop} {yes no : HostProgram} (hσ : σ.InCall c x)
    (hi : Takes i σ (σ.writeN 3 (truth b))) (hb : b = true ↔ P)
    (hyes : P → ∀ τ : View, τ.InCall c x → yes.Returns τ v)
    (hno : ¬P → ∀ τ : View, τ.InCall c x → no.Returns τ v) :
    (HostProgram.test i 3 fun w => if w = 1 then yes else no).Returns σ v :=
  have hP := truth_eq_one_iff.trans hb
  hi.returns <| returns_readN <| by
    rw [View.writeN_n, if_pos rfl]
    exact returns_ite (fun h => hyes (hP.mp h) _ (hσ.writeN 3 _)) (fun h => hno (mt hP.mpr h) _ (hσ.writeN 3 _))

variable (hF : formatOf c.ldLayout p = some F) (hx : F.IsPattern x)

include hF hx

/-- Both tests for a zero tell it from every other argument (R71, R96). -/
theorem returns_testZero {z : ZeroTest} {yes no : HostProgram} (hσ : σ.InCall c x)
    (hyes : F.classOf x = .zero → ∀ τ : View, τ.InCall c x → yes.Returns τ v)
    (hno : F.classOf x ≠ .zero → ∀ τ : View, τ.InCall c x → no.Returns τ v) :
    (testZero p F z yes no).Returns σ v := by
  refine returns_test hσ (takes_issubz hF hx hσ.argument hσ.cfg) isSubnormalOrZero_iff (fun hbexp τ hτ => ?_)
    fun hbexp => hno fun hzero => hbexp (classOf_eq_zero_iff.mp hzero).1
  have hwrite := hτ.writeF (i := 7) (by decide)
  cases z with
  | xman =>
    have hzero : BitVec.ofNat 128 (F.man x) = 0 ↔ F.classOf x = .zero := by
      rw [ofNat_man_eq_zero_iff, classOf_eq_zero_iff, and_iff_right hbexp]
    exact (takes_xman hF hx hτ.argument hτ.cfg).returns <| returns_readF <| by
      rw [View.writeF_f, if_pos rfl]
      exact returns_ite (fun h => hyes (hzero.mp h) _ (hwrite _)) (fun h => hno (mt hzero.mpr h) _ (hwrite _))
  | decomp =>
    have hzero := classOf_decompose_eq_zero_iff hx.1
    exact (takes_decomp hF hx hτ.argument hτ.cfg).returns <| returns_readF <| by
      rw [View.writeN_f, View.writeF_f, if_pos rfl]
      exact returns_ite (fun h => hyes (hzero.mp h) _ ((hwrite _).writeN _ _))
        (fun h => hno (mt hzero.mpr h) _ ((hwrite _).writeN _ _))

/-- The tests end in the case of the argument. -/
theorem returns_classifyLog {z : ZeroTest} {k : LogCase → HostProgram} (hσ : σ.InCall c x)
    (h : ∀ τ : View, τ.InCall c x → (k (F.logCase x)).Returns τ v) : (classifyLog p F z k).Returns σ v := by
  unfold logCase at h
  refine returns_test hσ (takes_isnan hF hx hσ.argument hσ.cfg)
    (isNan_iff.trans classOf_eq_nan_iff.symm) (fun hnan => ?nan) fun hnan σ₁ hσ₁ => ?_
  case nan => rwa [if_pos hnan] at h
  rw [if_neg hnan] at h
  refine returns_testZero hF hx hσ₁ (fun hzero => ?zero) fun hzero σ₂ hσ₂ => ?_
  case zero => rwa [if_pos hzero] at h
  rw [if_neg hzero] at h
  refine returns_test hσ₂ (takes_xsign hF hx hσ₂.argument hσ₂.cfg) Iff.rfl (fun hsgn => ?negative) fun hsgn σ₃ hσ₃ => ?_
  case negative => rwa [if_pos hsgn] at h
  rw [if_neg hsgn] at h
  refine returns_test hσ₃ (takes_isinf hF hx hσ₃.argument hσ₃.cfg)
    (isInf_iff.trans classOf_eq_infinite_iff.symm) (fun hinf => ?infinity) fun hinf => ?general
  case infinity => rwa [if_pos hinf] at h
  case general => rwa [if_neg hinf] at h

end Calls

/-! The stages that the two calls share (R98, R99). -/

section Stages

variable {c : Config} {p : Fmt} {F : Format} {tbl : RomId} {T : Table} {σ : View} {w : Scalar}

theorem residualValue_mul_iff {tR : RomId} {m : Scalar} {k : Word32} :
    (ResidualForm.mul tR).value c F p T m k = some w ↔
      ∃ U, tableAt c p tR = some U ∧ F.wellFormed (U.read F (U.idx k)) = true ∧
        F.fmul m (U.read F (U.idx k)) = w := by
  simp only [ResidualForm.value]
  split <;> simp_all

theorem isPattern_residualValue {r : ResidualForm} {m : Scalar} {k : Word32} (hm : F.IsPattern m)
    (hr : r.value c F p T m k = some w) : F.IsPattern w := by
  cases r with
  | div =>
    obtain rfl := Option.some.inj hr
    exact isPattern_fdiv hm.1 (wellFormed_breakPoint (Nat.le_of_lt_succ T.bits.isLt) (T.idx k).isLt)
  | sub =>
    obtain rfl := Option.some.inj hr
    exact isPattern_fadd _ _
  | mul tR =>
    obtain ⟨U, -, hentry, rfl⟩ := residualValue_mul_iff.mp hr
    exact isPattern_fmul hm.1 hentry

variable (hF : formatOf c.ldLayout p = some F) (harith : c.arith = .nearestEven)

include hF harith

theorem takes_residual {r : ResidualForm} {m : Scalar} {k : Word32} (hT : tableAt c p tbl = some T)
    (hm : F.IsPattern m) (hr : r.value c F p T m k = some w) (h1 : σ.f 1 = m := by simp)
    (h2 : σ.n 2 = k := by simp) (hc : σ.cfg = c := by rfl) : Takes (r.command p tbl) σ (σ.writeF 3 w) := by
  cases r with
  | div =>
    obtain rfl := Option.some.inj hr
    exact takes_resdiv hF harith hT hm h1 h2 hc
  | sub =>
    obtain rfl := Option.some.inj hr
    exact takes_ressub hF harith hT hm h1 h2 hc
  | mul tR =>
    obtain ⟨U, hU, hentry, rfl⟩ := residualValue_mul_iff.mp hr
    exact takes_resmul hF harith hU hm hentry h1 h2 hc

theorem takes_approximant {rational : Bool} {k : RomId} {r : Scalar} (hr : F.IsPattern r)
    (hv : approximantValue c F p rational k r = some w) (h3 : σ.f 3 = r := by simp)
    (hc : σ.cfg = c := by rfl) :
    Takes (approximant rational p k) σ (σ.writeF 4 w) := by
  cases rational with
  | false => exact takes_horner hF harith hr hv h3 hc
  | true => exact takes_rational hF harith hr hv h3 hc

end Stages

/-! The logarithm (R96, R97, R98). -/

/-- What the near-identity set is evaluated at (R97). -/
def NearArgument.value (F : Format) (x : Scalar) : NearArgument → Scalar
  | .oneMinusX => F.withSign false (F.fsub x F.one)
  | .xMinusOne => F.fsub x F.one

theorem lt_one_of_nearIdentity {c : Config} {F : Format} {x : Scalar} (h : nearIdentity c F x = true)
    (hx : F.isFinite x = true) : F.finiteVal x < 1 := by
  rw [nearIdentity, val_of_isFinite hx, Bool.and_eq_true, decide_eq_true_eq, decide_eq_true_eq] at h
  exact h.2

section Logarithm

variable {c : Config} {l : LogPlan} {F : Format} {x v : Scalar} {σ : View}
  (hF : formatOf c.ldLayout l.fmt = some F) (hx : F.IsPattern x)

include hF hx

theorem returns_logCall_of_special (hcfg : σ.cfg = c) (hv : F.logSpecial x (F.logCase x) = some v) :
    (logCall c F l x).Returns σ v :=
  returns_writeF <| returns_classifyLog hF hx ⟨hcfg, rfl⟩ fun τ _ => by
    simp only [hv]
    exact returns_special

theorem returns_logCall_of_near (hcfg : σ.cfg = c) (hcase : F.logCase x = .general) (hnear : nearIdentity c F x = true)
    (h : ∀ τ : View, τ.InCall c x →
      (nearIdentitySequence l.fmt l.table l.nearCoeffs l.nearArgument .result).Returns τ v) :
    (logCall c F l x).Returns σ v :=
  returns_writeF <| returns_classifyLog hF hx ⟨hcfg, rfl⟩ fun τ hτ => by
    simp only [hcase, logSpecial, hnear, if_true]
    exact h τ hτ

theorem returns_logCall_of_general (hcfg : σ.cfg = c) (hcase : F.logCase x = .general)
    (hnear : nearIdentity c F x = false)
    (h : ∀ τ : View, τ.InCall c x →
      (HostProgram.commands (additiveSequence l.fmt l.table l.coeffs l.residual l.rational) .result).Returns τ v) :
    (logCall c F l x).Returns σ v :=
  returns_writeF <| returns_classifyLog hF hx ⟨hcfg, rfl⟩ fun τ hτ => by
    simp only [hcase, logSpecial, hnear, Bool.false_eq_true, if_false]
    exact h τ hτ

variable {T : Table} (harith : c.arith = .nearestEven) (hT : tableAt c l.fmt l.table = some T)

include harith hT

/-- The expansion about 1 is the near-identity set's value (R97). -/
theorem returns_nearIdentitySequence (hσ : σ.InCall c x)
    (hv : approximantValue c F l.fmt false l.nearCoeffs (l.nearArgument.value F x) = some v) :
    (nearIdentitySequence l.fmt l.table l.nearCoeffs l.nearArgument .result).Returns σ v := by
  obtain ⟨rfl, rfl⟩ := hσ
  have hdiff : F.IsPattern (F.fsub (σ.f 0) F.one) := isPattern_fadd _ _
  have hressub : Takes (.ressub l.fmt (.reg 1) 0 0 l.table) (σ.writeN 0 0)
      ((σ.writeN 0 0).writeF 1 (F.fsub (σ.f 0) F.one)) := by
    rw [← F.breakPoint_idx_zero T]
    exact takes_ressub hF harith hT hx
  refine returns_writeN (hressub.returns ?_)
  cases ha : l.nearArgument <;> rw [ha] at hv
  case oneMinusX =>
    exact Takes.returns (takes_sgnclr hF hdiff) <|
      Takes.returns (takes_horner hF harith (hdiff.withSign false) hv) returns_result
  case xMinusOne => exact Takes.returns (takes_horner hF harith hdiff hv) returns_result

/-- The general reduction recombines the exponent, the approximant and the table entry (R98). -/
theorem returns_additiveSequence {k : Word32} {r : Scalar} (hσ : σ.InCall c x)
    (hk : k = BitVec.ofNat 32 (F.topBits T.bits.val (F.decompose x).1))
    (hentry : F.wellFormed (T.read F (T.idx k)) = true) (hln2 : F.wellFormed (kLn2 c F l.fmt) = true)
    (hr : l.residual.value c F l.fmt T (F.decompose x).1 k = some r)
    (hv : approximantValue c F l.fmt l.rational l.coeffs r = some v) :
    (HostProgram.commands (additiveSequence l.fmt l.table l.coeffs l.residual l.rational) .result).Returns σ
      (F.arith.recAdd (kLn2 c F l.fmt) (BitVec.ofInt 32 (F.decompose x).2) v (T.read F (T.idx k))) := by
  obtain ⟨rfl, rfl⟩ := hσ
  have hm := isPattern_decompose hx
  refine Takes.returns (takes_decomp hF hx) ?_
  refine Takes.returns (takes_tindex hF hT hm) ?_
  rw [← hk]
  refine Takes.returns (takes_tload (k := k) hF hT) ?_
  refine Takes.returns (takes_residual hF harith hT hm hr) ?_
  refine Takes.returns (takes_approximant hF harith (isPattern_residualValue hm hr) hv) ?_
  refine Takes.returns (takes_recadd (w := BitVec.ofInt 32 (F.decompose (σ.f 0)).2) hF harith
    (isPattern_approximantValue hv) ⟨hentry, F.low_low _⟩ hln2) ?_
  exact returns_result

end Logarithm

/-! The cube root (R99). -/

/-- The residual forms of the cube root are among those of the logarithm. -/
def RatioForm.toResidual : RatioForm → ResidualForm
  | .div => .div
  | .mul tR => .mul tR

theorem RatioForm.command_toResidual (r : RatioForm) (p : Fmt) (t : RomId) :
    r.toResidual.command p t = r.command p t := by
  cases r <;> rfl

section CubeRoot

variable {c : Config} {l : CubeRootPlan} {F : Format} {x v : Scalar} {σ : View}

/-- The constant of every remainder is well formed (R11). -/
theorem wellFormed_kCbrt2 {p : Fmt} (h1 : F.wellFormed (kCbrt2 c F p 1) = true)
    (h2 : F.wellFormed (kCbrt2 c F p 2) = true) (r : Int) : F.wellFormed (kCbrt2 c F p r) = true := by
  by_cases hr0 : r = 0
  · rw [hr0]
    exact F.isPattern_one.1
  by_cases hr1 : r = 1
  · rwa [hr1]
  · have hr2 : kCbrt2 c F p r = kCbrt2 c F p 2 := by simp only [kCbrt2, if_neg hr0, if_neg hr1]; rfl
    rwa [hr2]

theorem exists_residualValue_of_romOk (hrom : l.romOk c F) (T : Table) (m : Scalar) (k : Word32) :
    ∃ r, l.residual.toResidual.value c F l.fmt T m k = some r := by
  obtain ⟨-, -, hreciprocals, -, -⟩ := hrom
  cases hform : l.residual with
  | div => exact ⟨_, rfl⟩
  | mul tR =>
    obtain ⟨U, hU, hentries⟩ := hreciprocals tR hform
    exact ⟨_, residualValue_mul_iff.mpr ⟨U, hU, hentries _, rfl⟩⟩

theorem exists_approximantValue_of_romOk (hrom : l.romOk c F) (r : Scalar) :
    ∃ v, approximantValue c F l.fmt false l.coeffs r = some v := by
  obtain ⟨-, ⟨a, ha, hcoeffs⟩, -, -, -⟩ := hrom
  exact ⟨_, approximantValue_poly_iff.mpr ⟨a, ha, hcoeffs, rfl⟩⟩

variable (hF : formatOf c.ldLayout l.fmt = some F) (harith : c.arith = .nearestEven) (hx : F.IsPattern x)
  (hfinite : F.isFiniteNonzero x = true)

include hF harith hx hfinite

/-- The multiplicative reduction computes with the magnitude of its argument and restores the sign (R99). -/
theorem returns_multiplicativeSequence {T : Table} {k e : Word32} {r : Scalar} {b : Bool}
    (hT : tableAt c l.fmt l.table = some T) (hσ : σ.InCall c (F.withSign b x))
    (hk : k = BitVec.ofNat 32 (F.topBits T.bits.val (F.decompose x).1)) (he : e = BitVec.ofInt 32 (F.decompose x).2)
    (hentry : F.wellFormed (T.read F (T.idx k)) = true)
    (hcbrt2 : F.wellFormed (kCbrt2 c F l.fmt (thirdRem e.toInt)) = true)
    (hr : l.residual.toResidual.value c F l.fmt T (F.decompose x).1 k = some r)
    (hv : approximantValue c F l.fmt false l.coeffs r = some v) :
    (HostProgram.commands (multiplicativeSequence l.fmt l.table l.coeffs l.residual) .result).Returns σ
      (F.withSign b (F.arith.newton3 F.two F.three
        (F.arith.recMul (kCbrt2 c F l.fmt (thirdRem e.toInt)) e.toInt v (T.read F (T.idx k)))
        (F.withSign false x))) := by
  obtain ⟨rfl, harg⟩ := hσ
  have hxb := hx.withSign b
  have hm := isPattern_decompose hx
  have hentryPattern : F.IsPattern (T.read F (T.idx k)) := ⟨hentry, F.low_low _⟩
  have happroximant := isPattern_approximantValue hv
  have hproduct := isPattern_recMul hcbrt2 e.toInt happroximant hentryPattern
  have hroot := isPattern_newton3 (F := F) (F.arith.recMul (kCbrt2 σ.cfg F l.fmt (thirdRem e.toInt)) e.toInt v
    (T.read F (T.idx k))) (F.withSign false x)
  refine Takes.returns (takes_sgnclr hF hxb harg) ?_
  rw [withSign_withSign]
  refine Takes.returns (takes_decomp hF hxb (by simp [harg])) ?_
  rw [decompose_withSign hfinite, ← he]
  refine Takes.returns (takes_tindex hF hT hm) ?_
  rw [← hk]
  refine Takes.returns (takes_tload (k := k) hF hT) ?_
  rw [← RatioForm.command_toResidual]
  refine Takes.returns (takes_residual hF harith hT hm hr) ?_
  refine Takes.returns (takes_horner hF harith (isPattern_residualValue hm hr) hv) ?_
  refine Takes.returns (takes_recmul hF harith happroximant hentryPattern hcbrt2) ?_
  refine Takes.returns (takes_newton3 hF harith hproduct (hx.withSign false)) ?_
  refine Takes.returns (takes_sgncpy hF hroot hxb (hb := by simp [harg])) ?_
  rw [sgn_withSign]
  exact returns_result

/-- Whatever the block holds, the multiplicative reduction returns one magnitude for both signs of its argument
(R94, R99). -/
theorem exists_returns_multiplicativeSequence (hrom : l.romOk c F) :
    ∃ y, ∀ (b : Bool) (σ : View), σ.InCall c (F.withSign b x) →
      (HostProgram.commands (multiplicativeSequence l.fmt l.table l.coeffs l.residual) .result).Returns σ
        (F.withSign b y) := by
  obtain ⟨T, hT, hentries⟩ := hrom.1
  obtain ⟨r, hr⟩ := exists_residualValue_of_romOk hrom T (F.decompose x).1
    (BitVec.ofNat 32 (F.topBits T.bits.val (F.decompose x).1))
  obtain ⟨v, hv⟩ := exists_approximantValue_of_romOk hrom r
  obtain ⟨-, -, -, h1, h2⟩ := hrom
  exact ⟨_, fun b σ hσ => returns_multiplicativeSequence hF harith hx hfinite hT hσ rfl rfl (hentries _)
    (wellFormed_kCbrt2 h1 h2 _) hr hv⟩

end CubeRoot

section CubeRootCall

variable {c : Config} {l : CubeRootPlan} {F : Format} {x v : Scalar} {σ : View}
  (hF : formatOf c.ldLayout l.fmt = some F) (hx : F.IsPattern x) (hcfg : σ.cfg = c)

include hF hx hcfg

theorem returns_cubeRootCall_of_special (hclass : F.classOf x = .nan ∨ F.classOf x = .infinite ∨ F.classOf x = .zero) :
    (cubeRootCall F l x).Returns σ x := by
  have hσ : (σ.writeF 0 x).InCall c x := ⟨hcfg, rfl⟩
  refine returns_writeF <| returns_test hσ (takes_isnaninf hF hx hσ.argument hσ.cfg) isNanOrInf_iff
    (fun _ τ _ => returns_special) fun hbexp τ hτ => ?_
  rw [classOf_eq_nan_iff, classOf_eq_infinite_iff] at hclass
  exact returns_testZero hF hx hτ (fun _ _ _ => returns_special) fun hzero => by tauto

theorem returns_cubeRootCall_of_isFiniteNonzero (hfinite : F.isFiniteNonzero x = true)
    (h : ∀ τ : View, τ.InCall c x →
      (HostProgram.commands (multiplicativeSequence l.fmt l.table l.coeffs l.residual) .result).Returns τ v) :
    (cubeRootCall F l x).Returns σ v := by
  have hσ : (σ.writeF 0 x).InCall c x := ⟨hcfg, rfl⟩
  have hbexp := isFinite_iff_bexp.mp (isFinite_of_isFiniteNonzero hfinite)
  have hzero : F.classOf x ≠ .zero := by simpa [isFiniteNonzero] using (Bool.and_eq_true_iff.mp hfinite).2
  exact returns_writeF <| returns_test hσ (takes_isnaninf hF hx hσ.argument hσ.cfg) isNanOrInf_iff
    (fun h => absurd h hbexp) fun _ τ hτ => returns_testZero hF hx hτ (fun h => absurd h hzero) fun _ => h

/-- Nothing carries over into a call, and the calls of an argument and of its negation differ in the sign alone
(R94, R99). -/
theorem exists_returns_cubeRootCall_neg {σ' : View} (hcfg' : σ'.cfg = c) (harith : c.arith = .nearestEven)
    (hrom : l.romOk c F) :
    ∃ v, (cubeRootCall F l x).Returns σ v ∧ (cubeRootCall F l (F.neg x)).Returns σ' (F.neg v) := by
  have hneg : F.IsPattern (F.neg x) := hx.withSign _
  by_cases hfinite : F.isFiniteNonzero x = true
  case pos =>
    obtain ⟨y, hy⟩ := exists_returns_multiplicativeSequence hF harith hx hfinite hrom
    have hself : F.withSign (F.sgn x) x = x := (F.withSign_sgn x).trans hx.2
    have hnegy : F.neg (F.withSign (F.sgn x) y) = F.withSign (!F.sgn x) y := neg_withSign
    refine ⟨F.withSign (F.sgn x) y, ?argument, hnegy ▸ ?negation⟩
    case argument =>
      exact returns_cubeRootCall_of_isFiniteNonzero hF hx hcfg hfinite fun τ hτ => hy _ τ (hself.symm ▸ hτ)
    case negation =>
      exact returns_cubeRootCall_of_isFiniteNonzero hF hneg hcfg' (isFiniteNonzero_withSign.trans hfinite) (hy _)
  case neg =>
    have hclass : F.classOf x = .nan ∨ F.classOf x = .infinite ∨ F.classOf x = .zero := by
      rw [isFiniteNonzero_iff] at hfinite
      cases h : F.classOf x <;> simp_all
    exact ⟨x, returns_cubeRootCall_of_special hF hx hcfg hclass,
      returns_cubeRootCall_of_special hF hneg hcfg' (by rwa [classOf_neg])⟩

end CubeRootCall

end Sys2Proof.Machine

/-! The statements about the calls (`45_assembler_sequence.md`), settled, in a namespace of their own: `cubeRootCall` is
the model's program in `Sys2Proof.Machine`. -/

namespace Sys2Proof.Calls

open Machine Format

/-- Settles O60: the special arguments are recognised by their class, which the sign does not enter; of the others the
reduction returns one magnitude for both signs and all states. -/
theorem cubeRootCall : Obligations.CubeRootCall := by
  intro s F l x hF hw hlow
  have hx : F.IsPattern x := ⟨hw, hlow⟩
  refine ⟨fun hclass => returns_cubeRootCall_of_special hF hx rfl hclass s rfl, fun s' hcfg harith hrom => ?_⟩
  obtain ⟨v, hv, hneg⟩ := exists_returns_cubeRootCall_neg (σ := s.view) (σ' := s'.view) hF hx rfl hcfg harith hrom
  obtain ⟨t, ht, -⟩ := hv s rfl
  obtain ⟨t', ht', -⟩ := hneg s' rfl
  exact ⟨t, t', v, ht, ht'⟩

/-- Settles O59: the classification ends in the case of the argument, and each case's stages return its value; just
below 1.0 the argument of the expansion is an exact difference. -/
theorem logarithmCall : Obligations.LogarithmCall := by
  intro s F l x hF hw hlow
  have hx : F.IsPattern x := ⟨hw, hlow⟩
  have hspecial {v : Scalar} (hv : F.logSpecial x (F.logCase x) = some v) :=
    returns_logCall_of_special (σ := s.view) hF hx rfl hv s rfl
  refine ⟨fun hnan => hspecial ?_, fun hzero => hspecial ?_, fun hsgn hnan hzero => hspecial ?_,
    fun hsgn hinf => hspecial ?_, fun T harith hfinite hsgn hT => ?_⟩
  · simp [logCase, logSpecial, hnan]
  · simp [logCase, logSpecial, hzero]
  · simp [logCase, logSpecial, hnan, hzero, hsgn]
  · simp [logCase, logSpecial, hinf, hsgn]
  have hcase := logCase_of_isFiniteNonzero hfinite hsgn
  refine ⟨fun hnear => ?near, fun hnear k entry r v hk hentry hwell hln2 hr hv => ?general⟩
  case near =>
    have hexpansion {v : Scalar}
        (hv : approximantValue s.cfg F l.fmt false l.nearCoeffs (l.nearArgument.value F x) = some v) :=
      returns_logCall_of_near (σ := s.view) hF hx rfl hcase hnear
        (fun τ hτ => returns_nearIdentitySequence hF hx harith hT hτ hv) s rfl
    refine ⟨fun v ha hv => hexpansion (by rwa [ha]), fun v ha hv => hexpansion (by rwa [ha]), fun hlo => ?exact⟩
    case exact =>
      have hlt := lt_one_of_nearIdentity hnear (isFinite_of_isFiniteNonzero hfinite)
      have hdiff := val_fsub_one hx (isFinite_of_isFiniteNonzero hfinite) hlo hlt
      exact ⟨by rw [val_withSign_false hdiff, abs_of_neg (sub_neg.mpr hlt), neg_sub], hdiff⟩
  case general =>
    subst hentry
    have hreduction := returns_logCall_of_general (σ := s.view) hF hx rfl hcase hnear
      (fun τ hτ => returns_additiveSequence hF hx harith hT hτ hk hwell hln2 hr hv) s rfl
    refine ⟨hreduction, ?_⟩
    rintro rfl hentry rfl hfinite hsgn
    rw [decompose_one, hentry] at hreduction
    rwa [← recaddOfZeros F _ hfinite hsgn]

end Sys2Proof.Calls

/-! The statement about illegal words (`60_exceptions.md`), settled. -/

namespace Sys2Proof.Machine

/-- The host's next move being `Issue(w)`, the step takes it from the list and runs the word (R117; log 6). -/
theorem step_of_issue {s : State} {w : Command} {rest : List HostMove} (hs : s.host = .issue w :: rest) :
    step s = issue w { s with host := rest } := by
  simp only [step, hs, hostMove]

/-- Settles O7: the step runs the word in the state without the move, and a word that is not legal there, its bits or the
configuration being the reason, does nothing but `raiseIllegal`. -/
theorem illegalWordOnlySetsIll : Obligations.IllegalWordOnlySetsIll := by
  intro s w rest hs hw
  calc step s = issue w { s with host := rest } := step_of_issue hs
    _ = .next { s with host := rest }.raiseIllegal := issue_of_not_legalWord (s := { s with host := rest }) hw
    _ = .next { s with host := rest, status := s.status ||| 1 } := rfl

end Sys2Proof.Machine

/-! SUPPORT. Moves and runs (`70_reset_and_hazards.md`): no move depends on the moves still to come, and which moves
record a read of an unwritten register. -/

namespace Sys2Proof.Machine

/-! The moves still to come (R117; log 6). -/

theorem withHost_keptByUpdates (rest : List HostMove) : KeptByUpdates fun s u => u = { s with host := rest } where
  freeCount := by rintro s u rfl; rfl
  noteReads := by rintro s u fs ns rfl; rfl
  writeF := by rintro s u i v rfl; rfl
  writeN := by rintro s u i v rfl; rfl
  useFree := by rintro s u rfl; rfl

theorem exec_withHost {i : Instr} {s t : State} (rest : List HostMove) (ht : exec i s = .next t) :
    exec i { s with host := rest } = .next { t with host := rest } := by
  cases hi : i.wellFormed s.cfg with
  | false =>
    cases (exec_of_not_wellFormed hi).symm.trans ht
    exact exec_of_not_wellFormed (s := { s with host := rest }) hi
  | true =>
    obtain ⟨F, hF⟩ := exists_formatOf hi
    have hsrc : SameSources i F s { s with host := rest } := ⟨rfl, fun _ _ => rfl, fun _ _ => rfl⟩
    obtain ⟨u, hu⟩ := exec_next i { s with host := rest }
    rw [hu, (withHost_keptByUpdates rest).exec rfl hi hF hsrc ht hu]

/-- A move neither reads nor changes the moves still to come. -/
theorem hostMove_withHost {m : HostMove} {s t : State} (rest : List HostMove) (ht : hostMove m s = .next t) :
    hostMove m { s with host := rest } = .next { t with host := rest } := by
  cases m with
  | issue w =>
    cases hd : decode w with
    | ok i =>
      simp only [hostMove, issue, hd] at ht ⊢
      exact exec_withHost rest ht
    | error r =>
      simp only [hostMove, issue, hd] at ht ⊢
      cases ht
      rfl
  | _ => cases ht; rfl

theorem hostMove_host {m : HostMove} {s t : State} (ht : hostMove m s = .next t) : t.host = s.host := by
  have hsame : t = { t with host := s.host } := Host.Outcome.next.inj (ht.symm.trans (hostMove_withHost s.host ht))
  rw [hsame]

theorem step_of_cons {s : State} {m : HostMove} {rest : List HostMove} (hs : s.host = m :: rest) :
    step s = hostMove m { s with host := rest } := by
  simp only [step, hs]

theorem run_succ_of_step {s t : State} (k : Nat) (h : step s = .next t) :
    Host.Core.run core (k + 1) s = Host.Core.run core k t := by
  simp only [Host.Core.run, core, h]

/-! The record of unwritten reads (R25, R119; log 2). -/

theorem exec_unwrittenRead_eq {i : Instr} {s t : State} (ht : exec i s = .next t) :
    t.unwrittenRead = (s.unwrittenRead ||
      (i.wellFormed s.cfg && !i.dsts.contains .null && !s.allWritten i.scalarSrcs i.integerSrcs)) := by
  cases hi : i.wellFormed s.cfg with
  | false =>
    cases (exec_of_not_wellFormed hi).symm.trans ht
    simp
  | true =>
    by_cases hnull : Dst.null ∈ i.dsts
    · cases (exec_of_null hi hnull).symm.trans ht
      simp [hnull]
    · rw [exec_unwrittenRead hi hnull ht]
      simp [hnull]

theorem hostMove_unwrittenRead {m : HostMove} {s t : State} (ht : hostMove m s = .next t) :
    t.unwrittenRead = (s.unwrittenRead || m.readsUnwritten s) := by
  cases m with
  | issue w =>
    cases hd : decode w with
    | ok i =>
      simp only [hostMove, issue, hd] at ht
      simpa only [HostMove.readsUnwritten, hd, State.allWritten] using exec_unwrittenRead_eq ht
    | error r =>
      simp only [hostMove, issue, hd] at ht
      cases ht
      simp [HostMove.readsUnwritten, hd]
  | readF i => cases ht; simp [HostMove.readsUnwritten, State.allWritten]
  | readN i => cases ht; simp [HostMove.readsUnwritten, State.allWritten]
  | writeF i v | writeN i v | readStatus | readConfig | reset => cases ht; exact (Bool.or_false _).symm

end Sys2Proof.Machine

/-! The statements about moves and runs (`70_reset_and_hazards.md`), settled. -/

namespace Sys2Proof.Machine

/-- Settles O57, by induction on the moves to run: one step makes the first of them, in a state that differs from the
run's only in the moves still to come. -/
theorem runOfMoves : Obligations.RunOfMoves := by
  intro s ms rest hs
  induction ms generalizing s with
  | nil =>
    subst hs
    rfl
  | cons m ms ih =>
    obtain ⟨t, ht⟩ := hostMove_next m { s with host := ms ++ rest }
    have hrun := hostMove_withHost rest ht
    rw [runMoves_cons, hrun, andThen_next, ← ih t (hostMove_host ht)]
    exact run_succ_of_step _ ((step_of_cons hs).trans ht)

/-- Settles O58: by the move the step makes; an idle step changes nothing. -/
theorem unwrittenReadAfterStep : Obligations.UnwrittenReadAfterStep := by
  intro s t ht
  obtain ⟨hs, e⟩ | ⟨m, rest, hs, e⟩ := step_cases s
  · cases e.symm.trans ht
    simp only [hs, Bool.or_false]
  · simp only [hs]
    exact hostMove_unwrittenRead (s := { s with host := rest }) (e.symm.trans ht)

/-- Settles O20: each move is one update of the state, which the rules of the register files describe. -/
theorem hostMovesAct : Obligations.HostMovesAct := by
  intro s rest
  refine ⟨fun hs => by simp only [step, hs], fun i v hs => ?writeF, fun i v hs => ?writeN, fun i hs => ?readF,
    fun i hs => ?readN, fun hs => step_of_cons hs, fun hs => step_of_cons hs⟩
  case writeF =>
    refine ⟨_, step_of_cons hs, by simp, onlyScalar_of_write rfl rfl, rfl, rfl, rfl, rfl, rfl, rfl, rfl, rfl, ?_⟩
    exact (Bool.or_false _).symm
  case writeN =>
    refine ⟨_, step_of_cons hs, by simp, onlyInteger_of_write rfl rfl, rfl, rfl, rfl, rfl, rfl, rfl, rfl, rfl, ?_⟩
    exact (Bool.or_false _).symm
  case readF =>
    rw [step_of_cons hs]
    simp [hostMove, State.answer, State.noteReads, State.allWritten, State.fReg]
  case readN =>
    rw [step_of_cons hs]
    simp [hostMove, State.answer, State.noteReads, State.allWritten, State.nReg]

end Sys2Proof.Machine

/-! SUPPORT. The layout `binary64` (R7): format L has the format record and the ROM members of format D (log 5). -/

namespace Sys2Proof.Machine

section Binary64

variable {s : State} (hl : s.cfg.ldLayout = .binary64)

include hl

theorem memberAt_L {α : Type} (x : PerFmt α) : memberAt s.cfg.ldLayout .L x = memberAt s.cfg.ldLayout .D x :=
  if_pos hl

theorem tableAt_L (tbl : RomId) : tableAt s.cfg .L tbl = tableAt s.cfg .D tbl := by
  simp only [tableAt, memberAt_L hl]

theorem coeffsAt_L (cset : RomId) : coeffsAt s.cfg .L cset = coeffsAt s.cfg .D cset := by
  simp only [coeffsAt, memberAt_L hl]

theorem kLn2_L (F : Format) : kLn2 s.cfg F .L = kLn2 s.cfg F .D := by
  rw [kLn2, memberAt_L hl, kLn2]

theorem kCbrt2_L (F : Format) (r : Int) : kCbrt2 s.cfg F .L r = kCbrt2 s.cfg F .D r := by
  simp only [kCbrt2, memberAt_L hl]

theorem withFormat_L (k : Format → State) : s.withFormat .L k = s.withFormat .D k := by
  simp only [State.withFormat, hl, formatOf]

theorem withTable_L (tbl : RomId) (k : Format → Table → State) : s.withTable .L tbl k = s.withTable .D tbl k := by
  simp only [State.withTable, withFormat_L hl, tableAt_L hl]

theorem withPoly_L (cset : RomId) (k : Format → Poly → State) : s.withPoly .L cset k = s.withPoly .D cset k := by
  simp only [State.withPoly, withFormat_L hl, coeffsAt_L hl]

theorem withRational_L (cset : RomId) (k : Format → Poly → Poly → State) :
    s.withRational .L cset k = s.withRational .D cset k := by
  simp only [State.withRational, withFormat_L hl, coeffsAt_L hl]

end Binary64

end Sys2Proof.Machine

/-! The statement about the layout `binary64` (`00_scope.md` R7), settled. -/

namespace Sys2Proof.Machine

/-- Settles O14: by the legality checks each command makes; RECADD and RECMUL also read a constant of their format. -/
theorem longDoubleActsAsDouble : Obligations.LongDoubleActsAsDouble := by
  intro i s hl
  cases i with
  | xsign | xexp | xman | decomp | isnan | isinf | isnaninf | issubz | newton3 | sgncpy | sgnclr | recomp =>
    exact congrArg Host.Outcome.next (withFormat_L hl _)
  | tindex | tload | resdiv | ressub | resmul => exact congrArg Host.Outcome.next (withTable_L hl _ _)
  | horner | hornersq => exact congrArg Host.Outcome.next (withPoly_L hl _ _)
  | rational => exact congrArg Host.Outcome.next (withRational_L hl _ _)
  | recadd => simp only [Instr.withFmt, exec, execRecadd, withFormat_L hl, kLn2_L hl]
  | recmul => simp only [Instr.withFmt, exec, execRecmul, withFormat_L hl, kCbrt2_L hl]

end Sys2Proof.Machine

/-! The statements about the state after reset (`10_state.md`) and the printed words (`95_test_vectors.md`), settled. -/

namespace Sys2Proof.Machine

/-- Settles O17: each register holds the value of the reset that no move has come before. -/
theorem resetHasInvariant : Obligations.ResetHasInvariant :=
  ⟨by decide, rfl, fun i _ => by simp [State.fReg, State.reset], fun i _ => by simp [State.nReg, State.reset]⟩

/-- Settles O3: the fields of each word are those of the command printed beside it. -/
theorem printedWordsDecode : Obligations.PrintedWordsDecode := by
  simp only [Obligations.PrintedWordsDecode, decode_eq_ok_iff]
  decide

end Sys2Proof.Machine

/-! SUPPORT. Patterns by their values (R20, R21): a non-zero value has one pattern, which is what rounding gives of it;
a significand with its leading one at bit `Fb`; and the decomposition as a shift of the significand (R62). -/

namespace Sys2Proof.Machine

namespace Format

variable {F : Format} {a b p q x : Scalar} {r : Rat}

/-! A non-zero value has one pattern (R20). -/

theorem unitExp_of_bexp_eq_zero (h0 : F.bexp b = 0) : F.unitExp b = 1 - F.bias - F.Fb := by
  rw [unitExp, if_pos h0]

theorem unitExp_of_bexp_ne_zero (h0 : F.bexp b ≠ 0) : F.unitExp b = F.bexp b - F.bias - F.Fb := by
  rw [unitExp, if_neg h0]

theorem abs_finiteVal (b : Scalar) : |F.finiteVal b| = F.sig b * 2 ^ F.unitExp b := by
  have hmagnitude : (0 : Rat) ≤ F.sig b * 2 ^ F.unitExp b := by positivity
  rw [finiteVal, mul_assoc]
  cases F.sgn b <;> simp [abs_of_nonneg hmagnitude]

theorem sgn_of_finiteVal_ne_zero (h : F.finiteVal b ≠ 0) : F.sgn b = decide (F.finiteVal b < 0) := by
  have hmagnitude : 0 < (F.sig b : Rat) * 2 ^ F.unitExp b := abs_finiteVal b ▸ abs_pos.mpr h
  rw [finiteVal, mul_assoc, signed_neg_iff hmagnitude]

theorem finiteVal_ne_zero (hw : F.wellFormed b = true) (hb : F.isFiniteNonzero b = true) : F.finiteVal b ≠ 0 := by
  have hsig : (0 : Rat) < F.sig b := by exact_mod_cast sig_pos hw hb
  rw [← abs_pos, abs_finiteVal]
  positivity

theorem two_pow_Fb_le_sig_iff (hw : F.wellFormed b = true) : 2 ^ F.Fb ≤ F.sig b ↔ F.bexp b ≠ 0 := by
  have := F.frac_lt b
  rw [sig_of_wellFormed hw]
  split <;> omega

theorem eq_of_sig_eq (ha : F.IsPattern a) (hb : F.IsPattern b) (hsgn : F.sgn a = F.sgn b) (hsig : F.sig a = F.sig b)
    (hunit : F.unitExp a = F.unitExp b) : a = b := by
  have hzero : F.bexp a = 0 ↔ F.bexp b = 0 := by
    rw [← not_iff_not, ← Ne, ← Ne, ← two_pow_Fb_le_sig_iff ha.1, hsig, two_pow_Fb_le_sig_iff hb.1]
  have hbexp : F.bexp a = F.bexp b := by
    unfold unitExp at hunit
    split_ifs at hunit <;> omega
  have hfrac : F.frac a = F.frac b := by
    rw [sig_of_wellFormed ha.1, sig_of_wellFormed hb.1, hbexp] at hsig
    split at hsig <;> omega
  rw [← ha.2, ← hb.2, ← pack_fields, ← pack_fields, hsgn, hbexp, man_of_wellFormed ha.1, man_of_wellFormed hb.1, hbexp,
    hfrac]

/-- Of two patterns of one magnitude neither has the smaller unit: the significand would be too long. -/
theorem unitExp_le_of_abs_eq (ha : F.wellFormed a = true) (hb : F.wellFormed b = true)
    (h : |F.finiteVal a| = |F.finiteVal b|) : F.unitExp b ≤ F.unitExp a := by
  by_contra! hlt
  have hunit := F.le_unitExp a
  have hnormal : 2 ^ F.Fb ≤ F.sig b := by
    rw [two_pow_Fb_le_sig_iff hb]
    intro h0
    rw [unitExp_of_bexp_eq_zero h0] at hlt
    omega
  have hsig : (F.sig a : Rat) < 2 ^ (F.Fb + 1 : Int) := by exact_mod_cast sig_lt ha
  refine absurd h (ne_of_lt ?_)
  calc |F.finiteVal a| = F.sig a * 2 ^ F.unitExp a := abs_finiteVal a
    _ < 2 ^ (F.Fb + 1 : Int) * 2 ^ F.unitExp a := mul_lt_mul_of_pos_right hsig (zpow_pos two_pos _)
    _ = 2 ^ (F.Fb + 1 + F.unitExp a : Int) := (zpow_add₀ two_ne_zero _ _).symm
    _ ≤ 2 ^ (F.Fb + F.unitExp b : Int) := zpow_le_zpow_right₀ one_le_two (by omega)
    _ = ((2 ^ F.Fb : Nat) : Rat) * 2 ^ F.unitExp b := by rw [zpow_add₀ two_ne_zero]; norm_cast
    _ ≤ F.sig b * 2 ^ F.unitExp b :=
      mul_le_mul_of_nonneg_right (by exact_mod_cast hnormal) (zpow_nonneg two_pos.le _)
    _ = |F.finiteVal b| := (abs_finiteVal b).symm

theorem eq_of_finiteVal_eq (ha : F.IsPattern a) (hb : F.IsPattern b) (h0 : F.finiteVal a ≠ 0)
    (h : F.finiteVal a = F.finiteVal b) : a = b := by
  have habs := congrArg abs h
  have hunit : F.unitExp a = F.unitExp b :=
    (unitExp_le_of_abs_eq hb.1 ha.1 habs.symm).antisymm (unitExp_le_of_abs_eq ha.1 hb.1 habs)
  have hsgn : F.sgn a = F.sgn b := by
    rw [sgn_of_finiteVal_ne_zero h0, sgn_of_finiteVal_ne_zero (h ▸ h0), h]
  have hsig : F.sig a = F.sig b := by
    rw [abs_finiteVal, abs_finiteVal, hunit] at habs
    exact_mod_cast mul_right_cancel₀ (zpow_ne_zero _ two_ne_zero) habs
  exact eq_of_sig_eq ha hb hsgn hsig hunit

/-- Rounding gives of a number that a pattern has for its value that pattern (R21). -/
theorem IsRounding.eq_of_finiteVal_eq (h : F.IsRounding r p) (hq : F.IsPattern q) (hfinite : F.isFiniteNonzero q = true)
    (hval : F.finiteVal q = r) : p = q := by
  subst hval
  have h0 := finiteVal_ne_zero hq.1 hfinite
  have hunit := unitExp_le (isFinite_of_isFiniteNonzero hfinite)
  have hbits : |F.finiteVal q| < (2 : Rat) ^ (F.Fb + 1 + F.unitExp q) := by
    have hsig : (F.sig q : Rat) < 2 ^ (F.Fb + 1 : Int) := by exact_mod_cast sig_lt hq.1
    rw [abs_finiteVal, zpow_add₀ two_ne_zero]
    exact mul_lt_mul_of_pos_right hsig (zpow_pos two_pos _)
  have hrange : |F.finiteVal q| < (2 : Rat) ^ (F.bias + 1) := by
    refine hbits.trans_le ?_
    rw [← zpow_natCast]
    exact zpow_le_zpow_right₀ one_le_two (by push_cast; omega)
  obtain ⟨-, hp⟩ := val_eq_finite_iff.mp
    (h.val_eq_of_multiple h0 (abs_finiteVal q) (F.le_unitExp q) hbits hrange)
  exact Format.eq_of_finiteVal_eq h.isPattern hq (hp ▸ h0) hp

/-! A significand with its leading one at bit `Fb`. -/

/-- As a mantissa field it has its leading one stored or, without an explicit integer bit, dropped (R12). -/
theorem pack_eq_pack_leadingOne {m : Nat} (hlo : 2 ^ F.Fb ≤ m) (s : Bool) (be : Nat) :
    F.pack s be m = F.pack s be (F.leadingOne (m - 2 ^ F.Fb)) := by
  apply BitVec.eq_of_toNat_eq
  rw [toNat_pack, toNat_pack, leadingOne]
  obtain hJ | hJ := F.J_cases <;> rw [hJ]
  · rw [Nat.zero_mul, Nat.zero_add, Nat.add_zero, Nat.mod_eq_sub_mod hlo]
  · rw [Nat.one_mul, Nat.add_sub_of_le hlo]

section Significand

variable {s : Bool} {be m : Nat} (hlo : 2 ^ F.Fb ≤ m) (hhi : m < 2 ^ (F.Fb + 1))

include hlo hhi

theorem sub_two_pow_Fb_lt : m - 2 ^ F.Fb < 2 ^ F.Fb := by
  rw [pow_succ] at hhi
  omega

theorem finiteVal_pack_of_leadingOne (h0 : be ≠ 0) (hbe : be < F.emax) :
    F.finiteVal (F.pack s be m) = (if s then -1 else 1) * (m * (2 : Rat) ^ ((be : Int) - F.bias - F.Fb)) := by
  have hval := val_pack_leadingOne (s := s) hbe h0 (sub_two_pow_Fb_lt hlo hhi)
  rw [← pack_eq_pack_leadingOne hlo, Nat.add_sub_of_le hlo] at hval
  exact (val_eq_finite_iff.mp hval).2

theorem isPattern_pack_of_leadingOne (h0 : be ≠ 0) (hbe : be ≤ F.emax) : F.IsPattern (F.pack s be m) := by
  rw [pack_eq_pack_leadingOne hlo]
  exact ⟨wellFormed_pack_leadingOne hbe h0 (sub_two_pow_Fb_lt hlo hhi), low_pack⟩

end Significand

theorem classOf_pack {s : Bool} {be : Nat} (h0 : be ≠ 0) (hbe : be < F.emax) (m : Nat) :
    F.classOf (F.pack s be m) = .normal := by
  rw [classOf_eq_normal_iff, bexp_pack hbe.le]
  exact ⟨h0, hbe.ne⟩

/-- Packing drops what the mantissa field has no room for. -/
theorem man_pack_eq_mod (s : Bool) (be m : Nat) : F.man (F.pack s be m) = m % 2 ^ (F.Fb + F.J) := by
  rw [man_eq, toNat_pack, two_pow_W_sub_one, ← Nat.mul_assoc, ← Nat.add_mul, Nat.mul_add_mod_self_right, Nat.mod_mod]

/-- The mantissa field of a packed pattern packs as what it was made of. -/
theorem pack_man_pack (s t : Bool) (be be' m : Nat) : F.pack s be (F.man (F.pack t be' m)) = F.pack s be m := by
  apply BitVec.eq_of_toNat_eq
  rw [toNat_pack, toNat_pack, man_pack_eq_mod, Nat.mod_mod]

/-! The decomposition shifts the significand until its leading one is at bit `Fb` (R62). -/

theorem sig_of_bexp_eq_zero (hw : F.wellFormed x = true) (h0 : F.bexp x = 0) : F.sig x = F.man x := by
  rw [sig_of_wellFormed hw, man_of_wellFormed hw, if_pos h0, if_pos h0]

theorem decompose_of_isFiniteNonzero (hw : F.wellFormed x = true) (hx : F.isFiniteNonzero x = true) :
    ∃ sh : Nat, 2 ^ F.Fb ≤ F.sig x * 2 ^ sh ∧ F.sig x * 2 ^ sh < 2 ^ (F.Fb + 1) ∧
      F.decompose x = (F.pack false F.bias (F.sig x * 2 ^ sh), F.unitExp x + F.Fb - sh) := by
  obtain hsub | hnormal := isFiniteNonzero_iff.mp hx
  · obtain ⟨h0, hm⟩ := classOf_eq_subnormal_iff.mp hsub
    obtain ⟨sh, -, -, hlo, hhi, h⟩ := decompose_of_subnormal hw h0 hm
    rw [sig_of_bexp_eq_zero hw h0, unitExp_of_bexp_eq_zero h0, sub_add_cancel]
    exact ⟨sh, hlo, hhi, h⟩
  · obtain ⟨h0, hmax⟩ := classOf_eq_normal_iff.mp hnormal
    have hlo : 2 ^ F.Fb ≤ F.sig x := (two_pow_Fb_le_sig_iff hw).mpr h0
    have hfrac : F.sig x - 2 ^ F.Fb = F.frac x := by rw [sig_of_wellFormed hw, if_neg h0, Nat.add_sub_cancel_left]
    refine ⟨0, by simpa using hlo, by simpa using sig_lt hw, ?_⟩
    rw [pow_zero, mul_one, pack_eq_pack_leadingOne hlo, hfrac, decompose_of_normal h0 hmax,
      man_of_wellFormed hw, if_neg h0, unitExp_of_bexp_ne_zero h0]
    simp

theorem isFiniteNonzero_decompose (hw : F.wellFormed x = true) (hx : F.isFiniteNonzero x = true) :
    F.isFiniteNonzero (F.decompose x).1 = true := by
  obtain ⟨sh, -, -, h⟩ := decompose_of_isFiniteNonzero hw hx
  rw [h, isFiniteNonzero_iff]
  exact .inr (classOf_pack F.bias_pos.ne' F.bias_lt_emax _)

theorem finiteVal_decompose (hw : F.wellFormed x = true) (hx : F.isFiniteNonzero x = true) :
    F.finiteVal (F.decompose x).1 * (2 : Rat) ^ (F.decompose x).2 = |F.finiteVal x| ∧
      1 ≤ F.finiteVal (F.decompose x).1 ∧ F.finiteVal (F.decompose x).1 < 2 := by
  obtain ⟨sh, hlo, hhi, h⟩ := decompose_of_isFiniteNonzero hw hx
  have hval : F.finiteVal (F.decompose x).1 = ((F.sig x * 2 ^ sh : Nat) : Rat) / 2 ^ F.Fb := by
    rw [h, finiteVal_pack_of_leadingOne hlo hhi F.bias_pos.ne' F.bias_lt_emax, sub_self, zero_sub, zpow_neg,
      zpow_natCast, div_eq_mul_inv]
    simp
  rw [hval, h]
  refine ⟨?exact, ?lower, ?upper⟩
  case exact =>
    rw [abs_finiteVal, zpow_sub₀ two_ne_zero, zpow_add₀ two_ne_zero, zpow_natCast, zpow_natCast]
    push_cast
    field_simp
  case lower =>
    rw [le_div_iff₀ (by positivity), one_mul]
    exact_mod_cast hlo
  case upper =>
    rw [div_lt_iff₀ (by positivity), ← pow_succ']
    exact_mod_cast hhi

end Format

end Sys2Proof.Machine

/-! The statements of the spec's own inferences about the decomposition, the predicates and the sign
(`40_decompose.md`, `41_classify.md`, `44_recombine.md`, `45_assembler_sequence.md`), settled. -/

namespace Sys2Proof.Machine

open Format

/-- Settles O34: the significand is shifted and its unit goes down by as much. -/
theorem decompositionContract : Obligations.DecompositionContract := by
  refine fun F x hw => ⟨finiteVal_decompose hw, fun hx => decompose_of_special ?_⟩
  have h : ¬(F.classOf x = .subnormal ∨ F.classOf x = .normal) := by simp [← isFiniteNonzero_iff, hx]
  rw [classOf_eq_subnormal_iff, classOf_eq_normal_iff] at h
  tauto

/-- Settles O35: by the branches of R62, whose exponents are all between the least and the greatest of the format. -/
theorem decompExponentRange : Obligations.DecompExponentRange := by
  intro F x hw
  obtain ⟨hlo, hhi⟩ := decompose_exponent_mem hw
  exact ⟨hlo, hhi, toInt_ofInt_decompose hw⟩

/-- Settles O36: the scaled value has a normal pattern, with the significand that the decomposition shifts to; rounding
gives that pattern. -/
theorem normalisationConstantNotObservable : Obligations.NormalisationConstantNotObservable := by
  intro F x K hw hsub hFb hK
  obtain ⟨h0, hm⟩ := classOf_eq_subnormal_iff.mp hsub
  obtain ⟨sh, hpos, hle, hlo, hhi, hdecompose⟩ := decompose_of_subnormal hw h0 hm
  have hbias := F.bias_pos
  have hemax := F.emax_eq
  have hbe0 : K + 1 - sh ≠ 0 := by omega
  have hbe : K + 1 - sh < F.emax := by omega
  have hval : F.finiteVal (F.pack (F.sgn x) (K + 1 - sh) (F.man x * 2 ^ sh)) = F.finiteVal x * (2 : Rat) ^ K := by
    have hexp : (((K + 1 - sh : Nat) : Int) - F.bias - F.Fb) = (1 - F.bias - F.Fb : Int) + K - sh := by omega
    rw [finiteVal_pack_of_leadingOne hlo hhi hbe0 hbe, finiteVal_of_bexp_eq_zero h0, sig_of_bexp_eq_zero hw h0, hexp,
      zpow_sub₀ two_ne_zero, zpow_add₀ two_ne_zero, zpow_natCast, zpow_natCast]
    push_cast
    field_simp
  have hclass := classOf_pack (s := F.sgn x) hbe0 hbe (F.man x * 2 ^ sh)
  have hscaled : F.fscale x K = F.pack (F.sgn x) (K + 1 - sh) (F.man x * 2 ^ sh) :=
    (isRounding_fscale hw (isFiniteNonzero_iff.mpr (.inl hsub)) K).eq_of_finiteVal_eq
      (isPattern_pack_of_leadingOne hlo hhi hbe0 hbe.le) (isFiniteNonzero_iff.mpr (.inr hclass)) hval
  rw [hscaled, hdecompose, pack_man_pack, bexp_pack hbe.le]
  exact ⟨hclass, hval, by omega, rfl⟩

/-- Settles O38: the tests and the classes are the same conditions on the fields. -/
theorem predicatesAgreeWithDecomp : Obligations.PredicatesAgreeWithDecomp := by
  intro F x _
  have hemax := F.emax_ne_zero
  simp only [isNanOrInf_iff, isSubnormalOrZero_iff, ← Bool.not_eq_true, classOf_eq_nan_iff, classOf_eq_infinite_iff,
    classOf_eq_zero_iff, classOf_eq_subnormal_iff, classOf_eq_normal_iff]
  refine ⟨by tauto, by tauto, ?sum, fun ⟨hmax, h0⟩ => hemax (hmax.symm.trans h0),
    fun hmax h0 => ⟨⟨h0, hmax⟩, decompose_of_normal h0 hmax⟩⟩
  case sum =>
    unfold isNan isInf isNanOrInf bne
    cases F.bexp x == F.emax <;> cases F.frac x == 0 <;> rfl

/-- Settles O54: the magnitude does not see the sign, and the sign bit is put back as it came. -/
theorem oddAndEvenSequences : Obligations.OddAndEvenSequences := by
  intro F g x
  have hmagnitude : F.withSign false (F.neg x) = F.withSign false x := withSign_withSign
  simp only [oddFunction, evenFunction, hmagnitude, sgn_neg, neg_withSign, and_self]

/-- Settles O56: the pair's value is the magnitude's, which has a pattern, so rounding gives that pattern. -/
theorem recompOfDecompIsMagnitude : Obligations.RecompOfDecompIsMagnitude := by
  intro s t u p F d e g fs hF hw hx harith ht hu
  have hpattern : F.IsPattern (s.fr F fs) := ⟨hw, F.low_low _⟩
  obtain ⟨hmant, hlow⟩ := isPattern_decompose hpattern
  have hmagnitude := val_withSign_false (val_of_isFinite (isFinite_of_isFiniteNonzero hx))
  obtain ⟨⟨hd, he⟩, -, -, -, hcfg, -⟩ := finishFN_writesOnly (d := d) (e := e) (ns := [])
    ((operandsOk_singleton s F fs).trans hw) (F.decompose (s.fr F fs)).1 (BitVec.ofInt 32 (F.decompose (s.fr F fs)).2)
  rw [Host.Outcome.next.inj ((exec_decomp hF _ _ _).symm.trans ht)] at hd he hcfg
  have hfr : t.fr F d = (F.decompose (s.fr F fs)).1 := by rw [State.fr, hd, low_low, hlow]
  obtain ⟨u', hexec, -, hresult, -⟩ := recompResult t p F g d e (hcfg ▸ hF) (hfr ▸ hmant)
  obtain ⟨hrounded, -⟩ := hresult (hcfg ▸ harith)
  rw [hfr, he, toInt_ofInt_decompose hw, (finiteVal_decompose hw hx).1,
    ← Host.Outcome.next.inj (hu.symm.trans hexec)] at hrounded
  exact (hrounded (isFiniteNonzero_decompose hw hx)).eq_of_finiteVal_eq (hpattern.withSign false)
    (isFiniteNonzero_withSign.trans hx) (val_eq_finite_iff.mp hmagnitude).2

end Sys2Proof.Machine

/-! SUPPORT. A mantissa in `[1, 2)` and the break-point of its own index (`42_table_index.md`): the fraction as index
bits and rest, the two values, and a rounding in `[1, 2)`. -/

namespace Sys2Proof.Machine

namespace Format

variable {F : Format} {L : Nat} {m p : Scalar} {r : Rat}

/-! The fraction is the index and the bits below it (R74). -/

theorem cast_two_pow_Fb (F : Format) (hL : L ≤ 16) : (2 : Rat) ^ F.Fb = 2 ^ L * 2 ^ (F.Fb - L) := by
  exact_mod_cast (F.two_pow_mul_two_pow_Fb_sub hL).symm

/-- The bits of the fraction below the index, as a number: how far a mantissa is above its break-point. -/
def residue (F : Format) (L : Nat) (m : Scalar) : Rat := ((F.frac m % 2 ^ (F.Fb - L) : Nat) : Rat) / 2 ^ F.Fb

theorem residue_nonneg (F : Format) (L : Nat) (m : Scalar) : 0 ≤ F.residue L m := by
  unfold residue
  positivity

theorem frac_div_eq (hL : L ≤ 16) (m : Scalar) :
    (F.frac m : Rat) / 2 ^ F.Fb = (F.topBits L m : Rat) / 2 ^ L + F.residue L m := by
  have hfrac : (F.frac m : Rat) = 2 ^ (F.Fb - L) * F.topBits L m + (F.frac m % 2 ^ (F.Fb - L) : Nat) := by
    rw [topBits_eq]
    exact_mod_cast (Nat.div_add_mod _ _).symm
  rw [residue, hfrac, F.cast_two_pow_Fb hL]
  field_simp

theorem residue_lt (hL : L ≤ 16) (m : Scalar) : F.residue L m < 1 / 2 ^ L := by
  have hrest : ((F.frac m % 2 ^ (F.Fb - L) : Nat) : Rat) < 2 ^ (F.Fb - L) := by
    exact_mod_cast Nat.mod_lt _ (Nat.two_pow_pos _)
  rw [residue, F.cast_two_pow_Fb hL, div_lt_div_iff₀ (by positivity) (by positivity), mul_comm, one_mul]
  exact mul_lt_mul_of_pos_left hrest (by positivity)

/-! Patterns with the bias for their exponent (R62, R76). -/

theorem classOf_of_bexp_eq_bias (hb : F.bexp m = F.bias) : F.classOf m = .normal :=
  classOf_eq_normal_iff.mpr ⟨hb.trans_ne F.bias_pos.ne', hb.trans_ne F.bias_lt_emax.ne⟩

theorem isFiniteNonzero_of_bexp_eq_bias (hb : F.bexp m = F.bias) : F.isFiniteNonzero m = true :=
  isFiniteNonzero_iff.mpr (.inr (classOf_of_bexp_eq_bias hb))

theorem unitExp_of_bexp_eq_bias (hb : F.bexp m = F.bias) : F.unitExp m = -F.Fb := by
  rw [unitExp_of_bexp_ne_zero (hb.trans_ne F.bias_pos.ne'), hb, sub_self, zero_sub]

theorem bexp_breakPoint (F : Format) (L k : Nat) : F.bexp (F.breakPoint L k) = F.bias := bexp_pack F.bias_lt_emax.le

/-- The break-point of a mantissa's own index. -/
theorem finiteVal_breakPoint_topBits (hL : L ≤ 16) (m : Scalar) :
    F.finiteVal (F.breakPoint L (F.topBits L m)) = 1 + (F.topBits L m : Rat) / 2 ^ L :=
  (val_eq_finite_iff.mp (val_breakPoint hL (F.topBits_lt hL m))).2

section Mantissa

variable (hw : F.wellFormed m = true) (hs : F.sgn m = false) (hb : F.bexp m = F.bias)

include hw hs hb

theorem finiteVal_mantissa : F.finiteVal m = 1 + (F.frac m : Rat) / 2 ^ F.Fb := by
  rw [finiteVal_of_normal hw (classOf_of_bexp_eq_bias hb), hs, hb, sub_self, zpow_zero]
  simp

theorem finiteVal_mantissa_eq_breakPoint_add (hL : L ≤ 16) :
    F.finiteVal m = F.finiteVal (F.breakPoint L (F.topBits L m)) + F.residue L m := by
  rw [finiteVal_mantissa hw hs hb, finiteVal_breakPoint_topBits hL, frac_div_eq hL, add_assoc]

/-- The quotient by the break-point lies in `[1, 1 + 1/T)`, as the break-point is no less than 1. -/
theorem mantissa_div_breakPoint_mem (hL : L ≤ 16) :
    1 ≤ F.finiteVal m / F.finiteVal (F.breakPoint L (F.topBits L m)) ∧
      F.finiteVal m / F.finiteVal (F.breakPoint L (F.topBits L m)) < 1 + 1 / 2 ^ L := by
  have hbreak : 1 ≤ F.finiteVal (F.breakPoint L (F.topBits L m)) := by
    rw [finiteVal_breakPoint_topBits hL]
    have : (0 : Rat) ≤ (F.topBits L m : Rat) / 2 ^ L := by positivity
    linarith
  have hnonneg := F.residue_nonneg L m
  have hlt := residue_lt hL (F := F) m
  have hT : (0 : Rat) < 1 / 2 ^ L := by positivity
  rw [finiteVal_mantissa_eq_breakPoint_add hw hs hb hL, le_div_iff₀ (by linarith), div_lt_iff₀ (by linarith)]
  exact ⟨by linarith, by nlinarith⟩

end Mantissa

/-! A rounding in `[1, 2)` (R21). -/

/-- There the unit is `2^-Fb`. -/
theorem IsRounding.exists_nearest_of_mem_Ico (h : F.IsRounding r p) (hlo : 1 ≤ r) (hhi : r < 2) :
    ∃ k : Nat, IsNearestEven (r * 2 ^ F.Fb) k ∧ F.val p = .finite (k / 2 ^ F.Fb) := by
  obtain ⟨k, hk, hp⟩ := isRounding_iff.mp h
  have hpos : ¬r < 0 := by linarith
  have hlog : Int.log 2 r = 0 := intLog_eq (by simpa using hlo) (by simpa using hhi)
  have hbias := F.bias_pos
  have hexp : F.roundExp r = 0 := by
    rw [roundExp, abs_of_nonneg (not_lt.mp hpos), hlog]
    omega
  rw [hexp, zero_sub, zpow_neg, zpow_natCast] at hk hp
  rw [abs_of_nonneg (not_lt.mp hpos), div_inv_eq_mul] at hk
  have hle : k ≤ 2 ^ (F.Fb + 1) := hk.ge_of_le <| by
    rw [pow_succ']
    push_cast
    exact mul_le_mul_of_nonneg_right hhi.le (by positivity)
  have hrange : (k : Rat) * (2 ^ F.Fb)⁻¹ < 2 ^ (F.bias + 1) :=
    calc (k : Rat) * (2 ^ F.Fb)⁻¹ ≤ 2 ^ (F.Fb + 1) * (2 ^ F.Fb)⁻¹ :=
          mul_le_mul_of_nonneg_right (by exact_mod_cast hle) (by positivity)
      _ = 2 ^ 1 := by rw [pow_succ']; field_simp
      _ < 2 ^ (F.bias + 1) := pow_lt_pow_right₀ one_lt_two (by omega)
  rw [Represents, if_neg hrange.not_ge, decide_eq_false hpos] at hp
  exact ⟨k, hk, by simpa [div_eq_mul_inv] using hp.1⟩

/-- Rounding does not leave an interval between 1 and a number in `[1, 2]` with `L` fraction bits. -/
theorem IsRounding.exists_val_mem_Icc (h : F.IsRounding r p) (hL : L ≤ 16) (hlo : 1 ≤ r) (hhi : r < 1 + 1 / 2 ^ L) :
    ∃ q : Rat, F.val p = .finite q ∧ 1 ≤ q ∧ q ≤ 1 + 1 / 2 ^ L := by
  have hT : (1 : Rat) / 2 ^ L ≤ 1 := div_le_one_of_le₀ (one_le_pow₀ one_le_two) (by positivity)
  have hpow : (0 : Rat) < 2 ^ F.Fb := by positivity
  have hupper : ((2 ^ F.Fb + 2 ^ (F.Fb - L) : Nat) : Rat) = (1 + 1 / 2 ^ L) * 2 ^ F.Fb := by
    push_cast
    rw [F.cast_two_pow_Fb hL]
    field_simp
  obtain ⟨k, hk, hval⟩ := h.exists_nearest_of_mem_Ico hlo (hhi.trans_le (by linarith))
  have hge : 2 ^ F.Fb ≤ k := hk.le_of_le (by push_cast; exact le_mul_of_one_le_left hpow.le hlo)
  have hle : k ≤ 2 ^ F.Fb + 2 ^ (F.Fb - L) := hk.ge_of_le (hupper ▸ mul_le_mul_of_nonneg_right hhi.le hpow.le)
  refine ⟨_, hval, ?_, ?_⟩
  · rw [le_div_iff₀ hpow, one_mul]
    exact_mod_cast hge
  · rw [div_le_iff₀ hpow, ← hupper]
    exact_mod_cast hle

end Format

end Sys2Proof.Machine

/-! The statements of the spec's own inferences about a mantissa and its own index (`42_table_index.md`), settled. -/

namespace Sys2Proof.Machine

open Format

/-- Settles O43: the mantissa is its break-point and the fraction bits below the index, which are less than `1/T`. -/
theorem bracketProperty : Obligations.BracketProperty := by
  intro F L m hL hw hs hb
  have hval := finiteVal_mantissa_eq_breakPoint_add hw hs hb hL
  have hnonneg := F.residue_nonneg L m
  have hlt := residue_lt hL (F := F) m
  rw [finiteVal_breakPoint_topBits hL] at hval
  refine ⟨finiteVal_mantissa hw hs hb, F.topBits_eq L m, by linarith, ?_⟩
  rw [hval, add_div]
  linarith

/-- Settles O44: the exact difference is below 1 in the unit of its operands, so no rounding changes it. -/
theorem additiveResidualExact : Obligations.AdditiveResidualExact := by
  intro F L m hL hw hs hb
  have hbreak := F.bexp_breakPoint L (F.topBits L m)
  have hfinite := isFinite_of_isFiniteNonzero (isFiniteNonzero_of_bexp_eq_bias hb)
  have hfinite' : F.isFinite (F.neg (F.breakPoint L (F.topBits L m))) = true :=
    isFinite_neg.trans (isFinite_of_isFiniteNonzero (isFiniteNonzero_of_bexp_eq_bias hbreak))
  have hdiff : F.finiteVal m + F.finiteVal (F.neg (F.breakPoint L (F.topBits L m))) = F.residue L m := by
    rw [finiteVal_neg, finiteVal_mantissa_eq_breakPoint_add hw hs hb hL]
    ring
  rw [fsub]
  refine ⟨?exact, fun hrest => ?zero⟩
  case exact =>
    rw [val_fadd_of_abs_lt hfinite hfinite', hdiff, residue]
    rw [hdiff, unitExp_neg, unitExp_of_bexp_eq_bias hb, unitExp_of_bexp_eq_bias hbreak, min_self,
      abs_of_nonneg (F.residue_nonneg L m)]
    calc F.residue L m < 1 / 2 ^ L := residue_lt hL m
      _ ≤ 1 := div_le_one_of_le₀ (one_le_pow₀ one_le_two) (by positivity)
      _ ≤ 2 ^ (F.Fb + 1 + -F.Fb : Int) := one_le_zpow₀ one_le_two (by omega)
  case zero =>
    have hzero : F.residue L m = 0 := by rw [residue, hrest, Nat.cast_zero, zero_div]
    rw [fadd_of_isFinite hfinite hfinite', addFinite_of_sum_eq_zero (hdiff.trans hzero), hs, Bool.false_and]

/-- Settles O45: the exact quotient lies in the range, whose ends are patterns, and rounding does not leave it. -/
theorem multiplicativeResidualRange : Obligations.MultiplicativeResidualRange := by
  intro F L m hL hw hs hb
  obtain ⟨hlo, hhi⟩ := mantissa_div_breakPoint_mem hw hs hb hL
  have hrounded := isRounding_fdiv hw (wellFormed_breakPoint hL (F.topBits_lt hL m))
    (isFiniteNonzero_of_bexp_eq_bias hb) (isFiniteNonzero_of_bexp_eq_bias (F.bexp_breakPoint L (F.topBits L m)))
  exact hrounded.exists_val_mem_Icc hL hlo hhi

end Sys2Proof.Machine
